-- ==== Sys2Proof/Word.lean ====
section
/-!
DEFINITION. The fixed-width values of the block: a byte on the bus or in the buffer, a 32-bit word (argument,
sector, counter), and a 16-bit signed result code (R101).
-/

namespace Sys2Proof

/-- One byte: a bus byte, a buffer byte, a status or token byte. -/
abbrev Byte := BitVec 8

/-- A u32: command argument, sector number, count, counter register. -/
abbrev Word := BitVec 32

/-- An s16 result code in two's complement (R101). -/
abbrev Code := BitVec 16

/-- A u16: CRC-16 values and the two checksum fields of a log record. -/
abbrev Half := BitVec 16

/-- The idle bus byte (glossary of 00_scope.md). -/
abbrev idleByte : Byte := 0xFF#8

end Sys2Proof
end

