-- ==== Sys2Proof/Config.lean ====
section
/-!
DEFINITION. What an implementation fixes (the parameter table of 00_scope.md section 4, R8) and the free values
of the model: what the card answers (R41) and in which order waiting requests are served (R71).
-/

namespace Sys2Proof

/-- The open parameters of 00_scope.md section 4. A model takes each as an argument: State carries one
`Params` that no step writes, so a statement about every state is one about every configuration. -/
structure Params where
  /-- `N_POWERUP_BYTES`: 0xFF bytes clocked with select deasserted before the first CMD0. -/
  nPowerup : Nat
  /-- `N_RESET_ATTEMPTS`: CMD0 attempts in Probing. -/
  nResetAttempts : Nat
  /-- `N_IDLE_WAIT`: negotiation iterations in IdleWait. -/
  nIdleWait : Nat
  /-- `N_READY_POLL`: bytes polled for bus idle before a frame. -/
  nReadyPoll : Nat
  /-- `N_RESP_POLL`: bytes polled for the response status byte. -/
  nRespPoll : Nat
  /-- `N_TOKEN_POLL`: bytes polled for the data-start token. -/
  nTokenPoll : Nat
  /-- `N_BUSY_POLL`: bytes polled for not-busy after a write token. -/
  nBusyPoll : Nat
  /-- `WRITE_RETRY_BUDGET`: attempts of one sector write. -/
  writeBudget : Nat
  /-- `LOG_ENABLED`. -/
  logEnabled : Bool
  /-- `LOG_CAP`: records the log holds. -/
  logCap : Nat
  /-- `F_SLOW` in Hz. -/
  fSlow : Nat
  /-- `F_FAST` in Hz. -/
  fFast : Nat
  /-- `BUF_ADDR_W`: width of a caller-buffer address. -/
  bufAddrW : Nat
  deriving DecidableEq, Repr

/-- The column "test value" of 00_scope.md section 4. DESIGN CHOICE (log entry 7), unsafe: `State.reset` holds
these values; the spec makes no claim that a driver has them. -/
def Params.testValues : Params where
  nPowerup := 10
  nResetAttempts := 4
  nIdleWait := 5
  nReadyPoll := 4
  nRespPoll := 8
  nTokenPoll := 16
  nBusyPoll := 16
  writeBudget := 3
  logEnabled := true
  logCap := 4
  fSlow := 100000
  fFast := 10000000
  bufAddrW := 32

/-- Free value (R41, U4; log entry 1): the byte the card answers to the n-th Xfer once the listed answers of
`env.cardIn` are used up. No body: nothing can be proved about it but what holds of every byte. -/
opaque Config.cardByte : Nat → Byte

/-- Free value (R71, U7; log entry 6): which of several possible next actions is taken when `env.order` lists no
choice. -/
opaque Config.pick : Nat → Nat

end Sys2Proof
end

