-- ==== Sys2Proof/Syntax.lean ====
section
/-!
DEFINITION. The instructions: one constructor per row of spec/opcode_table.json (30_encoding.md R92, R100, R102),
and what a host agent presents on the request port (R42).
-/

namespace Sys2Proof

/-- The opcode table. A frame row is one transaction of the transport (ACMD41: two, R138); a request row is one
host request. CMD17, CMD18 and CMD24 carry the frame's argument and the buffer base of their data phase (R144,
R145, R147). A caller-buffer address is a `Nat`, since its width `BUF_ADDR_W` is a parameter. -/
inductive Instr where
  /-- GO_IDLE_STATE (R140). -/
  | cmd0
  /-- Legacy MMC initialization (R141). -/
  | cmd1
  /-- Interface condition (R142). -/
  | cmd8
  /-- Block length 512 (R143). -/
  | cmd16
  /-- Single-block read (R144). -/
  | cmd17 (addr : Word) (buf : Nat)
  /-- Multi-block read (R147); no host request issues it (R7). -/
  | cmd18 (addr : Word) (buf : Nat)
  /-- Single-block write (R145). -/
  | cmd24 (addr : Word) (buf : Nat)
  /-- Application-command announcement (R146). -/
  | cmd55
  /-- ACMD41 with the high-capacity-support bit (R148). -/
  | acmd41Hcs1
  /-- ACMD41 without it (R148). -/
  | acmd41Hcs0
  /-- Read the operating-conditions register (R149). -/
  | cmd58
  /-- CRC on (R150). -/
  | cmd59
  /-- Request 0x0 INITIALIZE (R302). -/
  | initSession
  /-- Request 0x1 (R230). -/
  | startup
  /-- Request 0x2 (R304). -/
  | isReady
  /-- Request 0x3 (R273). -/
  | readSector (buf : Nat) (sector : Word)
  /-- Request 0x4 (R278). -/
  | readRange (buf : Nat) (sector count : Word)
  /-- Request 0x5 (R279). -/
  | writeSector (buf : Nat) (sector : Word)
  /-- Request 0x6 (R281). -/
  | writeRange (buf : Nat) (sector count : Word)
  /-- Request 0x7 (R305). -/
  | dumpDiagnostics
  /-- Request 0x8 (R306). -/
  | clearDiagnostics
  /-- Reserved code 0x9 (R102). -/
  | reserved9
  /-- Reserved code 0xA (R102). -/
  | reservedA
  /-- Reserved code 0xB (R102). -/
  | reservedB
  /-- Reserved code 0xC (R102). -/
  | reservedC
  /-- Reserved code 0xD (R102). -/
  | reservedD
  /-- Reserved code 0xE (R102). -/
  | reservedE
  /-- Reserved code 0xF (R102). -/
  | reservedF
  deriving DecidableEq, Repr

/-- The four fields of the request port (R42). -/
structure Request where
  op : BitVec 4
  buf : Nat
  sector : Word
  count : Word
  deriving DecidableEq, Repr

/-- What can be handed to the sequencer: a host request (R42), or the bytes of one frame of the command set with
the buffer base its data phase would use. The second form is the model's own way to run a frame row of the opcode
table by itself (log entry 8). -/
inductive PortItem where
  | request (r : Request)
  | frame (bytes : List Byte) (buf : Nat)
  deriving DecidableEq, Repr

/-- A port item with the host agent that presents it (R301). -/
structure Presented where
  agent : Nat
  item : PortItem
  deriving DecidableEq, Repr

end Sys2Proof
end

