-- ==== Sys2Proof/Machine/State.lean ====
section
/-!
DEFINITION. The state of the block and of what it stands in (10_state.md), as plain data, the reasons a step can
stop, and the state after reset (R50).
-/

namespace Sys2Proof.Machine

/-- `STATE` (R23). -/
inductive SessionState where
  | uninitialized | probing | voltageCheck | idleWait | capacityCheck | configuring | ready | faulted
  deriving DecidableEq, Repr

/-- `CAP_CLASS` (R26). -/
inductive CapClass where
  | standard | high
  deriving DecidableEq, Repr

/-- `CARD_GEN` (R27). The value 3 does not exist. -/
inductive CardGen where
  | mmc | sdv1 | sdv2
  deriving DecidableEq, Repr

/-- `CLK_MODE` (R28), and the rate of a SetClock event (R40): `slow` is `F_SLOW`, `fast` is `F_FAST`. -/
inductive ClkMode where
  | slow | fast
  deriving DecidableEq, Repr

/-- The error kinds of R330. -/
inductive ErrKind where
  | transmissionInterrupted | checksumFailed | resetTimeout | idleWaitTimeout | unsupportedVoltage
  | voltageNotSupported | notReady | generic
  deriving DecidableEq, Repr

/-- A command result: a card status byte or an error kind (00_scope.md section 5). -/
inductive Result where
  | status (b : Byte)
  | err (k : ErrKind)
  deriving DecidableEq, Repr

/-- A diagnostic log record (R33). -/
structure LogRecord where
  command : Byte
  response : Code
  argument : Word
  crcExpected : Half
  crcActual : Half
  deriving DecidableEq, Repr

/-- A transport event (R40): what went out and what came in, or a control event. -/
inductive BusEvent where
  | xfer (out inp : Byte)
  | assertCS
  | deassertCS
  | setClock (rate : ClkMode)
  deriving DecidableEq, Repr

/-- The four fields of a response (R43). -/
structure Reply where
  result : Code
  flag : Bool
  records : List LogRecord
  drops : Word
  deriving DecidableEq, Repr

/-- A reply and the agent it goes to (R301). -/
structure Response where
  agent : Nat
  reply : Reply
  deriving DecidableEq, Repr

/-- The session registers (R21). -/
structure Session where
  state : SessionState
  faultCode : Code
  capClass : CapClass
  cardGen : CardGen
  clkMode : ClkMode
  deriving DecidableEq, Repr

/-- The working registers (R31), each at its width. -/
structure Work where
  idx : BitVec 6
  arg : Word
  frame : BitVec 48
  crc7 : BitVec 7
  echoBad : Bool
  r1 : Byte
  payload : Word
  crc16 : Half
  token : Byte
  poll : Word
  attempts : Word
  iter : Word
  budget : Word
  result : Code
  deriving DecidableEq, Repr

/-- The diagnostic log (R32): records oldest first, and the count of dropped records. -/
structure Log where
  records : List LogRecord
  drops : Word
  deriving DecidableEq, Repr

/-- Serialization and request port (R22, R36, R37, R42): `lock` holds the owner when held, `active` the request in
service, `requests` what is presented and not yet served (what needs the lock waits for it), `caller` the agent whose
item the port hands over. -/
structure Sync where
  lock : Option Nat
  active : Option Instr
  requests : List Presented
  caller : Nat
  deriving DecidableEq, Repr

/-- What the outside does to the block on its own: an agent presents a request (R42), the caller writes a buffer
byte (R382), the reset input is asserted (R370). -/
inductive Arrival where
  | request (p : Presented)
  | bufWrite (addr : Nat) (v : Byte)
  | reset
  deriving DecidableEq, Repr

/-- The environment as plain data: the card's next answers (R41), how many answers have been drawn, what arrives from
outside (after how many further events of the block), and the choices of the service order (R71). -/
structure Env where
  cardIn : List Byte
  drawn : Nat
  arrivals : List (Nat × Arrival)
  order : List Nat
  picks : Nat
  deriving DecidableEq, Repr

/-- A stretch of buffer addresses. -/
structure Region where
  base : Nat
  size : Nat
  deriving DecidableEq, Repr

/-- The machine. `trace` and `responses` hold the newest first. `noAccess` lists the stretches of the buffer address
space that the caller memory does not admit (R60). `params` is the configuration; no step writes it. -/
structure State where
  params : Params
  session : Session
  cs : Bool
  work : Work
  log : Log
  sync : Sync
  mem : List Host.Cell
  noAccess : List Region
  env : Env
  trace : List BusEvent
  responses : List Response
  deriving DecidableEq, Repr

/-- Why the machine stops. -/
inductive Fault where
  /-- Raised by `step` when the request in service waits on a buffer access the caller memory does not admit (R60,
  U9: stuck), nothing that needs no lock is presented and nothing more arrives: no step is possible. Safe. -/
  | bufferAccessStuck
  deriving DecidableEq, Repr

/-- What the model has no step for. -/
inductive Refusal where
  /-- An instruction without a meaning; no arm of exec answers it in this model. Safe. -/
  | notModelled (mnemonic : String)
  /-- Raised by `step` when the parameters break a constraint: R8 asks for it. Safe. -/
  | badConfiguration
  /-- Raised by the instructions with a buffer when its range leaves the address space: R60 and U10 ask for it. Safe. -/
  | bufferRange
  /-- Raised by `step` for a presented CMD18: R147 and U15 say that a model must not issue it. Safe. -/
  | neverIssued
  /-- Raised by `step` when the bytes presented are no frame of the command set (R91, R92). Safe. -/
  | notAFrame
  deriving DecidableEq, Repr

/-- The session registers after reset (R50). `cardGen` is unspecified there; MMC is a DESIGN CHOICE (log entry 2). -/
def Session.reset : Session := ⟨.uninitialized, 0, .standard, .mmc, .slow⟩

/-- The working registers after reset: R31 leaves them unspecified; 0 is a DESIGN CHOICE (log entry 2). -/
def Work.reset : Work := ⟨0, 0, 0, 0, false, 0, 0, 0, 0, 0, 0, 0, 0, 0⟩

/-- The machine right after reset (R50, R370): SetClock(F_SLOW) has been issued and no Xfer. The parameters are the
spec's test values (log entry 7). -/
def State.reset : State where
  params := Params.testValues
  session := Session.reset
  cs := false
  work := Work.reset
  log := ⟨[], 0⟩
  sync := ⟨none, none, [], 0⟩
  mem := []
  noAccess := []
  env := ⟨[], 0, [], [], 0⟩
  trace := [.setClock .slow]
  responses := []

end Sys2Proof.Machine
end

