-- ==== Sys2Proof/Machine/Flags.lean ====
section
/-!
DEFINITION. Every encoding of a register's value and every flag computation of the spec: register codes (R23 to R28),
error and result codes (R101, R168), the R1 flags and tests (R160, R161), the R7 and R3 checks (R164, R165) and the
token decodes (R166, R167).
-/

namespace Sys2Proof.Machine

/-- The 3-bit encoding of `STATE` (R23). -/
def SessionState.code : SessionState → BitVec 3
  | .uninitialized => 0
  | .probing => 1
  | .voltageCheck => 2
  | .idleWait => 3
  | .capacityCheck => 4
  | .configuring => 5
  | .ready => 6
  | .faulted => 7

/-- The 1-bit encoding of `CAP_CLASS` (R26). -/
def CapClass.code : CapClass → BitVec 1
  | .standard => 0
  | .high => 1

/-- The 2-bit encoding of `CARD_GEN` (R27). -/
def CardGen.code : CardGen → BitVec 2
  | .mmc => 0
  | .sdv1 => 1
  | .sdv2 => 2

/-- The 1-bit encoding of `CLK_MODE` (R28). -/
def ClkMode.code : ClkMode → BitVec 1
  | .slow => 0
  | .fast => 1

/-- The rate in Hz a SetClock event selects (R28, R40). -/
def ClkMode.rate (p : Params) : ClkMode → Nat
  | .slow => p.fSlow
  | .fast => p.fFast

/-- The `ready` output (R45). -/
def SessionState.isReady (s : SessionState) : Bool := s == .ready

/-- The result code of an error kind (R101, R330). -/
def ErrKind.code : ErrKind → Code
  | .transmissionInterrupted => -1
  | .checksumFailed => -2
  | .resetTimeout => -3
  | .idleWaitTimeout => -4
  | .unsupportedVoltage => -5
  | .voltageNotSupported => -6
  | .notReady => -7
  | .generic => -8

/-- `Code(r)` (R168): a status zero-extends, an error kind is its negative code. -/
def Result.code : Result → Code
  | .status b => b.setWidth 16
  | .err k => k.code

/-- The flags of a status byte (R94, R160). -/
structure R1Flags where
  idle : Bool
  eraseReset : Bool
  illegal : Bool
  crcError : Bool
  eraseSequence : Bool
  addressError : Bool
  parameterError : Bool
  start : Bool
  deriving DecidableEq, Repr

/-- `DecodeR1(b)` (R160). -/
def decodeR1 (b : Byte) : R1Flags where
  idle := b.getLsbD 0
  eraseReset := b.getLsbD 1
  illegal := b.getLsbD 2
  crcError := b.getLsbD 3
  eraseSequence := b.getLsbD 4
  addressError := b.getLsbD 5
  parameterError := b.getLsbD 6
  start := b.getLsbD 7

/-- `IsIdle(b)`: exactly 0x01 (R161). -/
def isIdleStatus (b : Byte) : Bool := b == 0x01#8

/-- `IsReady(b)`: exactly 0x00 (R161). -/
def isReadyStatus (b : Byte) : Bool := b == 0x00#8

/-- `Illegal(b)`: bit 2 (R161). -/
def illegal (b : Byte) : Bool := (decodeR1 b).illegal

/-- The result is a status with the illegal-command bit. -/
def Result.isIllegal : Result → Bool
  | .status b => illegal b
  | .err _ => false

/-- The R7 check: `PAYLOAD[11:0] = 0x1AA` (R164). -/
def echoMatches (payload : Word) : Bool := payload.extractLsb' 0 12 == 0x1AA#12

/-- `OCR_VOLTAGE_MASK` (R8). -/
def ocrVoltageMask : Word := 0x00FF8000#32

/-- `VoltageOK(o)` (R165). -/
def voltageOk (ocr : Word) : Bool := ocr &&& ocrVoltageMask != 0

/-- `CapacityBit(o)`: bit 30 (R165). -/
def capacityBit (ocr : Word) : Bool := ocr.getLsbD 30

/-- The capacity class an OCR selects for a non-MMC card (R165, R243). -/
def capClassOf (ocr : Word) : CapClass := if capacityBit ocr then .high else .standard

/-- `DATA_RESP_MASK` (R8). -/
def dataRespMask : Byte := 0x1F#8

/-- The data-start token (R96, R98). -/
def dataStartToken : Byte := 0xFE#8

/-- `WriteTokenResult(t)` (R166): none is `Ok`. -/
def writeTokenResult (t : Byte) : Option ErrKind :=
  if t &&& dataRespMask = 0x05#8 then none
  else if t &&& dataRespMask = 0x0B#8 then some .checksumFailed
  else some .generic

/-- What a byte polled for the data-start token means (R167). -/
inductive TokenPoll where
  | again | data | failed
  deriving DecidableEq, Repr

/-- The data-start token decode (R167). -/
def decodeToken (t : Byte) : TokenPoll :=
  if t = dataStartToken then .data else if t = idleByte then .again else .failed

end Sys2Proof.Machine
end

