-- ==== Sys2Proof/Machine/Crc.lean ====
section
/-!
DEFINITION. The data-block CRC-16 (R200): generator 0x1021, start 0, most significant bit first, no final exclusive or.
-/

namespace Sys2Proof.Machine

/-- One shift of the CRC-16 register (R200). -/
def crc16Shift (c : Half) : Half :=
  if c.getLsbD 15 then (c <<< 1) ^^^ 0x1021#16 else c <<< 1

/-- One byte of the CRC-16 register: the byte enters in bits 15:8, then eight shifts (R200). -/
def crc16Byte (c : Half) (b : Byte) : Half :=
  crc16Shift (crc16Shift (crc16Shift (crc16Shift (crc16Shift (crc16Shift (crc16Shift (crc16Shift
    (c ^^^ (b ++ 0x00#8)))))))))

/-- `CRC16(d)` (R200). -/
def crc16 (d : List Byte) : Half := d.foldl crc16Byte 0

/-- The high and the low byte of a CRC, in wire order (R66). -/
def crcBytes (c : Half) : List Byte := [c.extractLsb' 8 8, c.extractLsb' 0 8]

end Sys2Proof.Machine
end

