-- ==== Sys2Proof/Decode.lean ====
section
/-!
DEFINITION. CRC-7 (R130), the frame encoder (R132), the decoder of port items (R300 for requests, R92 for frames)
and, after it, the encoder of instructions. The opcode table's own bit numbering is read by `decodeTableWord`.
-/

namespace Sys2Proof

/-- One bit of the CRC-7 register (R130): shift left dropping bit 7, and add x^3 + 1 on feedback. -/
def crc7Bit (c : BitVec 7) (b : Bool) : BitVec 7 :=
  if c.getLsbD 6 ^^ b then (c <<< 1) ^^^ 0b0001001#7 else c <<< 1

/-- The eight bits of a byte, most significant first: their order on the wire (R64). -/
def wireBits (b : Byte) : List Bool :=
  [b.getLsbD 7, b.getLsbD 6, b.getLsbD 5, b.getLsbD 4, b.getLsbD 3, b.getLsbD 2, b.getLsbD 1, b.getLsbD 0]

/-- One byte of the CRC-7 register, most significant bit first (R130). -/
def crc7Byte (c : BitVec 7) (b : Byte) : BitVec 7 :=
  (wireBits b).foldl crc7Bit c

/-- `CRC7(bytes)`: generator x^7 + x^3 + 1, start 0, no final exclusive or (R130). -/
def crc7 (d : List Byte) : BitVec 7 :=
  d.foldl crc7Byte 0

/-- Byte 0 of a frame: start bit 0, transmission bit 1, index (R90). -/
def frameHead (idx : BitVec 6) : Byte := 0b01#2 ++ idx

/-- The argument's four bytes, big-endian (R63). -/
def argBytes (arg : Word) : List Byte :=
  [arg.extractLsb' 24 8, arg.extractLsb' 16 8, arg.extractLsb' 8 8, arg.extractLsb' 0 8]

/-- Four bytes as a word, the first the most significant (R63, R65). -/
def wordOfBytes (b3 b2 b1 b0 : Byte) : Word := b3 ++ b2 ++ b1 ++ b0

/-- The CRC-7 a frame carries: that of its first five bytes (R90). -/
def frameCrc (idx : BitVec 6) (arg : Word) : BitVec 7 :=
  crc7 (frameHead idx :: argBytes arg)

/-- `EncodeFrame(idx, arg)` (R132): the 48 bits of R90. -/
def encodeFrame (idx : BitVec 6) (arg : Word) : BitVec 48 :=
  frameHead idx ++ arg ++ (frameCrc idx arg ++ 1#1)

/-- Byte k of a frame is `FRAME[47-8k : 40-8k]`, sent k-th (R132). -/
def frameBytes (f : BitVec 48) : List Byte :=
  [f.extractLsb' 40 8, f.extractLsb' 32 8, f.extractLsb' 24 8, f.extractLsb' 16 8, f.extractLsb' 8 8,
   f.extractLsb' 0 8]

/-- The six bytes of the frame for a command and its argument. -/
def commandBytes (idx : BitVec 6) (arg : Word) : List Byte :=
  frameBytes (encodeFrame idx arg)

/-- The argument of CMD8: supply-voltage code 0b0001 and check pattern 0xAA (R93). -/
def cmd8Argument : Word := 0x000001AA#32

/-- The argument of CMD16: 512 bytes (R92). -/
def cmd16Argument : Word := 0x00000200#32

/-- The argument of CMD59: CRC on (R92). -/
def cmd59Argument : Word := 0x00000001#32

/-- The argument of ACMD41: `zext_32(HCS) << 30` (R93). -/
def acmd41Argument (hcs : Bool) : Word := (BitVec.ofBool hcs).setWidth 32 <<< 30

/-- Why bytes are no frame of the command set. -/
inductive DecodeError where
  /-- Not six bytes. -/
  | badLength
  /-- Bits 47:46 are not 0b01 (R90). -/
  | badFraming
  /-- The end bit is 0 (R90). -/
  | badEndBit
  /-- The index is none of the eleven of R92. -/
  | unknownCommand
  /-- The argument is not the fixed one of R92. -/
  | badArgument
  /-- The CRC-7 field of a fixed frame is not its CRC-7 (R90). -/
  | badChecksum
  deriving DecidableEq, Repr

/-- A row with a fixed argument: the whole frame is fixed (R92, the table's mask of 48 ones). -/
def fixedFrame (idx : BitVec 6) (fixed : Word) (i : Instr) (arg : Word) (crc : BitVec 7) : Except DecodeError Instr :=
  if arg ≠ fixed then .error .badArgument
  else if crc ≠ frameCrc idx fixed then .error .badChecksum
  else .ok i

/-- The row of the command set by index (R92). For CMD17, CMD18 and CMD24 the table's mask leaves the CRC-7 field
out, so it is no operand and is not tested (log entry 9). -/
def frameRow (idx : BitVec 6) (arg : Word) (crc : BitVec 7) (buf : Nat) : Except DecodeError Instr :=
  if idx = 0 then fixedFrame 0 0 .cmd0 arg crc
  else if idx = 1 then fixedFrame 1 0 .cmd1 arg crc
  else if idx = 8 then fixedFrame 8 cmd8Argument .cmd8 arg crc
  else if idx = 16 then fixedFrame 16 cmd16Argument .cmd16 arg crc
  else if idx = 17 then .ok (.cmd17 arg buf)
  else if idx = 18 then .ok (.cmd18 arg buf)
  else if idx = 24 then .ok (.cmd24 arg buf)
  else if idx = 41 then
    if arg = acmd41Argument true then fixedFrame 41 (acmd41Argument true) .acmd41Hcs1 arg crc
    else fixedFrame 41 (acmd41Argument false) .acmd41Hcs0 arg crc
  else if idx = 55 then fixedFrame 55 0 .cmd55 arg crc
  else if idx = 58 then fixedFrame 58 0 .cmd58 arg crc
  else if idx = 59 then fixedFrame 59 cmd59Argument .cmd59 arg crc
  else .error .unknownCommand

/-- The decoder of frame bytes in wire order, total on any bytes, rejecting by name (R90, R92). -/
def decodeFrame (bytes : List Byte) (buf : Nat) : Except DecodeError Instr :=
  match bytes with
  | [b0, b1, b2, b3, b4, b5] =>
    if b0.extractLsb' 6 2 ≠ 0b01#2 then .error .badFraming
    else if b5.getLsbD 0 = false then .error .badEndBit
    else frameRow (b0.extractLsb' 0 6) (wordOfBytes b1 b2 b3 b4) (b5.extractLsb' 1 7) buf
  | _ => .error .badLength

/-- `Serve(req)`'s decode of `op`, total on its 16 values (R300, R102). Fields an operation does not use are
ignored (R42). -/
def decodeRequest (r : Request) : Instr :=
  match r.op.toNat with
  | 0 => .initSession
  | 1 => .startup
  | 2 => .isReady
  | 3 => .readSector r.buf r.sector
  | 4 => .readRange r.buf r.sector r.count
  | 5 => .writeSector r.buf r.sector
  | 6 => .writeRange r.buf r.sector r.count
  | 7 => .dumpDiagnostics
  | 8 => .clearDiagnostics
  | 9 => .reserved9
  | 10 => .reservedA
  | 11 => .reservedB
  | 12 => .reservedC
  | 13 => .reservedD
  | 14 => .reservedE
  | _ => .reservedF

/-- The decoder of port items. -/
def decode : PortItem → Except DecodeError Instr
  | .request r => .ok (decodeRequest r)
  | .frame bytes buf => decodeFrame bytes buf

/-- A request that uses no operand field (R42: unused fields 0). -/
def plainRequest (op : BitVec 4) : PortItem := .request ⟨op, 0, 0, 0⟩

/-- A frame row whose data phase, if any, is not used. -/
def plainFrame (idx : BitVec 6) (arg : Word) : PortItem := .frame (commandBytes idx arg) 0

/-- The encoder: the port item of an instruction (R92, R100). -/
def encode : Instr → PortItem
  | .cmd0 => plainFrame 0 0
  | .cmd1 => plainFrame 1 0
  | .cmd8 => plainFrame 8 cmd8Argument
  | .cmd16 => plainFrame 16 cmd16Argument
  | .cmd17 addr buf => .frame (commandBytes 17 addr) buf
  | .cmd18 addr buf => .frame (commandBytes 18 addr) buf
  | .cmd24 addr buf => .frame (commandBytes 24 addr) buf
  | .cmd55 => plainFrame 55 0
  | .acmd41Hcs1 => plainFrame 41 (acmd41Argument true)
  | .acmd41Hcs0 => plainFrame 41 (acmd41Argument false)
  | .cmd58 => plainFrame 58 0
  | .cmd59 => plainFrame 59 cmd59Argument
  | .initSession => plainRequest 0
  | .startup => plainRequest 1
  | .isReady => plainRequest 2
  | .readSector buf sector => .request ⟨3, buf, sector, 0⟩
  | .readRange buf sector count => .request ⟨4, buf, sector, count⟩
  | .writeSector buf sector => .request ⟨5, buf, sector, 0⟩
  | .writeRange buf sector count => .request ⟨6, buf, sector, count⟩
  | .dumpDiagnostics => plainRequest 7
  | .clearDiagnostics => plainRequest 8
  | .reserved9 => plainRequest 9
  | .reservedA => plainRequest 10
  | .reservedB => plainRequest 11
  | .reservedC => plainRequest 12
  | .reservedD => plainRequest 13
  | .reservedE => plainRequest 14
  | .reservedF => plainRequest 15

/-- The CRC-7 field of six frame bytes is the CRC-7 of the five bytes before it (R90). -/
def frameCrcOk (bytes : List Byte) : Bool :=
  match bytes with
  | [b0, b1, b2, b3, b4, b5] => b5.extractLsb' 1 7 == crc7 [b0, b1, b2, b3, b4]
  | _ => false

/-- The operand fields of a request that its operation does not use are 0 (R42, R100). -/
def unusedFieldsZero (r : Request) : Bool :=
  match r.op.toNat with
  | 3 => r.count == 0
  | 4 => true
  | 5 => r.count == 0
  | 6 => true
  | _ => r.buf == 0 && r.sector == 0 && r.count == 0

/-- A frame of the command set has a data phase, so its buffer base is an operand (R144, R145, R147). -/
def usesBuffer (bytes : List Byte) : Bool :=
  match bytes with
  | b0 :: _ => b0 == frameHead 17 || b0 == frameHead 18 || b0 == frameHead 24
  | [] => false

/-- Port items that carry nothing an instruction does not: the CRC-7 is right and unused fields are 0. -/
def PortItem.canonical : PortItem → Bool
  | .request r => unusedFieldsZero r
  | .frame bytes buf => frameCrcOk bytes && (usesBuffer bytes || buf == 0)

/-- The port item of a word in the opcode table's numbering: a 48-bit frame (bit 47 sent first, R90) with buffer
base 0, or a request whose `op` is the low four bits and whose operand fields are 0. -/
def tableItem (nbits w : Nat) : Option PortItem :=
  if nbits = 48 then some (.frame (frameBytes (BitVec.ofNat 48 w)) 0)
  else if nbits = 8 ∨ nbits = 4 then some (plainRequest (BitVec.ofNat 4 w))
  else none

/-- The instruction the decoder reads from a word of the opcode table. -/
def decodeTableWord (nbits w : Nat) : Option Instr :=
  match tableItem nbits w with
  | some item => (decode item).toOption
  | none => none

end Sys2Proof
end

