-- ==== Sys2Proof/WellFormed.lean ====
section
/-!
DEFINITION. The two checks the spec asks of a model before a step: the constraints on the parameters (R8, U20) and
the range of a sector request inside the caller-buffer address space (R60, U10).
-/

namespace Sys2Proof

/-- The constraint column of 00_scope.md section 4 (R8). -/
def Params.ok (p : Params) : Bool :=
  decide (10 ≤ p.nPowerup) && decide (1 ≤ p.nResetAttempts) && decide (1 ≤ p.nIdleWait) &&
  decide (1 ≤ p.nReadyPoll) && decide (1 ≤ p.nRespPoll) && decide (1 ≤ p.nTokenPoll) &&
  decide (1 ≤ p.nBusyPoll) && decide (1 ≤ p.writeBudget) && (!p.logEnabled || decide (1 ≤ p.logCap)) &&
  decide (p.fSlow ≤ 400000) && decide (0 < p.fFast) && decide (10 ≤ p.bufAddrW)

/-- `buf` is an address of the 2^w-byte space and `[buf, buf + 512 * n)` does not pass its end (R60). -/
def bufferInRange (w buf n : Nat) : Bool :=
  decide (buf < 2 ^ w) && decide (buf + 512 * n ≤ 2 ^ w)

/-- An instruction is well formed for the address width `w` when its buffer, if it has one, is in range. -/
def Instr.wellFormed (w : Nat) : Instr → Bool
  | .cmd17 _ buf => bufferInRange w buf 1
  | .cmd18 _ buf => bufferInRange w buf 1
  | .cmd24 _ buf => bufferInRange w buf 1
  | .readSector buf _ => bufferInRange w buf 1
  | .readRange buf _ count => bufferInRange w buf count.toNat
  | .writeSector buf _ => bufferInRange w buf 1
  | .writeRange buf _ count => bufferInRange w buf count.toNat
  | .cmd0 | .cmd1 | .cmd8 | .cmd16 | .cmd55 | .acmd41Hcs1 | .acmd41Hcs0 | .cmd58 | .cmd59
  | .initSession | .startup | .isReady | .dumpDiagnostics | .clearDiagnostics
  | .reserved9 | .reservedA | .reservedB | .reservedC | .reservedD | .reservedE | .reservedF => true

end Sys2Proof
end

