-- ==== Sys2Proof/Machine/Operands.lean ====
section
/-!
DEFINITION. Operand forms: the sector address translation (R190), the stepping of range requests (R193), and the
HCS operand of ACMD41 (R93).
-/

namespace Sys2Proof.Machine

/-- Bytes per sector and per data block (`SECTOR_SIZE`, R8). -/
def sectorSize : Nat := 512

/-- `Translate(s)` (R190): a byte offset mod 2^32 for a standard-capacity card, the sector itself for a
high-capacity card. -/
def translateSector (c : CapClass) (s : Word) : Word :=
  match c with
  | .standard => s <<< 9
  | .high => s

/-- The next sector of a range, mod 2^32 (R193). -/
def nextSector (s : Word) : Word := s + 1

/-- The next buffer address of a range (R193). -/
def nextBuffer (buf : Nat) : Nat := buf + sectorSize

/-- `HCS` is 1 exactly for an SD v2 card (R93, R238). -/
def hcsOf (g : CardGen) : Bool := g == .sdv2

end Sys2Proof.Machine
end

