-- ==== Sys2Proof/Machine/Ops.lean ====
section
/-!
DEFINITION. The named operations over the state: runs and how they chain, the caller-buffer memory (R60), what the
environment does between two events (R41, R42, R370, R382), the four transport events (R40), the lock and the
response port (R36, R43, R70), the diagnostic log (R34), entering and leaving the fault state (R246, R302), the reset
input (R370), and the choice of what is served next (R71).
-/

namespace Sys2Proof.Machine

open Sys2Proof

/-! ### Runs -/

/-- What a piece of a request's work ends in: `done` with a value, or `halt`: the request makes no further step,
because reset was asserted (R370) or because it is stuck on a buffer access (R60). -/
inductive Ran (α : Type) where
  | done (a : α) (s : State)
  | halt (s : State)
  deriving Repr

/-- Go on with `f` after a piece of work that was not halted. -/
def Ran.andThen {α β : Type} (r : Ran α) (f : α → State → Ran β) : Ran β :=
  match r with
  | .done a s => f a s
  | .halt s => .halt s

/-- The state a run ends in. -/
def Ran.final {α : Type} : Ran α → State
  | .done _ s => s
  | .halt s => s

/-! ### Caller-buffer memory (R60) -/

/-- What a byte nothing has written reads as: DESIGN CHOICE (log entry 3). -/
def unwrittenByte : Byte := 0x00#8

/-- Read one byte. -/
def memRead : List Host.Cell → Nat → Byte
  | [], _ => unwrittenByte
  | (k, v) :: m, a => if k = a then v else memRead m a

/-- Write one byte, keeping addresses strictly rising and no cell equal to an unwritten byte. -/
def memWrite : List Host.Cell → Nat → Byte → List Host.Cell
  | [], a, v => if v = unwrittenByte then [] else [(a, v)]
  | (k, w) :: m, a, v =>
    if a < k then (if v = unwrittenByte then (k, w) :: m else (a, v) :: (k, w) :: m)
    else if a = k then (if v = unwrittenByte then m else (a, v) :: m)
    else (k, w) :: memWrite m a v

/-- The canonical form of memory. -/
def memWf : List Host.Cell → Bool
  | [] => true
  | [(_, v)] => v != unwrittenByte
  | (k, v) :: (k', w) :: m => v != unwrittenByte && decide (k < k') && memWf ((k', w) :: m)

/-- The caller memory admits an access to this address (R60): inside the address space, in no stretch of
`noAccess`. -/
def admits (s : State) (a : Nat) : Bool :=
  decide (a < 2 ^ s.params.bufAddrW) && s.noAccess.all (fun r => !(decide (r.base ≤ a) && decide (a < r.base + r.size)))

/-! ### Ports, lock, log, reset -/

/-- Deliver a response (R43). -/
def respond (agent : Nat) (r : Reply) (s : State) : State :=
  { s with responses := ⟨agent, r⟩ :: s.responses }

/-- A reply that carries only a result code (R43: unused fields are 0 or empty). -/
def resultReply (c : Code) : Reply := ⟨c, false, [], 0⟩

/-- The reply of IS_READY (R304): the `ready` output, read without the lock. -/
def readyReply (s : State) : Reply := ⟨0, s.session.state.isReady, [], 0⟩

/-- The reply to a reserved request code (R102). -/
def reservedReply : Reply := resultReply ErrKind.generic.code

/-- The reply of a port item that takes no lock: IS_READY and the reserved codes (R70, R102, R304). -/
def unlockedReply (item : PortItem) (s : State) : Option Reply :=
  match item with
  | .request r =>
    if r.op = 2 then some (readyReply s) else if 9 ≤ r.op.toNat then some reservedReply else none
  | .frame _ _ => none

/-- The port item takes no lock. -/
def needsNoLock (item : PortItem) : Bool :=
  match item with
  | .request r => decide (r.op = 2) || decide (9 ≤ r.op.toNat)
  | .frame _ _ => false

/-- `Acquire()` on a free lock: the caller becomes the owner and `i` the active request (R36, R22). -/
def acquire (i : Instr) (s : State) : State :=
  { s with sync.lock := some s.sync.caller, sync.active := some i }

/-- `Release()` (R36). -/
def release (s : State) : State :=
  { s with sync.lock := none, sync.active := none }

/-- A request that needs a held lock joins those waiting for it (R37, R71). -/
def waitForLock (i : Instr) (s : State) : State :=
  { s with sync.requests := s.sync.requests ++ [⟨s.sync.caller, encode i⟩] }

/-- The append of R34: the earliest `LOG_CAP` records are kept, later ones counted, the count saturates. -/
def logAppend (r : LogRecord) (s : State) : State :=
  if s.params.logEnabled then
    if s.log.records.length < s.params.logCap then { s with log.records := s.log.records ++ [r] }
    else if s.log.drops < 0xFFFFFFFF#32 then { s with log.drops := s.log.drops + 1 }
    else s
  else s

/-- Empty the log and its counter (R305, R306). -/
def logClear (s : State) : State :=
  { s with log := ⟨[], 0⟩ }

/-- The reset input (R370, R50): every register at its reset value, the request in service and the waiting requests
abandoned without a response, one SetClock(F_SLOW) and no Xfer. Bus, buffer and response effects so far stand (U22). -/
def assertReset (s : State) : State :=
  { s with
    session := Session.reset
    cs := false
    work := Work.reset
    log := ⟨[], 0⟩
    sync := ⟨none, none, [], 0⟩
    trace := .setClock .slow :: s.trace }

/-! ### The fault state: entry and return -/

/-- `Fault(k, r)` (R246): enter `Faulted` with the error's code and append one record of the last transaction
started. The release and the response are the request's (R340). -/
def takeFault (k : ErrKind) (r : Result) (s : State) : State :=
  logAppend ⟨s.work.idx.setWidth 8, r.code, s.work.arg, 0, 0⟩
    { s with session.state := .faulted, session.faultCode := k.code }

/-- The session registers as INITIALIZE leaves them (R302): the only return from `Faulted`. `CARD_GEN` stays. -/
def clearSession (s : State) : State :=
  { s with session := ⟨.uninitialized, 0, .standard, s.session.cardGen, .slow⟩ }

/-! ### The environment between two events -/

/-- The agent has a request waiting or in service. Its call blocks until the response, so that it presents no other
(R301). -/
def outstanding (agent : Nat) (s : State) : Bool :=
  s.sync.lock == some agent || s.sync.requests.any (fun p => p.agent == agent)

/-- An agent presents an item, which waits; an agent with a request outstanding cannot (R301). -/
def present (p : Presented) (s : State) : State :=
  if outstanding p.agent s then s else { s with sync.requests := s.sync.requests ++ [p] }

/-- An agent presents an item while the block works: one that needs no lock is answered at once, any other waits; an
agent with a request outstanding cannot present one (R301). DESIGN CHOICE (log entry 5), safe: a reserved code is
answered inside another request as IS_READY is, by R102's "at once", although R342 names IS_READY alone. -/
def receive (p : Presented) (s : State) : State :=
  match unlockedReply p.item s with
  | some r => if outstanding p.agent s then s else respond p.agent r s
  | none => present p s

/-- The caller's own write to buffer memory (R73, R382), inside the address space. -/
def callerWrite (a : Nat) (v : Byte) (s : State) : State :=
  if a < 2 ^ s.params.bufAddrW then { s with mem := memWrite s.mem a v } else s

/-- What has come due lands, in order; a delay counts events of the block. A reset ends the request (R370). -/
def landDue : List (Nat × Arrival) → State → Ran Unit
  | [], s => .done () { s with env.arrivals := [] }
  | (n + 1, a) :: rest, s => .done () { s with env.arrivals := (n, a) :: rest }
  | (0, .request p) :: rest, s => landDue rest (receive p s)
  | (0, .bufWrite a v) :: rest, s => landDue rest (callerWrite a v s)
  | (0, .reset) :: rest, s => .halt (assertReset { s with env.arrivals := rest })

/-- The moment before an event of the block (a transport event, a buffer access, the release of the lock). -/
def tick (s : State) : Ran Unit := landDue s.env.arrivals s

/-- The card's next answer (R41): the next listed byte, then a free value. -/
def drawByte (s : State) : Byte × State :=
  match s.env.cardIn with
  | b :: rest => (b, { s with env.cardIn := rest, env.drawn := s.env.drawn + 1 })
  | [] => (Config.cardByte s.env.drawn, { s with env.drawn := s.env.drawn + 1 })

/-! ### Transport and buffer events (R40, R44) -/

/-- Record a transport event. -/
def record (e : BusEvent) (s : State) : State :=
  { s with trace := e :: s.trace }

/-- `Xfer(out)`: one byte out, the card's answer in. -/
def xfer (out : Byte) (s : State) : Ran Byte :=
  (tick s).andThen fun _ s => .done (drawByte s).1 (record (.xfer out (drawByte s).1) (drawByte s).2)

/-- `AssertCS()` (R29). -/
def assertCS (s : State) : Ran Unit :=
  (tick s).andThen fun _ s => .done () (record .assertCS { s with cs := true })

/-- `DeassertCS()` (R29). -/
def deassertCS (s : State) : Ran Unit :=
  (tick s).andThen fun _ s => .done () (record .deassertCS { s with cs := false })

/-- `CLK_MODE <- m ; SetClock(rate of m)`: the register never changes without the event (R28). -/
def setClock (m : ClkMode) (s : State) : Ran Unit :=
  (tick s).andThen fun _ s => .done () (record (.setClock m) { s with session.clkMode := m })

/-- `MemRead(addr, 1)`; an access not admitted leaves the request stuck (R60). -/
def bufRead (a : Nat) (s : State) : Ran Byte :=
  (tick s).andThen fun _ s => if admits s a then .done (memRead s.mem a) s else .halt s

/-- `MemWrite(addr, 1, v)`; an access not admitted leaves the request stuck (R60). -/
def bufWrite (a : Nat) (v : Byte) (s : State) : Ran Unit :=
  (tick s).andThen fun _ s => if admits s a then .done () { s with mem := memWrite s.mem a v } else .halt s

/-! ### Serving -/

/-- The end of a request: `Release()`, then its one response (R301). -/
def completeRequest (r : Reply) (s : State) : Ran Unit :=
  (tick s).andThen fun _ s =>
    .done () (respond s.sync.caller r (release { s with work.result := r.result }))

/-- The end of a frame run by itself: the lock is freed, the result stays in `RESULT`, and no response is due, since
no request was made (log entry 8). -/
def completeFrame (r : Result) (s : State) : Ran Unit :=
  (tick s).andThen fun _ s => .done () (release { s with work.result := r.code })

/-- One critical section (R70): acquire, run the body, end. With the lock held by another request it waits (R71). -/
def underLock (i : Instr) (work : State → Ran Unit) (s : State) : Host.Outcome State Fault Refusal :=
  match s.sync.lock with
  | some _ => .next (waitForLock i s)
  | none => .next (work (acquire i s)).final

/-- A host request whose whole run is one critical section. -/
def serveRequest (i : Instr) (body : State → Ran Reply) (s : State) : Host.Outcome State Fault Refusal :=
  underLock i (fun s => (body s).andThen completeRequest) s

/-- A frame run by itself as one critical section (R70: "one complete command transaction"). -/
def serveFrame (i : Instr) (body : State → Ran Result) (s : State) : Host.Outcome State Fault Refusal :=
  underLock i (fun s => (body s).andThen completeFrame) s

/-- A buffer range outside the address space is outside the domain: refused (R60, U10). -/
def withBuffer (buf n : Nat) (run : State → Host.Outcome State Fault Refusal) (s : State) :
    Host.Outcome State Fault Refusal :=
  if bufferInRange s.params.bufAddrW buf n then run s else .refused .bufferRange

/-! ### What is served next (R37, R71) -/

/-- The presented items that can be served now: all while the lock is free, else those that need no lock. -/
def servable (s : State) : List Presented :=
  match s.sync.lock with
  | none => s.sync.requests
  | some _ => s.sync.requests.filter (fun p => needsNoLock p.item)

/-- How many actions are possible: serving one of the servable items, or the next arrival. -/
def choiceCount (s : State) : Nat :=
  (servable s).length + (if s.env.arrivals.isEmpty then 0 else 1)

/-- The choice among `n` possible actions: listed in `env.order`, else free where there is more than one. -/
def pick (n : Nat) (s : State) : Nat × State :=
  match s.env.order with
  | k :: rest => (k % n, { s with env.order := rest })
  | [] => if n ≤ 1 then (0, s) else (Config.pick s.env.picks % n, { s with env.picks := s.env.picks + 1 })

/-- The next arrival lands between two requests. DESIGN CHOICE (log entry 5), safe: a request that lands here joins the
waiting ones whatever its `op`, so that another may be served before it: R102's "at once" is read as without the lock
and within one step, and what is served first is open (R71). -/
def arriveNext (s : State) : State :=
  match s.env.arrivals with
  | [] => s
  | (_, .request p) :: rest => present p { s with env.arrivals := rest }
  | (_, .bufWrite a v) :: rest => callerWrite a v { s with env.arrivals := rest }
  | (_, .reset) :: rest => assertReset { s with env.arrivals := rest }

/-- The port hands over a presented item: it leaves the waiting list and its agent becomes the caller. -/
def handOver (p : Presented) (s : State) : State :=
  { s with sync.requests := s.sync.requests.erase p, sync.caller := p.agent }

/-- What the machine does next. -/
inductive Choice where
  /-- Serve this item in this state. -/
  | serve (p : Presented) (s : State)
  /-- An arrival landed. -/
  | arrived (s : State)
  /-- Nothing is presented and nothing arrives: the block waits (R371). -/
  | idle
  /-- The request in service is stuck (R60) and nothing else can happen. -/
  | stuck
  deriving Repr

/-- The choice of the next action; every order is a possible one (R71). -/
def nextChoice (s : State) : Choice :=
  if choiceCount s = 0 then (if s.sync.lock.isSome then .stuck else .idle)
  else match (servable s)[(pick (choiceCount s) s).1]? with
    | some p => .serve p (handOver p (pick (choiceCount s) s).2)
    | none => .arrived (arriveNext (pick (choiceCount s) s).2)

end Sys2Proof.Machine
end

