-- ==== Sys2Proof/Machine/Transaction.lean ====
section
/-!
DEFINITION. The command transaction (R134 to R139), the application command (R138), the read data phase (R202 to
R204) and the write data phase (R207, R208).
-/

namespace Sys2Proof.Machine

open Sys2Proof

/-! ### The command transaction -/

/-- The loop of WaitIdle with `n` polls left; no error when the bus was seen idle (R134). -/
def waitIdleLoop : Nat → State → Ran (Option ErrKind)
  | 0, s => .done (some .generic) s
  | n + 1, s =>
    (xfer idleByte s).andThen fun b s =>
      if b = idleByte then .done none s
      else waitIdleLoop n { s with work.poll := BitVec.ofNat 32 n }

/-- `WaitIdle()` (R134). -/
def waitIdle (s : State) : Ran (Option ErrKind) :=
  waitIdleLoop s.params.nReadyPoll { s with work.poll := BitVec.ofNat 32 s.params.nReadyPoll }

/-- Frame bytes out, in order; a read-back other than 0xFF is remembered in `ECHO_BAD` (R135). -/
def sendBytes : List Byte → State → Ran Unit
  | [], s => .done () s
  | b :: rest, s =>
    (xfer b s).andThen fun v s =>
      sendBytes rest (if v = idleByte then s else { s with work.echoBad := true })

/-- `EncodeFrame` with the registers it writes (R132). -/
def loadFrame (idx : BitVec 6) (arg : Word) (s : State) : State :=
  { s with work.frame := encodeFrame idx arg, work.crc7 := frameCrc idx arg, work.echoBad := false }

/-- `SendFrame(EncodeFrame(idx, arg))`: all six bytes are sent, then the echo is judged (R135). -/
def sendFrame (idx : BitVec 6) (arg : Word) (s : State) : Ran (Option ErrKind) :=
  (sendBytes (commandBytes idx arg) (loadFrame idx arg s)).andThen fun _ s =>
    .done (if s.work.echoBad then some .transmissionInterrupted else none) s

/-- The response poll of R136 with `n` polls left: the first byte other than 0xFF is R1. -/
def pollLoop : Nat → State → Ran Result
  | 0, s => .done (.err .generic) s
  | n + 1, s =>
    (xfer idleByte s).andThen fun b s =>
      if b = idleByte then pollLoop n { s with work.poll := BitVec.ofNat 32 n }
      else .done (.status b) { s with work.r1 := b }

/-- The response poll of R136. -/
def pollResponse (s : State) : Ran Result :=
  pollLoop s.params.nRespPoll { s with work.poll := BitVec.ofNat 32 s.params.nRespPoll }

/-- `CmdBegin(idx, arg)` (R136): `IDX` and `ARG` are latched first; `CS` stays asserted on every path. -/
def cmdBegin (idx : BitVec 6) (arg : Word) (s : State) : Ran Result :=
  (assertCS { s with work.idx := idx, work.arg := arg }).andThen fun _ s =>
  (waitIdle s).andThen fun e s =>
    match e with
    | some k => .done (.err k) s
    | none =>
      (sendFrame idx arg s).andThen fun e s =>
        match e with
        | some k => .done (.err k) s
        | none => pollResponse s

/-- `CmdEnd()` (R137): deselect and one trailing byte, its answer discarded. -/
def cmdEnd (s : State) : Ran Unit :=
  (deassertCS s).andThen fun _ s => (xfer idleByte s).andThen fun _ s => .done () s

/-- `ReadPayload32()` into `PAYLOAD` (R163). -/
def readPayload (s : State) : Ran Unit :=
  (xfer idleByte s).andThen fun p3 s =>
  (xfer idleByte s).andThen fun p2 s =>
  (xfer idleByte s).andThen fun p1 s =>
  (xfer idleByte s).andThen fun p0 s =>
    .done () { s with work.payload := wordOfBytes p3 p2 p1 p0 }

/-- The response has four bytes after R1: index 8 or 58 and the illegal bit clear (R95, R104). -/
def hasPayload (idx : BitVec 6) (r : Result) : Bool :=
  match r with
  | .status b => (idx == 8 || idx == 58) && !illegal b
  | .err _ => false

/-- `Command(idx, arg)` (R139): one transaction without a data phase. -/
def command (idx : BitVec 6) (arg : Word) (s : State) : Ran Result :=
  (cmdBegin idx arg s).andThen fun r s =>
  (if hasPayload idx r then readPayload s else .done () s).andThen fun _ s =>
  (cmdEnd s).andThen fun _ s => .done r s

/-- The first frame's result lets the second frame go: a status without the illegal bit (R138). -/
def announced (p : Result) : Bool :=
  match p with
  | .status b => !illegal b
  | .err _ => false

/-- `AppCommand(idx, arg)` (R138): CMD55, then the target frame. -/
def appCommand (idx : BitVec 6) (arg : Word) (s : State) : Ran Result :=
  (command 55 0 s).andThen fun p s =>
    if announced p then command idx arg s else .done p s

/-! ### The read data phase -/

/-- The token poll of R202 with `n` polls left; no error when the data-start token came. -/
def tokenLoop : Nat → State → Ran (Option ErrKind)
  | 0, s => .done (some .generic) s
  | n + 1, s =>
    (xfer idleByte s).andThen fun t s =>
      match decodeToken t with
      | .data => .done none { s with work.token := t }
      | .failed => .done (some .generic) { s with work.token := t }
      | .again => tokenLoop n { s with work.token := t, work.poll := BitVec.ofNat 32 n }

/-- `WaitDataToken()` (R202). -/
def waitDataToken (s : State) : Ran (Option ErrKind) :=
  tokenLoop s.params.nTokenPoll { s with work.poll := BitVec.ofNat 32 s.params.nTokenPoll }

/-- `n` payload bytes in, each written to the buffer as it comes, with the running CRC (R203, R72). -/
def receiveBytes : Nat → Nat → Half → State → Ran Half
  | 0, _, c, s => .done c s
  | n + 1, a, c, s =>
    (xfer idleByte s).andThen fun v s =>
    (bufWrite a v s).andThen fun _ s => receiveBytes n (a + 1) (crc16Byte c v) s

/-- `ReceiveBlock(buf)` (R203): the bytes are in the buffer before the CRC is judged. -/
def receiveBlock (buf : Nat) (s : State) : Ran (Option ErrKind) :=
  (receiveBytes sectorSize buf 0 s).andThen fun c s =>
  (xfer idleByte s).andThen fun hi s =>
  (xfer idleByte s).andThen fun lo s =>
    .done (if hi ++ lo = c then none else some .checksumFailed) { s with work.crc16 := hi ++ lo }

/-- A sub-procedure's outcome as a command result: success is `Status(0x00)` (R204, R207). -/
def phaseResult (e : Option ErrKind) : Result :=
  match e with
  | none => .status 0x00#8
  | some k => .err k

/-- `ReadDataBlock(buf)` (R204). -/
def readDataBlock (buf : Nat) (s : State) : Ran Result :=
  (waitDataToken s).andThen fun e s =>
    match e with
    | some k => .done (.err k) s
    | none => (receiveBlock buf s).andThen fun e s => .done (phaseResult e) s

/-- A block-read transaction (R144, R147): the data phase follows only `Status(0x00)` (R169). -/
def blockRead (idx : BitVec 6) (addr : Word) (buf : Nat) (s : State) : Ran Result :=
  (cmdBegin idx addr s).andThen fun r s =>
  (if r = .status 0x00#8 then readDataBlock buf s else .done r s).andThen fun r s =>
  (cmdEnd s).andThen fun _ s => .done r s

/-! ### The write data phase -/

/-- `n` payload bytes out of the buffer, their read-back discarded, with the running CRC (R207, R72). -/
def sendPayload : Nat → Nat → Half → State → Ran Half
  | 0, _, c, s => .done c s
  | n + 1, a, c, s =>
    (bufRead a s).andThen fun v s =>
    (xfer v s).andThen fun _ s => sendPayload n (a + 1) (crc16Byte c v) s

/-- The loop of WaitNotBusy with `n` polls left (R208). -/
def busyLoop : Nat → State → Ran Bool
  | 0, s => .done false s
  | n + 1, s =>
    (xfer idleByte s).andThen fun b s =>
      if b = idleByte then .done true s
      else busyLoop n { s with work.poll := BitVec.ofNat 32 n }

/-- `WaitNotBusy()` (R208). -/
def waitNotBusy (s : State) : Ran Bool :=
  busyLoop s.params.nBusyPoll { s with work.poll := BitVec.ofNat 32 s.params.nBusyPoll }

/-- The verdict of a write data phase: the token's, and a busy timeout only after an accepted token (R207, R341). -/
def writeVerdict (token : Option ErrKind) (busyOk : Bool) : Result :=
  match token with
  | some k => .err k
  | none => if busyOk then .status 0x00#8 else .err .generic

/-- `WriteDataBlock(buf)` (R207): gap byte, start token, payload, CRC, data-response token, busy wait. -/
def writeDataBlock (buf : Nat) (s : State) : Ran Result :=
  (xfer idleByte s).andThen fun _ s =>
  (xfer dataStartToken s).andThen fun _ s =>
  (sendPayload sectorSize buf 0 s).andThen fun c s =>
  (xfer (c.extractLsb' 8 8) { s with work.crc16 := c }).andThen fun _ s =>
  (xfer (c.extractLsb' 0 8) s).andThen fun _ s =>
  (xfer idleByte s).andThen fun t s =>
  (waitNotBusy { s with work.token := t }).andThen fun busyOk s =>
    .done (writeVerdict (writeTokenResult t) busyOk) s

/-- What one block-write transaction leaves for the log (R274): its result, the response field and the CRC field. -/
structure WriteOutcome where
  result : Result
  response : Code
  crc : Half
  deriving DecidableEq, Repr

/-- A block-write transaction (R145, R274): the data phase follows only `Status(0x00)`. -/
def blockWrite (addr : Word) (buf : Nat) (s : State) : Ran WriteOutcome :=
  (cmdBegin 24 addr s).andThen fun r s =>
  (if r = .status 0x00#8 then
      (writeDataBlock buf s).andThen fun r s => .done ⟨r, s.work.token.setWidth 16, s.work.crc16⟩ s
    else .done ⟨r, r.code, 0⟩ s).andThen fun w s =>
  (cmdEnd s).andThen fun _ s => .done w s

end Sys2Proof.Machine
end

