-- ==== Sys2Proof/Machine/Frames.lean ====
section
/-!
DEFINITION. The meanings of the twelve frame rows (R140 to R150): each is its rule's transaction, run as one critical
section of its own (R70; log entry 8).
-/

namespace Sys2Proof.Machine

open Sys2Proof

/-- CMD0 (R140). -/
def execCmd0 (s : State) : Host.Outcome State Fault Refusal :=
  serveFrame .cmd0 (command 0 0) s

/-- CMD1 (R141). -/
def execCmd1 (s : State) : Host.Outcome State Fault Refusal :=
  serveFrame .cmd1 (command 1 0) s

/-- CMD8 (R142). -/
def execCmd8 (s : State) : Host.Outcome State Fault Refusal :=
  serveFrame .cmd8 (command 8 cmd8Argument) s

/-- CMD16 (R143). -/
def execCmd16 (s : State) : Host.Outcome State Fault Refusal :=
  serveFrame .cmd16 (command 16 cmd16Argument) s

/-- CMD17 (R144). -/
def execCmd17 (addr : Word) (buf : Nat) (s : State) : Host.Outcome State Fault Refusal :=
  withBuffer buf 1 (serveFrame (.cmd17 addr buf) (blockRead 17 addr buf)) s

/-- CMD18 (R147): the response handling of R144. No host request issues it (R7), and no step runs it (`issue`). -/
def execCmd18 (addr : Word) (buf : Nat) (s : State) : Host.Outcome State Fault Refusal :=
  withBuffer buf 1 (serveFrame (.cmd18 addr buf) (blockRead 18 addr buf)) s

/-- The block never puts this frame on the bus: CMD18, since stopping a multi-block read is not specified (R147,
U15). -/
def neverIssued : Instr → Bool
  | .cmd18 _ _ => true
  | .cmd0 | .cmd1 | .cmd8 | .cmd16 | .cmd17 _ _ | .cmd24 _ _ | .cmd55 | .acmd41Hcs1 | .acmd41Hcs0 | .cmd58 | .cmd59
  | .initSession | .startup | .isReady | .readSector _ _ | .readRange _ _ _ | .writeSector _ _ | .writeRange _ _ _
  | .dumpDiagnostics | .clearDiagnostics | .reserved9 | .reservedA | .reservedB | .reservedC | .reservedD
  | .reservedE | .reservedF => false

/-- Run a decoded instruction, unless the block never issues it (R147: "a model must not issue CMD18"). -/
def issue (i : Instr) (run : State → Host.Outcome State Fault Refusal) (s : State) :
    Host.Outcome State Fault Refusal :=
  if neverIssued i then .refused .neverIssued else run s

/-- CMD24 (R145). -/
def execCmd24 (addr : Word) (buf : Nat) (s : State) : Host.Outcome State Fault Refusal :=
  withBuffer buf 1
    (serveFrame (.cmd24 addr buf) fun s => (blockWrite addr buf s).andThen fun w s => .done w.result s) s

/-- CMD55 (R146). -/
def execCmd55 (s : State) : Host.Outcome State Fault Refusal :=
  serveFrame .cmd55 (command 55 0) s

/-- ACMD41 with HCS = 1 (R148): CMD55, then CMD41. -/
def execAcmd41Hcs1 (s : State) : Host.Outcome State Fault Refusal :=
  serveFrame .acmd41Hcs1 (appCommand 41 (acmd41Argument true)) s

/-- ACMD41 with HCS = 0 (R148): CMD55, then CMD41. -/
def execAcmd41Hcs0 (s : State) : Host.Outcome State Fault Refusal :=
  serveFrame .acmd41Hcs0 (appCommand 41 (acmd41Argument false)) s

/-- CMD58 (R149). -/
def execCmd58 (s : State) : Host.Outcome State Fault Refusal :=
  serveFrame .cmd58 (command 58 0) s

/-- CMD59 (R150). -/
def execCmd59 (s : State) : Host.Outcome State Fault Refusal :=
  serveFrame .cmd59 (command 59 cmd59Argument) s

end Sys2Proof.Machine
end

