-- ==== Sys2Proof/Machine/HostOps.lean ====
section
/-!
DEFINITION. The requests of 46_host_ops_diagnostics.md: INITIALIZE (R302), IS_READY (R304), DUMP_DIAGNOSTICS (R305),
CLEAR_DIAGNOSTICS (R306), and the seven reserved codes (R102).
-/

namespace Sys2Proof.Machine

open Sys2Proof

/-- `Initialize()` under the lock (R302): the registers, SetClock(F_SLOW), DeassertCS; no Xfer (R303). -/
def initBody (s : State) : Ran Reply :=
  (setClock .slow (clearSession s)).andThen fun _ s =>
  (deassertCS s).andThen fun _ s => .done (resultReply 0) s

/-- INITIALIZE (R302). -/
def execInitSession (s : State) : Host.Outcome State Fault Refusal :=
  serveRequest .initSession initBody s

/-- IS_READY (R304): no lock. -/
def execIsReady (s : State) : Host.Outcome State Fault Refusal :=
  .next (respond s.sync.caller (readyReply s) s)

/-- `DumpDiagnostics()` under the lock (R305): both are reported, then cleared; nothing without a log. -/
def dumpBody (s : State) : Ran Reply :=
  .done ⟨0, false, if s.params.logEnabled then s.log.records else [], if s.params.logEnabled then s.log.drops else 0⟩
    (logClear s)

/-- DUMP_DIAGNOSTICS (R305). -/
def execDumpDiagnostics (s : State) : Host.Outcome State Fault Refusal :=
  serveRequest .dumpDiagnostics dumpBody s

/-- CLEAR_DIAGNOSTICS (R306). -/
def execClearDiagnostics (s : State) : Host.Outcome State Fault Refusal :=
  serveRequest .clearDiagnostics (fun s => .done (resultReply 0) (logClear s)) s

/-- A reserved request code (R102): result -8 at once, no lock, no other effect. -/
def answerReserved (s : State) : Host.Outcome State Fault Refusal :=
  .next (respond s.sync.caller reservedReply s)

/-- Reserved code 0x9 (R102). -/
def execReserved9 (s : State) : Host.Outcome State Fault Refusal := answerReserved s

/-- Reserved code 0xA (R102). -/
def execReservedA (s : State) : Host.Outcome State Fault Refusal := answerReserved s

/-- Reserved code 0xB (R102). -/
def execReservedB (s : State) : Host.Outcome State Fault Refusal := answerReserved s

/-- Reserved code 0xC (R102). -/
def execReservedC (s : State) : Host.Outcome State Fault Refusal := answerReserved s

/-- Reserved code 0xD (R102). -/
def execReservedD (s : State) : Host.Outcome State Fault Refusal := answerReserved s

/-- Reserved code 0xE (R102). -/
def execReservedE (s : State) : Host.Outcome State Fault Refusal := answerReserved s

/-- Reserved code 0xF (R102). -/
def execReservedF (s : State) : Host.Outcome State Fault Refusal := answerReserved s

end Sys2Proof.Machine
end

