-- ==== Sys2Proof/Machine/Sector.lean ====
section
/-!
DEFINITION. Sector read and write (45_sector_io.md): the Ready check, one read, one write attempt, the bounded retry,
the ranges, and the four requests.
-/

namespace Sys2Proof.Machine

open Sys2Proof

/-- The Ready check under the lock (R270): `NotReady` makes no event, no access and no log record. -/
def whenReady (body : State → Ran Code) (s : State) : Ran Reply :=
  if s.session.state = .ready then (body s).andThen fun c s => .done (resultReply c) s
  else .done (resultReply ErrKind.notReady.code) s

/-- `ReadSectorBody(buf, s)` (R271), with its log record (R272). -/
def readSectorBody (buf : Nat) (sector : Word) (s : State) : Ran Code :=
  (blockRead 17 (translateSector s.session.capClass sector) buf s).andThen fun r s =>
    .done r.code (if r.code = 0 then s else logAppend ⟨17, r.code, sector, 0, 0⟩ s)

/-- `WriteOnce(buf, s)` (R274), with its log record (R275). -/
def writeOnce (buf : Nat) (sector : Word) (s : State) : Ran Code :=
  (blockWrite (translateSector s.session.capClass sector) buf s).andThen fun w s =>
    .done w.result.code
      (if w.result.code = 0 then s else logAppend ⟨24, w.response, sector, w.crc, 0⟩ s)

/-- The retry loop of R276 with `n` attempts left: only `ChecksumFailed` is retried. -/
def writeLoop : Nat → Nat → Word → State → Ran Code
  | 0, _, _, s => .done ErrKind.checksumFailed.code s
  | n + 1, buf, sector, s =>
    (writeOnce buf sector s).andThen fun c s =>
      if c = ErrKind.checksumFailed.code ∧ n ≠ 0 then
        writeLoop n buf sector { s with work.budget := BitVec.ofNat 32 n }
      else .done c { s with work.budget := BitVec.ofNat 32 n }

/-- `WriteSectorBody(buf, s)` (R276). -/
def writeSectorBody (buf : Nat) (sector : Word) (s : State) : Ran Code :=
  writeLoop s.params.writeBudget buf sector { s with work.budget := BitVec.ofNat 32 s.params.writeBudget }

/-- Consecutive sectors, stopping at the first result that is not 0 (R278, R281, R193). -/
def rangeLoop (one : Nat → Word → State → Ran Code) : Nat → Nat → Word → State → Ran Code
  | 0, _, _, s => .done 0 s
  | n + 1, buf, sector, s =>
    (one buf sector s).andThen fun c s =>
      if c = 0 then rangeLoop one n (nextBuffer buf) (nextSector sector) s else .done c s

/-- READ_SECTOR (R273). -/
def execReadSector (buf : Nat) (sector : Word) (s : State) : Host.Outcome State Fault Refusal :=
  withBuffer buf 1 (serveRequest (.readSector buf sector) (whenReady (readSectorBody buf sector))) s

/-- READ_RANGE (R278). -/
def execReadRange (buf : Nat) (sector count : Word) (s : State) : Host.Outcome State Fault Refusal :=
  withBuffer buf count.toNat
    (serveRequest (.readRange buf sector count) (whenReady (rangeLoop readSectorBody count.toNat buf sector))) s

/-- WRITE_SECTOR (R279). -/
def execWriteSector (buf : Nat) (sector : Word) (s : State) : Host.Outcome State Fault Refusal :=
  withBuffer buf 1 (serveRequest (.writeSector buf sector) (whenReady (writeSectorBody buf sector))) s

/-- WRITE_RANGE (R281). -/
def execWriteRange (buf : Nat) (sector count : Word) (s : State) : Host.Outcome State Fault Refusal :=
  withBuffer buf count.toNat
    (serveRequest (.writeRange buf sector count) (whenReady (rangeLoop writeSectorBody count.toNat buf sector))) s

end Sys2Proof.Machine
end

