-- ==== Sys2Proof/Machine/Startup.lean ====
section
/-!
DEFINITION. The protocol state machine (44_init_state_machine.md): the phases of STARTUP, each ending in the next phase
or in `Fault(k, r)`, and the request itself (R230).
-/

namespace Sys2Proof.Machine

open Sys2Proof

/-- How a phase ends: the negotiation goes on, or `Fault(k, r)`. -/
inductive Verdict where
  | pass
  | fault (k : ErrKind) (r : Result)
  deriving DecidableEq, Repr

/-- The next phase, after one that passed. -/
def thenPhase (r : Ran Verdict) (next : State → Ran Verdict) : Ran Verdict :=
  r.andThen fun v s =>
    match v with
    | .pass => next s
    | .fault k e => .done (.fault k e) s

/-- `n` idle bytes clocked, their answers ignored (R232). -/
def clockIdle : Nat → State → Ran Unit
  | 0, s => .done () s
  | n + 1, s => (xfer idleByte s).andThen fun _ s => clockIdle n s

/-- The Probing loop with `n` attempts left (R234). -/
def probeLoop : Nat → State → Ran Verdict
  | 0, s => .done (.fault .resetTimeout (.err .resetTimeout)) s
  | n + 1, s =>
    (command 0 0 s).andThen fun r s =>
      if r = .status 0x01#8 then .done .pass s
      else
        match r with
        | .err .transmissionInterrupted | .status _ =>
          if n = 0 then .done (.fault .resetTimeout r) { s with work.attempts := 0 }
          else probeLoop n { s with work.attempts := BitVec.ofNat 32 n }
        | .err k => .done (.fault k r) s

/-- Probing (R232 to R234). -/
def probing (s : State) : Ran Verdict :=
  (setClock .slow { s with session.state := .probing, session.capClass := .standard }).andThen fun _ s =>
  (deassertCS s).andThen fun _ s =>
  (clockIdle s.params.nPowerup s).andThen fun _ s =>
    probeLoop s.params.nResetAttempts { s with work.attempts := BitVec.ofNat 32 s.params.nResetAttempts }

/-- VoltageCheck (R235, R236). -/
def voltageCheck (s : State) : Ran Verdict :=
  (command 8 cmd8Argument { s with session.state := .voltageCheck }).andThen fun r s =>
    match r with
    | .err k => .done (.fault k r) s
    | .status b =>
      if illegal b then .done .pass { s with session.cardGen := .sdv1 }
      else if echoMatches s.work.payload then .done .pass { s with session.cardGen := .sdv2 }
      else .done (.fault .unsupportedVoltage r) s

/-- One negotiation command by card generation, with the reclassification of R239 (R238). -/
def negotiate (s : State) : Ran Result :=
  match s.session.cardGen with
  | .mmc => command 1 0 s
  | g =>
    (appCommand 41 (acmd41Argument (hcsOf g)) s).andThen fun r s =>
      .done r (if r.isIllegal then { s with session.cardGen := .mmc } else s)

/-- The IdleWait loop with `n` iterations left (R238, R240). -/
def idleWaitLoop : Nat → State → Ran Verdict
  | 0, s => .done (.fault .idleWaitTimeout (.err .idleWaitTimeout)) s
  | n + 1, s =>
    (negotiate s).andThen fun r s =>
      if r = .status 0x00#8 then .done .pass { s with work.iter := s.work.iter + 1 }
      else if n = 0 then .done (.fault .idleWaitTimeout r) { s with work.iter := s.work.iter + 1 }
      else idleWaitLoop n { s with work.iter := s.work.iter + 1 }

/-- IdleWait (R237, R238). -/
def idleWait (s : State) : Ran Verdict :=
  idleWaitLoop s.params.nIdleWait { s with session.state := .idleWait, work.iter := 0 }

/-- CapacityCheck (R241 to R243). -/
def capacityCheck (s : State) : Ran Verdict :=
  (command 58 0 { s with session.state := .capacityCheck }).andThen fun r s =>
    match r with
    | .err k => .done (.fault k r) s
    | .status b =>
      if illegal b then .done (.fault .generic r) s
      else if voltageOk s.work.payload then
        .done .pass
          (if s.session.cardGen = .mmc then s else { s with session.capClass := capClassOf s.work.payload })
      else .done (.fault .voltageNotSupported r) s

/-- A configuration command passes only with `Status(0x00)` (R244). -/
def configResult (r : Result) : Verdict :=
  match r with
  | .err k => .fault k r
  | .status b => if b = 0x00#8 then .pass else .fault .generic r

/-- Configuring (R244): CMD16, then CMD59. -/
def configuring (s : State) : Ran Verdict :=
  thenPhase
    ((command 16 cmd16Argument { s with session.state := .configuring }).andThen fun r s => .done (configResult r) s)
    fun s => (command 59 cmd59Argument s).andThen fun r s => .done (configResult r) s

/-- The phases in order (R231). -/
def negotiation (s : State) : Ran Verdict :=
  thenPhase (thenPhase (thenPhase (thenPhase (probing s) voltageCheck) idleWait) capacityCheck) configuring

/-- The end of a negotiation: Ready at the fast clock (R245), or the fault path (R246). -/
def concludeStartup (v : Verdict) (s : State) : Ran Reply :=
  match v with
  | .pass => (setClock .fast s).andThen fun _ s => .done (resultReply 0) { s with session.state := .ready }
  | .fault k r => .done (resultReply k.code) (takeFault k r s)

/-- `Startup()` under the lock (R230). -/
def startupBody (s : State) : Ran Reply :=
  match s.session.state with
  | .ready => .done (resultReply 0) s
  | .faulted => .done (resultReply s.session.faultCode) s
  | _ => (negotiation s).andThen concludeStartup

/-- STARTUP (R230). -/
def execStartup (s : State) : Host.Outcome State Fault Refusal :=
  serveRequest .startup startupBody s

end Sys2Proof.Machine
end

