-- ==== Sys2Proof/Machine/Dispatch.lean ====
section
/-!
DEFINITION. The meaning of every instruction: one arm per constructor, each a direct call (R300).
-/

namespace Sys2Proof.Machine

open Sys2Proof

def exec (i : Instr) (s : State) : Host.Outcome State Fault Refusal :=
  match i with
  -- command frames (R140 to R150)
  | .cmd0 => Sys2Proof.Machine.execCmd0 s
  | .cmd1 => Sys2Proof.Machine.execCmd1 s
  | .cmd8 => Sys2Proof.Machine.execCmd8 s
  | .cmd16 => Sys2Proof.Machine.execCmd16 s
  | .cmd17 addr buf => Sys2Proof.Machine.execCmd17 addr buf s
  | .cmd18 addr buf => Sys2Proof.Machine.execCmd18 addr buf s
  | .cmd24 addr buf => Sys2Proof.Machine.execCmd24 addr buf s
  | .cmd55 => Sys2Proof.Machine.execCmd55 s
  | .acmd41Hcs1 => Sys2Proof.Machine.execAcmd41Hcs1 s
  | .acmd41Hcs0 => Sys2Proof.Machine.execAcmd41Hcs0 s
  | .cmd58 => Sys2Proof.Machine.execCmd58 s
  | .cmd59 => Sys2Proof.Machine.execCmd59 s
  -- host requests (R100)
  | .initSession => Sys2Proof.Machine.execInitSession s
  | .startup => Sys2Proof.Machine.execStartup s
  | .isReady => Sys2Proof.Machine.execIsReady s
  | .readSector buf sector => Sys2Proof.Machine.execReadSector buf sector s
  | .readRange buf sector count => Sys2Proof.Machine.execReadRange buf sector count s
  | .writeSector buf sector => Sys2Proof.Machine.execWriteSector buf sector s
  | .writeRange buf sector count => Sys2Proof.Machine.execWriteRange buf sector count s
  | .dumpDiagnostics => Sys2Proof.Machine.execDumpDiagnostics s
  | .clearDiagnostics => Sys2Proof.Machine.execClearDiagnostics s
  -- reserved request codes (R102)
  | .reserved9 => Sys2Proof.Machine.execReserved9 s
  | .reservedA => Sys2Proof.Machine.execReservedA s
  | .reservedB => Sys2Proof.Machine.execReservedB s
  | .reservedC => Sys2Proof.Machine.execReservedC s
  | .reservedD => Sys2Proof.Machine.execReservedD s
  | .reservedE => Sys2Proof.Machine.execReservedE s
  | .reservedF => Sys2Proof.Machine.execReservedF s

end Sys2Proof.Machine
end

