-- ==== Sys2Proof/Machine/Step.lean ====
section
/-!
DEFINITION. One step: what is served next is chosen (R71), decoded (R300, R92) and executed; and the placing of one
word of the opcode table as the next thing served.
-/

namespace Sys2Proof.Machine

open Sys2Proof

/-- Serve a chosen item: decode it and run the instruction, unless the block never issues it (R147). -/
def serve (p : Presented) (s : State) : Host.Outcome State Fault Refusal :=
  match decode p.item with
  | .ok i => issue i (exec i) s
  | .error _ => .refused .notAFrame

/-- One step. A configuration that breaks a constraint is refused (R8); with nothing to do the block waits (R371). -/
def step (s : State) : Host.Outcome State Fault Refusal :=
  if s.params.ok then
    match nextChoice s with
    | .serve p s' => serve p s'
    | .arrived s' => .next s'
    | .idle => .next s
    | .stuck => .fault .bufferAccessStuck
  else .refused .badConfiguration

/-- `s` with an item presented by agent 0 as the one thing served next: the lock is free and the service order
chooses it. -/
def State.withItem (s : State) (item : PortItem) : State :=
  { s with sync := ⟨none, none, [⟨0, item⟩], s.sync.caller⟩, env.order := 0 :: s.env.order }

/-- `s` with a word of the opcode table presented as the one thing served next. -/
def State.withFetchWord (s : State) (nbits w : Nat) : State :=
  match tableItem nbits w with
  | some item => s.withItem item
  | none => s

end Sys2Proof.Machine
end

