-- ==== Sys2Proof/Safety.lean ====
section
/-!
DEFINITION. The terms statements are made in: what disturbs a run, what a card answers to one transaction and the bus
events that go with it, what a read stores, and the invariant of the machine between steps.
-/

namespace Sys2Proof.Machine

open Sys2Proof

/-! ### What disturbs a run -/

/-- The lock is free and nothing comes from outside while the request works. The card's answers stay arbitrary. -/
abbrev undisturbed (s : State) : Prop := s.sync.lock = none ∧ s.env.arrivals = []

/-- The reset input is not asserted. -/
abbrev noReset (s : State) : Prop := ∀ x ∈ s.env.arrivals, x.2 ≠ Arrival.reset

/-- The caller memory admits all 512 bytes from `buf` (R60). -/
abbrev admitsBlock (s : State) (buf : Nat) : Prop := ∀ j < sectorSize, admits s (buf + j) = true

/-- The instruction takes the lock: all but IS_READY and the reserved codes (R70). -/
def takesLock : Instr → Bool
  | .isReady | .reserved9 | .reservedA | .reservedB | .reservedC | .reservedD | .reservedE | .reservedF => false
  | .cmd0 | .cmd1 | .cmd8 | .cmd16 | .cmd17 _ _ | .cmd18 _ _ | .cmd24 _ _ | .cmd55 | .acmd41Hcs1 | .acmd41Hcs0
  | .cmd58 | .cmd59 | .initSession | .startup | .readSector _ _ | .readRange _ _ _ | .writeSector _ _
  | .writeRange _ _ _ | .dumpDiagnostics | .clearDiagnostics => true

/-- The instruction is a host request that takes the lock, so that one response is due. -/
def isLockedRequest : Instr → Bool
  | .initSession | .startup | .readSector _ _ | .readRange _ _ _ | .writeSector _ _ | .writeRange _ _ _
  | .dumpDiagnostics | .clearDiagnostics => true
  | .cmd0 | .cmd1 | .cmd8 | .cmd16 | .cmd17 _ _ | .cmd18 _ _ | .cmd24 _ _ | .cmd55 | .acmd41Hcs1 | .acmd41Hcs0
  | .cmd58 | .cmd59 | .isReady | .reserved9 | .reservedA | .reservedB | .reservedC | .reservedD | .reservedE
  | .reservedF => false

/-- One of the four sector requests (45_sector_io.md). -/
def isSectorRequest : Instr → Bool
  | .readSector _ _ | .readRange _ _ _ | .writeSector _ _ | .writeRange _ _ _ => true
  | .initSession | .startup | .dumpDiagnostics | .clearDiagnostics
  | .cmd0 | .cmd1 | .cmd8 | .cmd16 | .cmd17 _ _ | .cmd18 _ _ | .cmd24 _ _ | .cmd55 | .acmd41Hcs1 | .acmd41Hcs0
  | .cmd58 | .cmd59 | .isReady | .reserved9 | .reservedA | .reservedB | .reservedC | .reservedD | .reservedE
  | .reservedF => false

/-! ### What a card answers, and the events on the bus -/

/-- The state after `n` answers of `env.cardIn` were taken and the events `evs`, in time order, were made. -/
def play (n : Nat) (evs : List BusEvent) (s : State) : State :=
  { s with
    env.cardIn := s.env.cardIn.drop n
    env.drawn := s.env.drawn + n
    trace := evs.reverse ++ s.trace }

/-- Idle bytes out with these answers. -/
def idleEvents (answers : List Byte) : List BusEvent := answers.map (BusEvent.xfer idleByte)

/-- The card's part in one transaction up to R1: bytes that are not idle while the bus is awaited, then 0xFF, six
0xFF echoes, `resp` idle bytes and the status; and the answer to the trailing byte. -/
structure CmdScript where
  wait : List Byte
  resp : Nat
  status : Byte
  trail : Byte
  deriving DecidableEq, Repr

/-- The answers up to and with R1. -/
def CmdScript.opening (c : CmdScript) : List Byte :=
  c.wait ++ List.replicate (7 + c.resp) idleByte ++ [c.status]

/-- The answers of a transaction with no more than R1. -/
def CmdScript.bytes (c : CmdScript) : List Byte := c.opening ++ [c.trail]

/-- The answers of a transaction whose R1 is followed by four payload bytes. -/
def CmdScript.payloadBytes (c : CmdScript) (p : Word) : List Byte := c.opening ++ argBytes p ++ [c.trail]

/-- The answers stay within the poll bounds of the configuration. -/
abbrev CmdScript.fits (c : CmdScript) (p : Params) : Prop :=
  (∀ b ∈ c.wait, b ≠ idleByte) ∧ c.wait.length < p.nReadyPoll ∧ c.resp < p.nRespPoll ∧ c.status ≠ idleByte

/-- The six frame bytes, each answered with 0xFF. -/
def frameEvents (idx : BitVec 6) (arg : Word) : List BusEvent :=
  (commandBytes idx arg).map (fun b => BusEvent.xfer b idleByte)

/-- The events up to and with R1. -/
def CmdScript.openEvents (c : CmdScript) (idx : BitVec 6) (arg : Word) : List BusEvent :=
  [BusEvent.assertCS] ++ idleEvents (c.wait ++ [idleByte]) ++ frameEvents idx arg ++
    idleEvents (List.replicate c.resp idleByte ++ [c.status])

/-- The events of CmdEnd (R137). -/
def closeEvents (trail : Byte) : List BusEvent := [BusEvent.deassertCS, BusEvent.xfer idleByte trail]

/-- The events of a transaction with no more than R1. -/
def CmdScript.events (c : CmdScript) (idx : BitVec 6) (arg : Word) : List BusEvent :=
  c.openEvents idx arg ++ closeEvents c.trail

/-- The events of a transaction with a payload. -/
def CmdScript.payloadEvents (c : CmdScript) (idx : BitVec 6) (arg p : Word) : List BusEvent :=
  c.openEvents idx arg ++ idleEvents (argBytes p) ++ closeEvents c.trail

/-- The answers of a transaction whose payload follows R1 unless the illegal bit is set (R95). -/
def CmdScript.fullBytes (c : CmdScript) (p : Word) : List Byte :=
  if illegal c.status then c.bytes else c.payloadBytes p

/-- Its events. -/
def CmdScript.fullEvents (c : CmdScript) (idx : BitVec 6) (arg p : Word) : List BusEvent :=
  if illegal c.status then c.events idx arg else c.payloadEvents idx arg p

/-- The card's part in a transaction that ends with its opening: an R1, or one of the errors CmdBegin can end in
(R134 to R136); `trail` is the answer to the trailing byte. -/
inductive Exchange where
  /-- R1 comes. -/
  | answered (c : CmdScript)
  /-- No polled byte is 0xFF within the bound, so that no frame goes out (R134). -/
  | neverIdle (wait : List Byte) (trail : Byte)
  /-- A frame byte is read back as something other than 0xFF (R135). -/
  | badEcho (wait echo : List Byte) (trail : Byte)
  /-- Only 0xFF for the whole response poll of `polls` bytes (R136). -/
  | silent (wait : List Byte) (polls : Nat) (trail : Byte)
  deriving DecidableEq, Repr

/-- What CmdBegin ends in. -/
def Exchange.result : Exchange → Result
  | .answered c => .status c.status
  | .neverIdle _ _ => .err .generic
  | .badEcho _ _ _ => .err .transmissionInterrupted
  | .silent _ _ _ => .err .generic

/-- The answer to the trailing byte (R137). -/
def Exchange.trail : Exchange → Byte
  | .answered c => c.trail
  | .neverIdle _ z => z
  | .badEcho _ _ z => z
  | .silent _ _ z => z

/-- The answers CmdBegin takes. -/
def Exchange.opening : Exchange → List Byte
  | .answered c => c.opening
  | .neverIdle w _ => w
  | .badEcho w e _ => w ++ [idleByte] ++ e
  | .silent w n _ => w ++ List.replicate (7 + n) idleByte

/-- The events CmdBegin makes. -/
def Exchange.openEvents (idx : BitVec 6) (arg : Word) : Exchange → List BusEvent
  | .answered c => c.openEvents idx arg
  | .neverIdle w _ => [BusEvent.assertCS] ++ idleEvents w
  | .badEcho w e _ =>
    [BusEvent.assertCS] ++ idleEvents (w ++ [idleByte]) ++ List.zipWith BusEvent.xfer (commandBytes idx arg) e
  | .silent w n _ =>
    [BusEvent.assertCS] ++ idleEvents (w ++ [idleByte]) ++ frameEvents idx arg ++
      idleEvents (List.replicate n idleByte)

/-- The answers of the whole transaction. -/
def Exchange.bytes (x : Exchange) : List Byte := x.opening ++ [x.trail]

/-- The events of the whole transaction. -/
def Exchange.events (x : Exchange) (idx : BitVec 6) (arg : Word) : List BusEvent :=
  x.openEvents idx arg ++ closeEvents x.trail

/-- The answers end CmdBegin in that way under the bounds of the configuration. -/
def Exchange.fits (p : Params) : Exchange → Prop
  | .answered c => c.fits p
  | .neverIdle w _ => (∀ b ∈ w, b ≠ idleByte) ∧ w.length = p.nReadyPoll
  | .badEcho w e _ =>
    (∀ b ∈ w, b ≠ idleByte) ∧ w.length < p.nReadyPoll ∧ e.length = 6 ∧ ∃ b ∈ e, b ≠ idleByte
  | .silent w n _ => (∀ b ∈ w, b ≠ idleByte) ∧ w.length < p.nReadyPoll ∧ n = p.nRespPoll

/-- The card's part in a block read whose data-start token comes: idle bytes before the token, 512 data bytes, the
CRC it sends. -/
structure ReadScript where
  cmd : CmdScript
  tokenWait : Nat
  data : List Byte
  crc : Half
  deriving DecidableEq, Repr

/-- The answers of the read data phase. -/
def ReadScript.phaseBytes (r : ReadScript) : List Byte :=
  List.replicate r.tokenWait idleByte ++ [dataStartToken] ++ r.data ++ crcBytes r.crc

/-- The answers of the block read. -/
def ReadScript.bytes (r : ReadScript) : List Byte := r.cmd.opening ++ r.phaseBytes ++ [r.cmd.trail]

/-- R1 is 0x00, the polls stay within bounds and the block has 512 bytes. -/
abbrev ReadScript.fits (r : ReadScript) (p : Params) : Prop :=
  r.cmd.fits p ∧ r.cmd.status = 0x00#8 ∧ r.tokenWait < p.nTokenPoll ∧ r.data.length = sectorSize

/-- The events of the block read with command `idx` at `addr`. -/
def ReadScript.events (r : ReadScript) (idx : BitVec 6) (addr : Word) : List BusEvent :=
  r.cmd.openEvents idx addr ++ idleEvents r.phaseBytes ++ closeEvents r.cmd.trail

/-- The card's part in a block write: 516 answers that are ignored, the data-response token, the bytes it is busy for,
and whether it lets the bus go within the busy poll. -/
structure WriteScript where
  cmd : CmdScript
  ignored : List Byte
  token : Byte
  busy : List Byte
  released : Bool
  deriving DecidableEq, Repr

/-- The answers of the busy poll (R208). -/
def WriteScript.busyBytes (w : WriteScript) : List Byte := w.busy ++ if w.released then [idleByte] else []

/-- The answers of the block write. -/
def WriteScript.bytes (w : WriteScript) : List Byte :=
  w.cmd.opening ++ w.ignored ++ [w.token] ++ w.busyBytes ++ [w.cmd.trail]

/-- R1 is 0x00, the polls before it stay within bounds, and the busy period ends within its bound or uses it up. -/
abbrev WriteScript.fits (w : WriteScript) (p : Params) : Prop :=
  w.cmd.fits p ∧ w.cmd.status = 0x00#8 ∧ w.ignored.length = sectorSize + 4 ∧
    (∀ b ∈ w.busy, b ≠ idleByte) ∧
    (if w.released then w.busy.length < p.nBusyPoll else w.busy.length = p.nBusyPoll)

/-- The 512 buffer bytes from `buf`. -/
def blockAt (s : State) (buf : Nat) : List Byte := (List.range sectorSize).map (fun j => memRead s.mem (buf + j))

/-- The bytes of a write data packet (R98): gap, start token, payload, CRC high byte first. -/
def packetBytes (payload : List Byte) : List Byte :=
  [idleByte, dataStartToken] ++ payload ++ crcBytes (crc16 payload)

/-- The events of the block write of `payload` at `addr`. -/
def WriteScript.events (w : WriteScript) (addr : Word) (payload : List Byte) : List BusEvent :=
  w.cmd.openEvents 24 addr ++ List.zipWith BusEvent.xfer (packetBytes payload) w.ignored ++
    idleEvents ([w.token] ++ w.busyBytes) ++ closeEvents w.cmd.trail

/-- `t`'s memory is `s`'s with `d` stored from `buf` on. -/
def storesBlock (s t : State) (buf : Nat) (d : List Byte) : Prop :=
  ∀ a, memRead t.mem a = if buf ≤ a ∧ a < buf + d.length then d.getD (a - buf) 0 else memRead s.mem a

/-- What no transaction touches: the configuration, the session registers, the map of the memory, and the ports but
for what the end of the instruction frees. -/
def keepsSession (s t : State) : Prop :=
  t.params = s.params ∧ t.session = s.session ∧ t.noAccess = s.noAccess ∧
    t.sync = ⟨none, none, s.sync.requests, s.sync.caller⟩ ∧ t.env.arrivals = s.env.arrivals ∧
    t.env.order = s.env.order ∧ t.env.picks = s.env.picks

/-- The card's answers were used as far as `rest`, by `n` Xfer events, and the bus saw `evs` in time order. -/
def busMoved (s t : State) (n : Nat) (rest : List Byte) (evs : List BusEvent) : Prop :=
  t.env.cardIn = rest ∧ t.env.drawn = s.env.drawn + n ∧ t.trace = evs.reverse ++ s.trace ∧ t.cs = false

/-- The commands answered by R1 alone: instruction, index, argument (R104). -/
def r1Commands : List (Instr × BitVec 6 × Word) :=
  [(.cmd0, 0, 0), (.cmd1, 1, 0), (.cmd16, 16, cmd16Argument), (.cmd55, 55, 0), (.cmd59, 59, cmd59Argument)]

/-- The commands whose R1 may be followed by four bytes (R95, R104). -/
def payloadCommands : List (Instr × BitVec 6 × Word) := [(.cmd8, 8, cmd8Argument), (.cmd58, 58, 0)]

/-- The twelve frame rows, each with the index and the argument of its first frame (R104, R138). -/
def frameCommands (addr : Word) (buf : Nat) : List (Instr × BitVec 6 × Word) :=
  r1Commands ++ payloadCommands ++
    [(.cmd17 addr buf, 17, addr), (.cmd18 addr buf, 18, addr), (.cmd24 addr buf, 24, addr), (.acmd41Hcs1, 55, 0),
      (.acmd41Hcs0, 55, 0)]

/-- What a command without a data phase leaves: the transaction's registers and result, and everything outside the
transport as it was. -/
def commandDone (s t : State) (idx : BitVec 6) (arg : Word) (r : Result) : Prop :=
  t.work.idx = idx ∧ t.work.arg = arg ∧ t.work.result = r.code ∧ keepsSession s t ∧ t.mem = s.mem ∧ t.log = s.log ∧
    t.responses = s.responses

/-- What a request leaves at its ports: one response with this result to its caller, the session registers as they
were, the lock free. -/
def requestDone (s t : State) (result : Code) : Prop :=
  t.responses = ⟨s.sync.caller, ⟨result, false, [], 0⟩⟩ :: s.responses ∧ keepsSession s t

/-- `t` is stuck on a buffer access of `i` (R60): it keeps the lock and the selected card, no response was given, the
session is as it was, and with valid parameters and nothing presented the next step is the fault. -/
def stuckIn (s t : State) (i : Instr) : Prop :=
  t.sync = ⟨some s.sync.caller, some i, s.sync.requests, s.sync.caller⟩ ∧ t.responses = s.responses ∧ t.cs = true ∧
    t.session = s.session ∧ (s.params.ok = true → s.sync.requests = [] → step t = .fault .bufferAccessStuck)

/-- A block read was begun with these events before it, and `j + 1` of its data bytes have been received. -/
def stoppedReading (s t : State) (before : List BusEvent) (idx : BitVec 6) (addr : Word) (r : ReadScript) (j : Nat) :
    Prop :=
  t.trace = (before ++ r.cmd.openEvents idx addr ++
    idleEvents (List.replicate r.tokenWait idleByte ++ [dataStartToken] ++ r.data.take (j + 1))).reverse ++ s.trace

/-- A block write was begun with these events before it, and `j` of its payload bytes have been sent. -/
def stoppedWriting (s t : State) (before : List BusEvent) (addr : Word) (payload : List Byte) (w : WriteScript)
    (j : Nat) : Prop :=
  t.trace = (before ++ w.cmd.openEvents 24 addr ++
    List.zipWith BusEvent.xfer ([idleByte, dataStartToken] ++ payload.take j) w.ignored).reverse ++ s.trace

/-- The buffer of a request: its base and its number of blocks (R60, R278, R281); nothing for the others. -/
def bufferOf : Instr → Nat × Nat
  | .readSector buf _ | .writeSector buf _ => (buf, 1)
  | .readRange buf _ count | .writeRange buf _ count => (buf, count.toNat)
  | .cmd0 | .cmd1 | .cmd8 | .cmd16 | .cmd17 _ _ | .cmd18 _ _ | .cmd24 _ _ | .cmd55 | .acmd41Hcs1 | .acmd41Hcs0
  | .cmd58 | .cmd59 | .initSession | .startup | .isReady | .dumpDiagnostics | .clearDiagnostics | .reserved9
  | .reservedA | .reservedB | .reservedC | .reservedD | .reservedE | .reservedF => (0, 0)

/-- Answers to the token poll that end it without a data-start token: the bound of idle bytes, or some idle bytes and
a byte that is neither idle nor the token (R202). -/
def tokenFailure (p : Params) (l : List Byte) : Prop :=
  l = List.replicate p.nTokenPoll idleByte ∨
    ∃ k t, k < p.nTokenPoll ∧ t ≠ idleByte ∧ t ≠ dataStartToken ∧ l = List.replicate k idleByte ++ [t]

/-- The card's part in one sector read, whatever it ends in (R271). -/
inductive ReadAttempt where
  /-- CmdBegin ends in something other than the status 0x00. -/
  | refused (x : Exchange)
  /-- R1 is 0x00 and no data-start token comes. -/
  | noToken (c : CmdScript) (answers : List Byte)
  /-- A block comes. -/
  | block (r : ReadScript)
  deriving DecidableEq, Repr

/-- The answers stay within the bounds. -/
def ReadAttempt.fits (p : Params) : ReadAttempt → Prop
  | .refused x => x.fits p ∧ x.result ≠ .status 0x00#8
  | .noToken c l => c.fits p ∧ c.status = 0x00#8 ∧ tokenFailure p l
  | .block r => r.fits p

/-- The result code (R271, R203). -/
def ReadAttempt.code : ReadAttempt → Code
  | .refused x => x.result.code
  | .noToken _ _ => -8
  | .block r => if r.crc = crc16 r.data then 0 else -2

/-- The bytes that land in the buffer: a block's, whatever its CRC says (R203). -/
def ReadAttempt.data : ReadAttempt → List Byte
  | .refused _ => []
  | .noToken _ _ => []
  | .block r => r.data

/-- The answers. -/
def ReadAttempt.bytes : ReadAttempt → List Byte
  | .refused x => x.bytes
  | .noToken c l => c.opening ++ l ++ [c.trail]
  | .block r => r.bytes

/-- The events of the read at `addr`. -/
def ReadAttempt.events (idx : BitVec 6) (addr : Word) : ReadAttempt → List BusEvent
  | .refused x => x.events idx addr
  | .noToken c l => c.openEvents idx addr ++ idleEvents l ++ closeEvents c.trail
  | .block r => r.events idx addr

/-- The token is the card's checksum rejection (R99, R166). -/
abbrev rejects (w : WriteScript) : Prop := writeTokenResult w.token = some .checksumFailed

/-- The token is the card's acceptance and the busy period ends (R99, R166, R209). -/
abbrev accepts (w : WriteScript) : Prop := writeTokenResult w.token = none ∧ w.released = true

/-- The card's part in the last attempt of a sector write (R274). -/
inductive WriteEnd where
  /-- CmdBegin ends in something other than the status 0x00. -/
  | refused (x : Exchange)
  /-- The block is sent. -/
  | sent (w : WriteScript)
  deriving DecidableEq, Repr

/-- The answers stay within the bounds. -/
def WriteEnd.fits (p : Params) : WriteEnd → Prop
  | .refused x => x.fits p ∧ x.result ≠ .status 0x00#8
  | .sent w => w.fits p

/-- The result code: a busy timeout counts only after an accepted token (R207, R209). -/
def WriteEnd.code : WriteEnd → Code
  | .refused x => x.result.code
  | .sent w => if accepts w then 0 else if rejects w then -2 else -8

/-- The answers. -/
def WriteEnd.bytes : WriteEnd → List Byte
  | .refused x => x.bytes
  | .sent w => w.bytes

/-- The events of the attempt. -/
def WriteEnd.events (addr : Word) (payload : List Byte) : WriteEnd → List BusEvent
  | .refused x => x.events 24 addr
  | .sent w => w.events addr payload

/-- The record of a block that was sent and did not succeed (R275). -/
def sentRecord (sector : Word) (payload : List Byte) (w : WriteScript) : LogRecord :=
  ⟨24, w.token.setWidth 16, sector, crc16 payload, 0⟩

/-- The log record of the attempt, where it fails (R275). -/
def WriteEnd.record (sector : Word) (payload : List Byte) : WriteEnd → LogRecord
  | .refused x => ⟨24, x.result.code, sector, 0, 0⟩
  | .sent w => sentRecord sector payload w

/-- The card's part in one sector write: attempts it rejects for their checksum, and the last one (R276). -/
structure SectorWrite where
  rejected : List WriteScript
  last : WriteEnd
  deriving DecidableEq, Repr

/-- The retry budget holds them, and a rejected last attempt uses it up (R277). -/
def SectorWrite.fits (p : Params) (x : SectorWrite) : Prop :=
  (∀ v ∈ x.rejected, v.fits p ∧ rejects v) ∧ x.last.fits p ∧ x.rejected.length < p.writeBudget ∧
    (x.last.code = -2 → x.rejected.length + 1 = p.writeBudget)

/-- The answers. -/
def SectorWrite.bytes (x : SectorWrite) : List Byte := x.rejected.flatMap WriteScript.bytes ++ x.last.bytes

/-- The events. -/
def SectorWrite.events (addr : Word) (payload : List Byte) (x : SectorWrite) : List BusEvent :=
  x.rejected.flatMap (fun v => v.events addr payload) ++ x.last.events addr payload

/-- The log records, oldest first: one per attempt that failed (R275). -/
def SectorWrite.records (sector : Word) (payload : List Byte) (x : SectorWrite) : List LogRecord :=
  x.rejected.map (sentRecord sector payload) ++ if x.last.code = 0 then [] else [x.last.record sector payload]

/-- The log after these records were appended in order. -/
def logAll (rs : List LogRecord) (s : State) : Log := (rs.foldl (fun u r => logAppend r u) s).log

/-- The i-th sector of a range (R193). -/
def sectorAt (sector : Word) (i : Nat) : Word := sector + BitVec.ofNat 32 i

/-- The events of consecutive sector reads. -/
def rangeReadEvents (c : CapClass) (sector : Word) (rs : List ReadAttempt) : List BusEvent :=
  (rs.mapIdx fun i r => r.events 17 (translateSector c (sectorAt sector i))).flatten

/-- The events of consecutive sector writes out of the buffer from `buf` on. -/
def rangeWriteEvents (s : State) (buf : Nat) (sector : Word) (ws : List SectorWrite) : List BusEvent :=
  (ws.mapIdx fun i w =>
    w.events (translateSector s.session.capClass (sectorAt sector i)) (blockAt s (buf + sectorSize * i))).flatten

/-- Their log records, oldest first. -/
def rangeWriteRecords (s : State) (buf : Nat) (sector : Word) (ws : List SectorWrite) : List LogRecord :=
  (ws.mapIdx fun i w => w.records (sectorAt sector i) (blockAt s (buf + sectorSize * i))).flatten

/-! ### Frames on the bus -/

/-- The bytes sent from here to the next event that is no Xfer. -/
def sentBytes : List BusEvent → List Byte
  | .xfer out _ :: rest => out :: sentBytes rest
  | _ => []

/-- The frame sent after the card was selected: the six bytes from the first one that is not idle on (R134, R135); fewer
where a reset cut it short, none where the bus was never seen idle. -/
def frameAfter (evs : List BusEvent) : List Byte := ((sentBytes evs).dropWhile (fun b => b == idleByte)).take 6

/-- The commands of one fixed argument, and ACMD41 with the HCS bit clear and set (R92, R93). -/
def fixedCommands : List (BitVec 6 × Word) :=
  [(0, 0x00000000#32), (1, 0x00000000#32), (8, 0x000001AA#32), (16, 0x00000200#32), (41, 0x00000000#32),
    (41, 0x40000000#32), (55, 0x00000000#32), (58, 0x00000000#32), (59, 0x00000001#32)]

/-- The block issues this index with this argument (R92, R93): a fixed command, or a single-block read or write at any
address. It never issues CMD18 (R147). -/
abbrev issues (idx : BitVec 6) (arg : Word) : Prop := (idx, arg) ∈ fixedCommands ∨ idx = 17 ∨ idx = 24

/-- After every selection of the card in these events, in time order, what is sent is the frame of an index and an
argument the block issues, or the beginning of one. -/
def framesWithin (evs : List BusEvent) : Prop :=
  ∀ pre post, evs = pre ++ .assertCS :: post → ∃ idx arg, issues idx arg ∧ frameAfter post <+: commandBytes idx arg

/-! ### Negotiations -/

/-- CMD0 ended in a way that counts against the bound: a bad echo, or a status other than idle (R234). -/
def retried (r : Result) : Prop := r ≠ .status 0x01#8 ∧ ∀ k, r = .err k → k = .transmissionInterrupted

/-- The card's answers in Probing: the power-up bytes, the attempts at CMD0 that are repeated, and the one answered with
idle (R232, R234). -/
structure PowerScript where
  powerup : List Byte
  tries : List Exchange
  idle : CmdScript
  deriving DecidableEq, Repr

/-- The attempts stay within the bounds. -/
def PowerScript.fits (q : PowerScript) (p : Params) : Prop :=
  q.powerup.length = p.nPowerup ∧ (∀ x ∈ q.tries, x.fits p ∧ retried x.result) ∧ q.tries.length < p.nResetAttempts ∧
    q.idle.fits p ∧ q.idle.status = 0x01#8

/-- The events of the power-up (R232). -/
def powerEvents (powerup : List Byte) : List BusEvent :=
  [BusEvent.setClock .slow, BusEvent.deassertCS] ++ idleEvents powerup

/-- The answers. -/
def PowerScript.bytes (q : PowerScript) : List Byte := q.powerup ++ q.tries.flatMap Exchange.bytes ++ q.idle.bytes

/-- The events. -/
def PowerScript.events (q : PowerScript) : List BusEvent :=
  powerEvents q.powerup ++ q.tries.flatMap (fun x => x.events 0 0) ++ q.idle.events 0 0

/-- The card's answers from Probing to the end of VoltageCheck: Probing's, and CMD8's; `echo` is CMD8's payload where it
has one (R236). -/
structure ProbeScript where
  power : PowerScript
  ifCond : CmdScript
  echo : Word
  deriving DecidableEq, Repr

/-- Probing succeeds, and CMD8 is answered with the illegal bit (SD v1) or with the right echo (SD v2). -/
def ProbeScript.fits (q : ProbeScript) (p : Params) : Prop :=
  q.power.fits p ∧ q.ifCond.fits p ∧ (illegal q.ifCond.status = true ∨ echoMatches q.echo = true)

/-- The card generation found (R236). -/
def ProbeScript.gen (q : ProbeScript) : CardGen := if illegal q.ifCond.status then .sdv1 else .sdv2

/-- The HCS bit of its ACMD41: set for SD v2 only (R93). -/
def ProbeScript.hcs (q : ProbeScript) : Bool := !illegal q.ifCond.status

/-- The answers. -/
def ProbeScript.bytes (q : ProbeScript) : List Byte := q.power.bytes ++ q.ifCond.fullBytes q.echo

/-- The events. -/
def ProbeScript.events (q : ProbeScript) : List BusEvent :=
  q.power.events ++ q.ifCond.fullEvents 8 cmd8Argument q.echo

/-- The card's part in one iteration of IdleWait (R238). -/
inductive Iteration where
  /-- CMD1, for a card found to be an MMC. -/
  | legacy (x : Exchange)
  /-- CMD55 ends in an error or is called illegal, so that CMD41 is not sent (R138). -/
  | stopped (x : Exchange)
  /-- CMD55 and then CMD41. -/
  | app (c : CmdScript) (x : Exchange)
  deriving DecidableEq, Repr

/-- What the iteration ends in. -/
def Iteration.result : Iteration → Result
  | .legacy x => x.result
  | .stopped x => x.result
  | .app _ x => x.result

/-- The card generation `g` takes this iteration, and the answers stay within the bounds. -/
def Iteration.fits (p : Params) (g : CardGen) : Iteration → Prop
  | .legacy x => g = .mmc ∧ x.fits p
  | .stopped x => g ≠ .mmc ∧ x.fits p ∧ ∀ b, x.result = .status b → illegal b = true
  | .app c x => g ≠ .mmc ∧ c.fits p ∧ illegal c.status = false ∧ x.fits p

/-- The card generation after an iteration: an illegal bit makes it MMC (R239). -/
def nextGen (g : CardGen) (i : Iteration) : CardGen := if i.result.isIllegal then .mmc else g

/-- The card generation after these iterations. -/
def genAfter (g : CardGen) (is : List Iteration) : CardGen := is.foldl nextGen g

/-- Each iteration is one of the card generation then found. -/
def iterationsFit (p : Params) : CardGen → List Iteration → Prop
  | _, [] => True
  | g, i :: is => i.fits p g ∧ iterationsFit p (nextGen g i) is

/-- The answers. -/
def Iteration.bytes : Iteration → List Byte
  | .legacy x => x.bytes
  | .stopped x => x.bytes
  | .app c x => c.bytes ++ x.bytes

/-- The events, with this HCS bit. -/
def Iteration.events (hcs : Bool) : Iteration → List BusEvent
  | .legacy x => x.events 1 0
  | .stopped x => x.events 55 0
  | .app c x => c.events 55 0 ++ x.events 41 (if hcs then 0x40000000#32 else 0#32)

/-- The log record of a negotiation that ends after this iteration: the last transaction started, its result (R246). -/
def Iteration.record (hcs : Bool) (i : Iteration) : LogRecord :=
  match i with
  | .legacy x => ⟨1, x.result.code, 0, 0, 0⟩
  | .stopped x => ⟨55, x.result.code, 0, 0, 0⟩
  | .app _ x => ⟨41, x.result.code, if hcs then 0x40000000#32 else 0#32, 0, 0⟩

/-- The answers from CapacityCheck to the end of Configuring (R241, R244). -/
structure ConfigScript where
  readOcr : CmdScript
  ocr : Word
  blockLen : CmdScript
  crcOn : CmdScript
  deriving DecidableEq, Repr

/-- The OCR comes and shows a supported voltage, CMD16 and CMD59 succeed. -/
abbrev ConfigScript.fits (q : ConfigScript) (p : Params) : Prop :=
  q.readOcr.fits p ∧ illegal q.readOcr.status = false ∧ voltageOk q.ocr = true ∧ q.blockLen.fits p ∧
    q.blockLen.status = 0x00#8 ∧ q.crcOn.fits p ∧ q.crcOn.status = 0x00#8

/-- The answers. -/
def ConfigScript.bytes (q : ConfigScript) : List Byte :=
  q.readOcr.payloadBytes q.ocr ++ q.blockLen.bytes ++ q.crcOn.bytes

/-- The events, with the switch to the fast clock (R245). -/
def ConfigScript.events (q : ConfigScript) : List BusEvent :=
  q.readOcr.payloadEvents 58 0 q.ocr ++ q.blockLen.events 16 cmd16Argument ++ q.crcOn.events 59 cmd59Argument ++
    [BusEvent.setClock .fast]

/-- The card's part in a VoltageCheck that faults (R235, R236). -/
inductive VoltageFault where
  /-- CMD8 ends in an error. -/
  | failed (x : Exchange)
  /-- CMD8's echo is not the one sent. -/
  | echo (c : CmdScript) (payload : Word)
  deriving DecidableEq, Repr

/-- The answers end VoltageCheck in that way. -/
def VoltageFault.fits (p : Params) : VoltageFault → Prop
  | .failed x => x.fits p ∧ ∀ b, x.result ≠ .status b
  | .echo c e => c.fits p ∧ illegal c.status = false ∧ e &&& 0xFFF#32 ≠ 0x1AA#32

/-- The fault code and the result of CMD8 in the log. -/
def VoltageFault.codes : VoltageFault → Code × Code
  | .failed x => (x.result.code, x.result.code)
  | .echo c _ => (-5, c.status.setWidth 16)

/-- The answers. -/
def VoltageFault.bytes : VoltageFault → List Byte
  | .failed x => x.bytes
  | .echo c e => c.payloadBytes e

/-- The events. -/
def VoltageFault.events : VoltageFault → List BusEvent
  | .failed x => x.events 8 cmd8Argument
  | .echo c e => c.payloadEvents 8 cmd8Argument e

/-- The card's part from CapacityCheck to a fault (R241, R242, R244). -/
inductive ConfigFault where
  /-- CMD58 ends in an error or is called illegal. -/
  | readOcr (x : Exchange)
  /-- The OCR shows no supported voltage. -/
  | voltage (c : CmdScript) (ocr : Word)
  /-- CMD16 ends in something other than the status 0x00. -/
  | blockLen (c : CmdScript) (ocr : Word) (x : Exchange)
  /-- CMD59 ends in something other than the status 0x00. -/
  | crcOn (c : CmdScript) (ocr : Word) (b : CmdScript) (x : Exchange)
  deriving DecidableEq, Repr

/-- CMD58 answered with a good OCR. -/
abbrev goodOcr (p : Params) (c : CmdScript) (ocr : Word) : Prop :=
  c.fits p ∧ illegal c.status = false ∧ voltageOk ocr = true

/-- The answers end the negotiation in that way. -/
def ConfigFault.fits (p : Params) : ConfigFault → Prop
  | .readOcr x => x.fits p ∧ ∀ b, x.result = .status b → illegal b = true
  | .voltage c ocr => c.fits p ∧ illegal c.status = false ∧ ocr &&& 0x00FF8000#32 = 0#32
  | .blockLen c ocr x => goodOcr p c ocr ∧ x.fits p ∧ x.result ≠ .status 0x00#8
  | .crcOn c ocr b x => goodOcr p c ocr ∧ b.fits p ∧ b.status = 0x00#8 ∧ x.fits p ∧ x.result ≠ .status 0x00#8

/-- The fault code of a command that fails: its error's, or Generic for a status. -/
def commandFault : Result → Code
  | .err k => k.code
  | .status _ => -8

/-- The capacity class a card of this generation shows in its OCR (R243). -/
def shownCapacity (g : CardGen) (ocr : Word) : CapClass := if g ≠ .mmc ∧ ocr.getLsbD 30 = true then .high else .standard

/-- The fault code, the capacity class left and the log record (R246). -/
def ConfigFault.outcome (g : CardGen) : ConfigFault → Code × CapClass × LogRecord
  | .readOcr x => (commandFault x.result, .standard, ⟨58, x.result.code, 0, 0, 0⟩)
  | .voltage c _ => (-6, .standard, ⟨58, c.status.setWidth 16, 0, 0, 0⟩)
  | .blockLen _ ocr x => (commandFault x.result, shownCapacity g ocr, ⟨16, x.result.code, 0x200#32, 0, 0⟩)
  | .crcOn _ ocr _ x => (commandFault x.result, shownCapacity g ocr, ⟨59, x.result.code, 0x1#32, 0, 0⟩)

/-- The answers. -/
def ConfigFault.bytes : ConfigFault → List Byte
  | .readOcr x => x.bytes
  | .voltage c ocr => c.payloadBytes ocr
  | .blockLen c ocr x => c.payloadBytes ocr ++ x.bytes
  | .crcOn c ocr b x => c.payloadBytes ocr ++ b.bytes ++ x.bytes

/-- The events. -/
def ConfigFault.events : ConfigFault → List BusEvent
  | .readOcr x => x.events 58 0
  | .voltage c ocr => c.payloadEvents 58 0 ocr
  | .blockLen c ocr x => c.payloadEvents 58 0 ocr ++ x.events 16 cmd16Argument
  | .crcOn c ocr b x => c.payloadEvents 58 0 ocr ++ b.events 16 cmd16Argument ++ x.events 59 cmd59Argument

/-- Everything outside the session registers, the log and the transport is as it was, and the one response due was
delivered with this result. -/
def startupDone (s t : State) (result : Code) : Prop :=
  t.responses = ⟨s.sync.caller, ⟨result, false, [], 0⟩⟩ :: s.responses ∧ t.params = s.params ∧ t.mem = s.mem ∧
    t.noAccess = s.noAccess ∧ t.sync = ⟨none, none, s.sync.requests, s.sync.caller⟩ ∧
    t.env.arrivals = s.env.arrivals ∧ t.env.order = s.env.order ∧ t.env.picks = s.env.picks

/-- `B_cmd` of R247: the most Xfer events of one Command. -/
def commandBound (p : Params) : Nat := p.nReadyPoll + 6 + p.nRespPoll + 4 + 1

/-- The bound of R247 on the Xfer events of one STARTUP. -/
def startupBound (p : Params) : Nat :=
  p.nPowerup + commandBound p * (p.nResetAttempts + 1 + 2 * p.nIdleWait + 1 + 2)

/-! ### The invariant -/

/-- The codes `FAULT_CODE` can hold in `Faulted` (R25). -/
def faultCodes : List Code := [-1, -3, -4, -5, -6, -8]

/-- The session registers between two requests: no negotiation phase is on (R24), the clock is fast exactly in
`Ready` (R28, R245, R383), `FAULT_CODE` is a code of R25 exactly in `Faulted`, the capacity class is Standard before a
negotiation and in `Ready` with an MMC card (R26, R243). -/
def sessionInv (r : Session) : Prop :=
  (r.state = .uninitialized ∨ r.state = .ready ∨ r.state = .faulted) ∧
  (r.clkMode = .fast ↔ r.state = .ready) ∧
  (r.state = .faulted → r.faultCode ∈ faultCodes) ∧ (r.state ≠ .faulted → r.faultCode = 0) ∧
  (r.state = .uninitialized → r.capClass = .standard) ∧
  (r.state = .ready → r.cardGen = .mmc → r.capClass = .standard)

/-- The log stays within its capacity; records are dropped only by a full log; without a log there is nothing (R32,
R34). -/
def logInv (p : Params) (l : Log) : Prop :=
  (p.logEnabled = true → l.records.length ≤ p.logCap ∧ (l.drops ≠ 0 → l.records.length = p.logCap)) ∧
  (p.logEnabled = false → l = ⟨[], 0⟩)

/-- With the lock free no request is in service and the card is not selected (R22, R29, R36). -/
def lockInv (s : State) : Prop :=
  (s.sync.lock = none ↔ s.sync.active = none) ∧ (s.sync.lock = none → s.cs = false)

/-- Each agent has at most one request outstanding: no two of those waiting are one agent's, and the owner of the lock
has none waiting (R301). -/
def portInv (s : State) : Prop :=
  (s.sync.requests.map Presented.agent).Nodup ∧
    ∀ a, s.sync.lock = some a → a ∉ s.sync.requests.map Presented.agent

/-- Memory is in its canonical form and inside the address space (R60). -/
def memInv (s : State) : Prop :=
  memWf s.mem = true ∧ ∀ c ∈ s.mem, c.1 < 2 ^ s.params.bufAddrW

/-- The invariant of the machine between steps. -/
def machineInv (s : State) : Prop :=
  sessionInv s.session ∧ logInv s.params s.log ∧ lockInv s ∧ portInv s ∧ memInv s

end Sys2Proof.Machine
end

