-- ==== Sys2Proof/Certificates/Slice0/Obligations.lean ====
section
/-!
DEFINITION. The statements about the machine, each from the rules of spec/ its docstring names.
-/

open Sys2Proof Sys2Proof.Machine

/-! ### Reset and configuration -/

/-- R50: the reset table. CARD_GEN and the working registers are unspecified there, so nothing is said of them. -/
def Obligations.ResetSetsTheTable : Prop :=
  State.reset.session.state = .uninitialized ∧ State.reset.session.faultCode = 0 ∧
  State.reset.session.capClass = .standard ∧ State.reset.session.clkMode = .slow ∧
  State.reset.trace = [.setClock .slow] ∧ State.reset.cs = false ∧ State.reset.sync.lock = none ∧
  State.reset.sync.requests = [] ∧ State.reset.log.records = [] ∧ State.reset.log.drops = 0 ∧
  State.reset.session.state.isReady = false

/-- R370: the reset input sets the registers of R50, abandons the request in service and the waiting ones without a
response, issues SetClock(F_SLOW) and no Xfer; what was done stands. That memory and the bytes drawn stay is U22's
reading (log entry 15). -/
def Obligations.ResetInputAbandonsEverything : Prop :=
  ∀ s : State,
    let t := assertReset s
    t.session.state = .uninitialized ∧ t.session.faultCode = 0 ∧ t.session.capClass = .standard ∧
    t.session.clkMode = .slow ∧ t.cs = false ∧ t.log.records = [] ∧ t.log.drops = 0 ∧ t.sync.lock = none ∧
    t.sync.active = none ∧ t.sync.requests = [] ∧ t.trace = .setClock .slow :: s.trace ∧
    t.env.drawn = s.env.drawn ∧ t.responses = s.responses ∧ t.mem = s.mem

/-- R370, U22: a reset that lands while an instruction works ends it: no response is delivered, the session is that of
reset, the lock is free and nothing waits. When the reset lands is the model's list of arrivals (log entry 5); that
CARD_GEN is then MMC, which R50 leaves unspecified, is the model's choice (log entries 2 and 15). -/
def Obligations.ResetInMidRequestGivesNoResponse : Prop :=
  ∀ (i : Instr) (s t : State) (n : Nat), s.env.arrivals = [(n, .reset)] → exec i s = .next t →
    t.env.arrivals = [] →
    t.responses = s.responses ∧ t.session = Session.reset ∧ t.cs = false ∧ t.log = ⟨[], 0⟩ ∧
      t.sync.lock = none ∧ t.sync.requests = []

/-- R8: a configuration that breaks a constraint of the parameter table is refused, and only such a one; the three fixed
values of the table. -/
def Obligations.BadConfigurationIsRefused : Prop :=
  (∀ s : State,
    (step s = .refused .badConfiguration ↔
      ¬ (10 ≤ s.params.nPowerup ∧ 1 ≤ s.params.nResetAttempts ∧ 1 ≤ s.params.nIdleWait ∧ 1 ≤ s.params.nReadyPoll ∧
        1 ≤ s.params.nRespPoll ∧ 1 ≤ s.params.nTokenPoll ∧ 1 ≤ s.params.nBusyPoll ∧ 1 ≤ s.params.writeBudget ∧
        (s.params.logEnabled = true → 1 ≤ s.params.logCap) ∧ s.params.fSlow ≤ 400000 ∧ 0 < s.params.fFast ∧
        10 ≤ s.params.bufAddrW))) ∧
  sectorSize = 512 ∧ ocrVoltageMask = 0x00FF8000#32 ∧ dataRespMask = 0x1F#8

/-! ### Encodings -/

/-- R90, R63, R64: the 48 bits of a frame, field by field, and their order on the wire. -/
def Obligations.FrameHasTheFieldsOfR90 : Prop :=
  ∀ (idx : BitVec 6) (arg : Word),
    let f := encodeFrame idx arg
    f.getLsbD 47 = false ∧ f.getLsbD 46 = true ∧ f.extractLsb' 40 6 = idx ∧ f.extractLsb' 8 32 = arg ∧
    f.extractLsb' 1 7 = crc7 [f.extractLsb' 40 8, f.extractLsb' 32 8, f.extractLsb' 24 8, f.extractLsb' 16 8,
      f.extractLsb' 8 8] ∧
    f.getLsbD 0 = true ∧
    commandBytes idx arg = [0x40#8 ||| idx.setWidth 8, arg.extractLsb' 24 8, arg.extractLsb' 16 8,
      arg.extractLsb' 8 8, arg.extractLsb' 0 8, (frameCrc idx arg).setWidth 8 <<< 1 ||| 1#8] ∧
    (commandBytes idx arg).flatMap wireBits = (List.range 48).map (fun i => f.getLsbD (47 - i))

/-- R130, R131, R200, R201: CRC-7 and CRC-16 are linear over GF(2) for lists of equal length, and have the check values
of the two rules and of sections 2.1 and 2.6 of 95_test_vectors.md (C1 to C6, D1 to D8). -/
def Obligations.ChecksumsAreLinearWithTheirCheckValues : Prop :=
  (∀ a b : List Byte, a.length = b.length →
    crc7 (List.zipWith (· ^^^ ·) a b) = crc7 a ^^^ crc7 b ∧
    crc16 (List.zipWith (· ^^^ ·) a b) = crc16 a ^^^ crc16 b) ∧
  crc7 [] = 0x00#7 ∧
  crc7 [0x31, 0x32, 0x33, 0x34, 0x35, 0x36, 0x37, 0x38, 0x39] = 0x75#7 ∧
  crc7 [0x40, 0x00, 0x00, 0x00, 0x00] = 0x4A#7 ∧
  crc7 [0x48, 0x00, 0x00, 0x01, 0xAA] = 0x43#7 ∧
  crc7 [0x77, 0x00, 0x00, 0x00, 0x00] = 0x32#7 ∧
  crc7 [0x7F, 0xFF, 0xFF, 0xFF, 0xFF] = 0x0C#7 ∧
  crc16 [0x31, 0x32, 0x33, 0x34, 0x35, 0x36, 0x37, 0x38, 0x39] = 0x31C3#16 ∧
  crc16 (List.replicate 512 0x00#8) = 0x0000#16 ∧
  crc16 (List.replicate 512 0xFF#8) = 0x7FA1#16 ∧
  crc16 ((List.range 512).map (BitVec.ofNat 8)) = 0x40DA#16 ∧
  crc16 (List.replicate 512 0xA5#8) = 0x42BE#16 ∧
  crc16 (0x01#8 :: List.replicate 511 0x00#8) = 0x8AA0#16 ∧
  crc16 (List.replicate 511 0x00#8 ++ [0x01#8]) = 0x1021#16 ∧
  crc16 (List.replicate 512 0x55#8) = 0xDA80#16

/-- Some frames of section 2.2 of 95_test_vectors.md, byte by byte, decode to their commands; bytes with a wrong start
bit, end bit, index, argument or checksum are no frame of the table; the sixteen values of `op` decode as R300 says. -/
def Obligations.WrittenOutWordsDecode : Prop :=
  decode (.frame [0x40, 0x00, 0x00, 0x00, 0x00, 0x95] 0) = .ok .cmd0 ∧
  decode (.frame [0x48, 0x00, 0x00, 0x01, 0xAA, 0x87] 0) = .ok .cmd8 ∧
  decode (.frame [0x51, 0x00, 0x00, 0x06, 0x00, 0x21] 7) = .ok (.cmd17 0x600 7) ∧
  decode (.frame [0x58, 0x12, 0x34, 0x56, 0x78, 0x67] 7) = .ok (.cmd24 0x12345678 7) ∧
  decode (.frame [0x69, 0x40, 0x00, 0x00, 0x00, 0x77] 0) = .ok .acmd41Hcs1 ∧
  decode (.frame [0x69, 0x00, 0x00, 0x00, 0x00, 0xE5] 0) = .ok .acmd41Hcs0 ∧
  decode (.frame [0xC0, 0x00, 0x00, 0x00, 0x00, 0x95] 0) = .error .badFraming ∧
  decode (.frame [0x40, 0x00, 0x00, 0x00, 0x00, 0x94] 0) = .error .badEndBit ∧
  decode (.frame [0x4C, 0x00, 0x00, 0x00, 0x00, 0x61] 0) = .error .unknownCommand ∧
  decode (.frame [0x48, 0x00, 0x00, 0x01, 0xAB, 0x87] 0) = .error .badArgument ∧
  decode (.frame [0x40, 0x00, 0x00, 0x00, 0x00, 0x93] 0) = .error .badChecksum ∧
  ∀ (buf : Nat) (sector count : Word),
    (List.range 16).map (fun op => decode (.request ⟨BitVec.ofNat 4 op, buf, sector, count⟩)) =
      [.ok .initSession, .ok .startup, .ok .isReady, .ok (.readSector buf sector),
       .ok (.readRange buf sector count), .ok (.writeSector buf sector), .ok (.writeRange buf sector count),
       .ok .dumpDiagnostics, .ok .clearDiagnostics, .ok .reserved9, .ok .reservedA, .ok .reservedB,
       .ok .reservedC, .ok .reservedD, .ok .reservedE, .ok .reservedF]

/-- Decoding an encoded instruction gives it back, for every instruction and every operand (R92, R100). A frame's
buffer base and the 4-bit `op` are the port item's (log entries 8 and 13). -/
def Obligations.DecodeOfEncodeIsIdentity : Prop :=
  ∀ i : Instr, decode (encode i) = .ok i

/-- Encoding what was decoded gives back every port item whose CRC-7 is right and whose unused fields are 0 (R90,
R42). The port items are the model's (log entry 8); the CRC-7 premise is there for log entry 9. -/
def Obligations.EncodeOfDecodeIsIdentity : Prop :=
  ∀ (p : PortItem) (i : Instr), p.canonical = true → decode p = .ok i → encode i = p

/-- R190, R192: a standard-capacity card gets the byte offset mod 2^32, so distinct sectors below 2^23 have distinct
addresses and `s` and `s + 2^23` the same one; a high-capacity card gets the sector itself. -/
def Obligations.TranslateGivesOffsetOrIndex : Prop :=
  (∀ s : Word, (translateSector .standard s).toNat = s.toNat * 512 % 2 ^ 32 ∧ translateSector .high s = s) ∧
  (∀ a b : Word, a.toNat < 2 ^ 23 → b.toNat < 2 ^ 23 →
    translateSector .standard a = translateSector .standard b → a = b) ∧
  (∀ a : Word, translateSector .standard (a + 0x00800000#32) = translateSector .standard a)

/-! ### The step -/

/-- R300, R301: when the choice of what comes next is an item that decodes to an instruction, the step is `exec` of
that instruction in the state in which the item has left the waiting list and its agent is the caller; the choice
itself touches nothing else but the two fields of the service order. A presented CMD18 is refused by name (R147, U15).
One step per request is the model's choice (log entries 6 and 19). -/
def Obligations.StepRunsTheDecodedInstruction : Prop :=
  ∀ (s s' : State) (p : Presented) (i : Instr), s.params.ok = true → nextChoice s = .serve p s' →
    decode p.item = .ok i →
    step s = (if neverIssued i then .refused .neverIssued else exec i s') ∧ p ∈ s.sync.requests ∧
      s' = { s with
        sync := ⟨s.sync.lock, s.sync.active, s.sync.requests.erase p, p.agent⟩
        env.order := s'.env.order, env.picks := s'.env.picks }

/-- A single presented item with a free lock and nothing arriving is what the step serves (R301), but for CMD18, which
it refuses by name (R147, U15). One step per request is the model's choice (log entry 19). -/
def Obligations.SinglePresentedItemIsServed : Prop :=
  ∀ (s : State) (p : Presented) (i : Instr), s.params.ok = true → undisturbed s → s.sync.requests = [p] →
    s.env.order = [] → decode p.item = .ok i →
    step s = if neverIssued i then .refused .neverIssued else exec i (handOver p s)

/-- R71: with a free lock every waiting item can be the next one served: some service order serves it. -/
def Obligations.EveryWaitingItemCanBeNext : Prop :=
  ∀ (s : State) (p : Presented), s.sync.lock = none → p ∈ s.sync.requests →
    ∃ k s', nextChoice { s with env.order := k :: s.env.order } = .serve p s'

/-- R71: an instruction that needs the lock while another request holds it waits: it joins the waiting list and
nothing else changes. The waiting list at the port is the model's (log entries 5 and 6); it holds for the frame rows
by log entry 8. -/
def Obligations.HeldLockMakesARequestWait : Prop :=
  ∀ (i : Instr) (s : State) (owner : Nat), takesLock i = true → i.wellFormed s.params.bufAddrW = true →
    s.sync.lock = some owner →
    exec i s = .next { s with sync.requests := s.sync.requests ++ [⟨s.sync.caller, encode i⟩] }

/-! ### Requests without the card -/

/-- R304: IS_READY returns the ready output and result 0, whoever holds the lock, and changes nothing. -/
def Obligations.IsReadyReportsTheReadyOutput : Prop :=
  ∀ s : State, exec .isReady s =
    .next { s with
      responses := ⟨s.sync.caller, ⟨0, decide (s.session.state = .ready), [], 0⟩⟩ :: s.responses }

/-- R102: a reserved request code completes at once with result -8 and no other effect. -/
def Obligations.ReservedCodesGiveGeneric : Prop :=
  ∀ i ∈ [Instr.reserved9, .reservedA, .reservedB, .reservedC, .reservedD, .reservedE, .reservedF], ∀ s : State,
    exec i s = .next { s with responses := ⟨s.sync.caller, ⟨-8, false, [], 0⟩⟩ :: s.responses }

/-- R302, R303: INITIALIZE from any session: the registers, the two transport events, no Xfer, the log kept. That
CARD_GEN keeps its value is the model's choice (log entry 21): R27, R372 and U1 call it unspecified. -/
def Obligations.InitializeClearsTheSession : Prop :=
  ∀ s : State, undisturbed s → ∃ t, exec .initSession s = .next t ∧
    t.session = ⟨.uninitialized, 0, .standard, s.session.cardGen, .slow⟩ ∧
    busMoved s t 0 s.env.cardIn [.setClock .slow, .deassertCS] ∧ t.log = s.log ∧ startupDone s t 0

/-- R305: DUMP_DIAGNOSTICS reports records and drops and clears both; without a log it reports nothing. -/
def Obligations.DumpReportsAndClearsTheLog : Prop :=
  ∀ s : State, undisturbed s → ∃ t, exec .dumpDiagnostics s = .next t ∧
    t.responses = ⟨s.sync.caller, ⟨0, false, if s.params.logEnabled then s.log.records else [],
      if s.params.logEnabled then s.log.drops else 0⟩⟩ :: s.responses ∧
    t.log = ⟨[], 0⟩ ∧ keepsSession s t ∧ t.mem = s.mem ∧ t.trace = s.trace ∧ t.cs = s.cs ∧
    t.env.drawn = s.env.drawn

/-- R306: CLEAR_DIAGNOSTICS empties the log and the counter and reports neither; without a log nothing changes but the
lock taken and freed. -/
def Obligations.ClearDiscardsTheLog : Prop :=
  ∀ s : State, undisturbed s → ∃ t, exec .clearDiagnostics s = .next t ∧ requestDone s t 0 ∧ t.log = ⟨[], 0⟩ ∧
    t.mem = s.mem ∧ t.trace = s.trace ∧ t.cs = s.cs ∧ t.env.drawn = s.env.drawn ∧
    (s.params.logEnabled = false → logInv s.params s.log → t.log = s.log)

/-- R34: after any appends to an empty log, it holds the earliest `LOG_CAP` records, and the counter the number of the
others, saturating; without a log nothing changes. -/
def Obligations.FullLogKeepsTheEarliestRecords : Prop :=
  ∀ (rs : List LogRecord) (s : State),
    (s.params.logEnabled = true → s.log = ⟨[], 0⟩ →
      (rs.foldl (fun t r => logAppend r t) s).log =
        ⟨rs.take s.params.logCap, BitVec.ofNat 32 (min (rs.length - s.params.logCap) 0xFFFFFFFF)⟩) ∧
    (s.params.logEnabled = false → rs.foldl (fun t r => logAppend r t) s = s)

/-! ### Command frames -/

/-- R139 to R141, R143, R146, R150: a command answered by R1 alone: the frame goes out, the first byte other than 0xFF
is R1 and the result, and nothing outside the transport and the working registers changes. That a frame is run by
itself, with its result in RESULT, is the model's choice (log entries 8 and 11). -/
def Obligations.OneByteCommandsReturnTheirStatus : Prop :=
  ∀ (i : Instr) (idx : BitVec 6) (arg : Word), (i, idx, arg) ∈ r1Commands →
    ∀ (s : State) (c : CmdScript) (rest : List Byte), undisturbed s → c.fits s.params →
      s.env.cardIn = c.bytes ++ rest →
      ∃ t, exec i s = .next t ∧ busMoved s t c.bytes.length rest (c.events idx arg) ∧ t.work.r1 = c.status ∧
        commandDone s t idx arg (.status c.status)

/-- R142, R149, R163: CMD8 and CMD58 receive four more bytes into PAYLOAD, big-endian, when R1's illegal bit is clear.
That a frame is run by itself, with its result in RESULT, is the model's choice (log entries 8 and 11). -/
def Obligations.PayloadCommandsReceiveFourBytes : Prop :=
  ∀ (i : Instr) (idx : BitVec 6) (arg : Word), (i, idx, arg) ∈ payloadCommands →
    ∀ (s : State) (c : CmdScript) (b3 b2 b1 b0 : Byte) (rest : List Byte), undisturbed s → c.fits s.params →
      illegal c.status = false → s.env.cardIn = c.opening ++ [b3, b2, b1, b0] ++ [c.trail] ++ rest →
      ∃ t, exec i s = .next t ∧
        busMoved s t (c.opening.length + 5) rest
          (c.openEvents idx arg ++ idleEvents [b3, b2, b1, b0] ++ closeEvents c.trail) ∧
        t.work.r1 = c.status ∧ t.work.payload = b3 ++ b2 ++ b1 ++ b0 ∧
        commandDone s t idx arg (.status c.status)

/-- R95, R142: with the illegal bit set, CMD8 and CMD58 receive no payload. That a frame is run by itself, with its
result in RESULT, is the model's choice (log entries 8 and 11). -/
def Obligations.IllegalStatusSkipsThePayload : Prop :=
  ∀ (i : Instr) (idx : BitVec 6) (arg : Word), (i, idx, arg) ∈ payloadCommands →
    ∀ (s : State) (c : CmdScript) (rest : List Byte), undisturbed s → c.fits s.params →
      illegal c.status = true → s.env.cardIn = c.bytes ++ rest →
      ∃ t, exec i s = .next t ∧ busMoved s t c.bytes.length rest (c.events idx arg) ∧ t.work.r1 = c.status ∧
        t.work.payload = s.work.payload ∧ commandDone s t idx arg (.status c.status)

/-- R134, R380: when no polled byte is 0xFF within the bound, no frame is sent and the result is Generic: for every
frame row (ACMD41 in its CMD55). That a frame is run by itself, with its result in RESULT, is the model's choice (log
entries 8 and 11). -/
def Obligations.BusNeverIdleSendsNoFrame : Prop :=
  ∀ (addr : Word) (buf : Nat) (i : Instr) (idx : BitVec 6) (arg : Word),
    (i, idx, arg) ∈ frameCommands addr buf →
    ∀ (s : State) (w : List Byte) (z : Byte) (rest : List Byte), undisturbed s → i.wellFormed s.params.bufAddrW = true →
      (∀ b ∈ w, b ≠ idleByte) → w.length = s.params.nReadyPoll → s.env.cardIn = w ++ z :: rest →
      ∃ t, exec i s = .next t ∧
        busMoved s t (w.length + 1) rest ([.assertCS] ++ idleEvents w ++ closeEvents z) ∧
        commandDone s t idx arg (.err .generic)

/-- R135: all six frame bytes are sent, then an echo other than 0xFF gives TransmissionInterrupted; no response is
polled: for every frame row (ACMD41 in its CMD55). That a frame is run by itself, with its result in RESULT, is the
model's choice (log entries 8 and 11). -/
def Obligations.EchoMismatchInterruptsAfterSixBytes : Prop :=
  ∀ (addr : Word) (buf : Nat) (i : Instr) (idx : BitVec 6) (arg : Word),
    (i, idx, arg) ∈ frameCommands addr buf →
    ∀ (s : State) (w e : List Byte) (z : Byte) (rest : List Byte), undisturbed s →
      i.wellFormed s.params.bufAddrW = true →
      (∀ b ∈ w, b ≠ idleByte) → w.length < s.params.nReadyPoll → e.length = 6 → (∃ b ∈ e, b ≠ idleByte) →
      s.env.cardIn = w ++ [idleByte] ++ e ++ z :: rest →
      ∃ t, exec i s = .next t ∧
        busMoved s t (w.length + 8) rest
          ([.assertCS] ++ idleEvents (w ++ [idleByte]) ++ List.zipWith BusEvent.xfer (commandBytes idx arg) e ++
            closeEvents z) ∧
        commandDone s t idx arg (.err .transmissionInterrupted)

/-- R136, R338: no byte other than 0xFF within the response bound gives Generic, for every frame row (ACMD41 in its
CMD55). That a frame is run by itself, with its result in RESULT, is the model's choice (log entries 8 and 11). -/
def Obligations.NoResponseGivesGeneric : Prop :=
  ∀ (addr : Word) (buf : Nat) (i : Instr) (idx : BitVec 6) (arg : Word),
    (i, idx, arg) ∈ frameCommands addr buf →
    ∀ (s : State) (w : List Byte) (z : Byte) (rest : List Byte), undisturbed s → i.wellFormed s.params.bufAddrW = true →
      (∀ b ∈ w, b ≠ idleByte) → w.length < s.params.nReadyPoll →
      s.env.cardIn = w ++ List.replicate (7 + s.params.nRespPoll) idleByte ++ z :: rest →
      ∃ t, exec i s = .next t ∧
        busMoved s t (w.length + 8 + s.params.nRespPoll) rest
          ([.assertCS] ++ idleEvents (w ++ [idleByte]) ++ frameEvents idx arg ++
            idleEvents (List.replicate s.params.nRespPoll idleByte) ++ closeEvents z) ∧
        commandDone s t idx arg (.err .generic)

/-- R138, R148: ACMD41 is CMD55 and then CMD41 with the HCS bit, two transactions; the result is CMD41's, a status or an
error of its transaction. That a frame is run by itself, with its result in RESULT, is the model's choice (log entries
8 and 11). -/
def Obligations.AppCommandSendsTwoFrames : Prop :=
  ∀ (i : Instr) (hcs : Bool), (i, hcs) ∈ [(Instr.acmd41Hcs1, true), (Instr.acmd41Hcs0, false)] →
    ∀ (s : State) (c : CmdScript) (x : Exchange) (rest : List Byte), undisturbed s → c.fits s.params →
      illegal c.status = false → x.fits s.params → s.env.cardIn = c.bytes ++ x.bytes ++ rest →
      ∃ t, exec i s = .next t ∧
        busMoved s t (c.bytes.length + x.bytes.length) rest
          (c.events 55 0 ++ x.events 41 (if hcs then 0x40000000#32 else 0#32)) ∧
        (∀ b, x.result = .status b → t.work.r1 = b) ∧
        commandDone s t 41 (if hcs then 0x40000000#32 else 0#32) x.result

/-- R138, R103: a CMD55 answered with the illegal bit ends the application command; CMD41 is not sent. That a frame is
run by itself, with its result in RESULT, is the model's choice (log entries 8 and 11). -/
def Obligations.IllegalAnnouncementEndsTheAppCommand : Prop :=
  ∀ i ∈ [Instr.acmd41Hcs1, Instr.acmd41Hcs0], ∀ (s : State) (c : CmdScript) (rest : List Byte), undisturbed s →
    c.fits s.params → illegal c.status = true → s.env.cardIn = c.bytes ++ rest →
    ∃ t, exec i s = .next t ∧ busMoved s t c.bytes.length rest (c.events 55 0) ∧
      commandDone s t 55 0 (.status c.status)

/-- R144, R147, R169, R202, R203: a block read run alone, whatever it ends in: a status other than 0x00 or an error of
CmdBegin ends it without a data phase and is the result; without a data-start token it is Generic; a block that comes is
in the buffer in order, and the result is 0x00 when the received CRC is that of the data, else ChecksumFailed. Every
other byte of memory is as it was. That a frame is run by itself, with its result in RESULT, is the model's choice (log
entries 8 and 11). -/
def Obligations.BlockReadFramesFillTheBuffer : Prop :=
  ∀ (addr : Word) (buf : Nat) (i : Instr) (idx : BitVec 6),
    (i, idx) ∈ [(Instr.cmd17 addr buf, (17 : BitVec 6)), (Instr.cmd18 addr buf, (18 : BitVec 6))] →
    ∀ (s : State) (x : ReadAttempt) (rest : List Byte), undisturbed s → i.wellFormed s.params.bufAddrW = true →
      (x.data = [] ∨ admitsBlock s buf) → memWf s.mem = true → x.fits s.params →
      s.env.cardIn = x.bytes ++ rest →
      ∃ t, exec i s = .next t ∧ busMoved s t x.bytes.length rest (x.events idx addr) ∧
        storesBlock s t buf x.data ∧ t.work.idx = idx ∧ t.work.arg = addr ∧ t.work.result = x.code ∧
        (∀ r, x = .block r → t.work.crc16 = r.crc) ∧ keepsSession s t ∧ t.log = s.log ∧ t.responses = s.responses

/-- R145, R207, R209: a block write run alone, whatever it ends in: a status other than 0x00 or an error of CmdBegin
ends it without a data phase and is the result; after R1 0x00 the gap, the token, the 512 buffer bytes in order and
their CRC go out, their answers ignored, and the result is the data-response token's verdict, and Generic where the
busy poll runs out after an accepted token. Memory is not written. That a frame is run by itself, with its result in
RESULT, is the model's choice (log entries 8 and 11). -/
def Obligations.BlockWriteFrameSendsTheBuffer : Prop :=
  ∀ (addr : Word) (buf : Nat) (s : State) (x : WriteEnd) (rest : List Byte), undisturbed s →
    (Instr.cmd24 addr buf).wellFormed s.params.bufAddrW = true → (∀ w, x = .sent w → admitsBlock s buf) →
    x.fits s.params → s.env.cardIn = x.bytes ++ rest →
    ∃ t, exec (.cmd24 addr buf) s = .next t ∧
      busMoved s t x.bytes.length rest (x.events addr (blockAt s buf)) ∧ t.work.idx = 24 ∧ t.work.arg = addr ∧
      keepsSession s t ∧ t.mem = s.mem ∧ t.log = s.log ∧ t.responses = s.responses ∧
      (∀ y, x = .refused y → t.work.result = y.result.code) ∧
      ∀ w, x = .sent w → t.work.token = w.token ∧ t.work.crc16 = crc16 (blockAt s buf) ∧
        t.work.result =
          (if w.token &&& 0x1F#8 = 0x05#8 then (if w.released then 0 else -8)
            else if w.token &&& 0x1F#8 = 0x0B#8 then -2 else -8)

/-! ### Sector requests -/

/-- R270: outside Ready every sector request returns -7 and does nothing else: no event, no access, no log record. -/
def Obligations.SectorRequestsNeedReady : Prop :=
  ∀ (i : Instr) (s : State), isSectorRequest i = true → i.wellFormed s.params.bufAddrW = true → undisturbed s →
    s.session.state ≠ .ready →
    ∃ t, exec i s = .next t ∧ requestDone s t (-7) ∧ t.mem = s.mem ∧ t.log = s.log ∧ t.trace = s.trace ∧
      t.cs = s.cs ∧ t.env.cardIn = s.env.cardIn ∧ t.env.drawn = s.env.drawn

/-- R60: a range that passes the end of the buffer address space is refused. That the refusal comes before the check
for Ready is the model's choice (log entry 14). -/
def Obligations.RangeBeyondTheBufferSpaceIsRefused : Prop :=
  ∀ (s : State) (buf : Nat) (sector count : Word),
    (2 ^ s.params.bufAddrW < buf + 512 →
      exec (.readSector buf sector) s = .refused .bufferRange ∧
      exec (.writeSector buf sector) s = .refused .bufferRange) ∧
    (2 ^ s.params.bufAddrW < buf + 512 * count.toNat →
      exec (.readRange buf sector count) s = .refused .bufferRange ∧
      exec (.writeRange buf sector count) s = .refused .bufferRange)

/-- R60, U9: a sector request, or a block frame run alone, whose buffer is not admitted at byte j of one of its blocks
is stuck there: it keeps the lock, gets no response and makes no further event. A read has received j + 1 bytes of
that block and stored what came before; a write has sent j and writes no memory. The sectors of a range before it were
read or written. With valid parameters and nothing presented, the next step is the fault by name. The form of the
stuck state is the model's choice (log entry 12); that CMD17, CMD18 and CMD24 are run by themselves, on a buffer of the
frame's own, is the model's choice too (log entry 8): by R44 only the sector requests use the buffer port. -/
def Obligations.UnadmittedBufferLeavesTheRequestStuck : Prop :=
  ∀ (s : State) (i : Instr) (buf j : Nat) (sector count : Word) (rest : List Byte), undisturbed s →
    i.wellFormed s.params.bufAddrW = true → memWf s.mem = true → j < sectorSize →
    (∀ (rs : List ReadAttempt) (r : ReadScript), s.session.state = .ready →
      (i = .readSector buf sector ∧ rs = [] ∨ i = .readRange buf sector count ∧ rs.length < count.toNat) →
      (∀ k < sectorSize * rs.length + j, admits s (buf + k) = true) →
      admits s (buf + (sectorSize * rs.length + j)) = false → (∀ x ∈ rs, x.fits s.params ∧ x.code = 0) →
      r.fits s.params → s.env.cardIn = rs.flatMap ReadAttempt.bytes ++ r.bytes ++ rest →
      ∃ t, exec i s = .next t ∧ stuckIn s t i ∧ t.log = s.log ∧
        stoppedReading s t (rangeReadEvents s.session.capClass sector rs) 17
          (translateSector s.session.capClass (sectorAt sector rs.length)) r j ∧
        storesBlock s t buf (rs.flatMap ReadAttempt.data ++ r.data.take j)) ∧
    (∀ (ws : List SectorWrite) (w : WriteScript), s.session.state = .ready → 1 ≤ s.params.writeBudget →
      (i = .writeSector buf sector ∧ ws = [] ∨ i = .writeRange buf sector count ∧ ws.length < count.toNat) →
      (∀ k < sectorSize * ws.length + j, admits s (buf + k) = true) →
      admits s (buf + (sectorSize * ws.length + j)) = false → (∀ x ∈ ws, x.fits s.params ∧ x.last.code = 0) →
      w.fits s.params → s.env.cardIn = ws.flatMap SectorWrite.bytes ++ w.bytes ++ rest →
      ∃ t, exec i s = .next t ∧ stuckIn s t i ∧ t.log = logAll (rangeWriteRecords s buf sector ws) s ∧
        stoppedWriting s t (rangeWriteEvents s buf sector ws)
          (translateSector s.session.capClass (sectorAt sector ws.length))
          (blockAt s (buf + sectorSize * ws.length)) w j ∧ t.mem = s.mem) ∧
    (∀ (idx : BitVec 6) (r : ReadScript), (i, idx) ∈ [(.cmd17 sector buf, 17), (.cmd18 sector buf, 18)] →
      (∀ k < j, admits s (buf + k) = true) → admits s (buf + j) = false → r.fits s.params →
      s.env.cardIn = r.bytes ++ rest →
      ∃ t, exec i s = .next t ∧ stuckIn s t i ∧ t.log = s.log ∧ stoppedReading s t [] idx sector r j ∧
        storesBlock s t buf (r.data.take j)) ∧
    (∀ w : WriteScript, i = .cmd24 sector buf →
      (∀ k < j, admits s (buf + k) = true) → admits s (buf + j) = false → w.fits s.params →
      s.env.cardIn = w.bytes ++ rest →
      ∃ t, exec i s = .next t ∧ stuckIn s t i ∧ t.log = s.log ∧
        stoppedWriting s t [] sector (blockAt s buf) w j ∧ t.mem = s.mem)

/-- R271, R272, R203: READ_SECTOR in Ready with a block received: one CMD17 with the translated address, the data in
the buffer, everything else in memory as it was; result 0 when the CRC matches, else -2 with one log record. -/
def Obligations.ReadSectorDeliversTheBlock : Prop :=
  ∀ (s : State) (buf : Nat) (sector : Word) (r : ReadScript) (rest : List Byte), undisturbed s →
    s.session.state = .ready → (Instr.readSector buf sector).wellFormed s.params.bufAddrW = true →
    admitsBlock s buf → memWf s.mem = true → r.fits s.params → s.env.cardIn = r.bytes ++ rest →
    ∃ t, exec (.readSector buf sector) s = .next t ∧
      requestDone s t (if r.crc = crc16 r.data then 0 else -2) ∧
      busMoved s t r.bytes.length rest (r.events 17 (translateSector s.session.capClass sector)) ∧
      storesBlock s t buf r.data ∧
      t.log = if r.crc = crc16 r.data then s.log else (logAppend ⟨17, -2, sector, 0, 0⟩ s).log

/-- R271, R272, R169, R330: a status other than 0x00, or an error of the transaction (-1 or -8), is the result, with one
log record and the buffer unchanged. -/
def Obligations.ReadSectorReturnsTheCardStatus : Prop :=
  ∀ (s : State) (buf : Nat) (sector : Word) (x : Exchange) (rest : List Byte), undisturbed s →
    s.session.state = .ready → (Instr.readSector buf sector).wellFormed s.params.bufAddrW = true →
    x.fits s.params → x.result ≠ .status 0x00#8 → s.env.cardIn = x.bytes ++ rest →
    ∃ t, exec (.readSector buf sector) s = .next t ∧ requestDone s t x.result.code ∧
      busMoved s t x.bytes.length rest (x.events 17 (translateSector s.session.capClass sector)) ∧ t.mem = s.mem ∧
      t.log = (logAppend ⟨17, x.result.code, sector, 0, 0⟩ s).log

/-- R202, R271: no data-start token within the bound, or another byte in its place, gives -8 with one log record and
the buffer unchanged. -/
def Obligations.ReadSectorWithoutTokenIsGeneric : Prop :=
  ∀ (s : State) (buf : Nat) (sector : Word) (c : CmdScript) (l rest : List Byte), undisturbed s →
    s.session.state = .ready → (Instr.readSector buf sector).wellFormed s.params.bufAddrW = true →
    c.fits s.params → c.status = 0x00#8 → tokenFailure s.params l →
    s.env.cardIn = c.opening ++ l ++ c.trail :: rest →
    ∃ t, exec (.readSector buf sector) s = .next t ∧ requestDone s t (-8) ∧
      busMoved s t (c.opening.length + l.length + 1) rest
        (c.openEvents 17 (translateSector s.session.capClass sector) ++ idleEvents l ++ closeEvents c.trail) ∧
      t.mem = s.mem ∧ t.log = (logAppend ⟨17, -8, sector, 0, 0⟩ s).log

/-- R278, R193: READ_RANGE of sectors that all verify: one CMD17 per sector at the translated address of
`(s + i) mod 2^32`, block i at `buf + 512 * i`, result 0; with count 0 nothing happens but the response. -/
def Obligations.ReadRangeDeliversEverySector : Prop :=
  ∀ (s : State) (buf : Nat) (sector count : Word) (rs : List ReadAttempt) (rest : List Byte), undisturbed s →
    s.session.state = .ready → (Instr.readRange buf sector count).wellFormed s.params.bufAddrW = true →
    (∀ j < sectorSize * count.toNat, admits s (buf + j) = true) → memWf s.mem = true →
    rs.length = count.toNat → (∀ r ∈ rs, r.fits s.params ∧ r.code = 0) → s.cs = false →
    s.env.cardIn = rs.flatMap ReadAttempt.bytes ++ rest →
    ∃ t, exec (.readRange buf sector count) s = .next t ∧ requestDone s t 0 ∧
      busMoved s t (rs.flatMap ReadAttempt.bytes).length rest (rangeReadEvents s.session.capClass sector rs) ∧
      storesBlock s t buf (rs.flatMap ReadAttempt.data) ∧ t.log = s.log

/-- R278: a range stops at the first sector whose result is not 0, whatever it is (a card status, an error of the
transaction, a missing token, a wrong CRC): exactly f + 1 reads are made, the f blocks before it and what sector f
itself received stay in the buffer, the result and the one log record are the failing sector's. -/
def Obligations.ReadRangeStopsAtTheFirstFailure : Prop :=
  ∀ (s : State) (buf : Nat) (sector count : Word) (rs : List ReadAttempt) (x : ReadAttempt) (rest : List Byte),
    undisturbed s → s.session.state = .ready →
    (Instr.readRange buf sector count).wellFormed s.params.bufAddrW = true →
    (∀ j < sectorSize * count.toNat, admits s (buf + j) = true) → memWf s.mem = true →
    rs.length < count.toNat → (∀ r ∈ rs, r.fits s.params ∧ r.code = 0) → x.fits s.params → x.code ≠ 0 →
    s.env.cardIn = (rs ++ [x]).flatMap ReadAttempt.bytes ++ rest →
    ∃ t, exec (.readRange buf sector count) s = .next t ∧ requestDone s t x.code ∧
      busMoved s t ((rs ++ [x]).flatMap ReadAttempt.bytes).length rest
        (rangeReadEvents s.session.capClass sector (rs ++ [x])) ∧
      storesBlock s t buf ((rs ++ [x]).flatMap ReadAttempt.data) ∧
      t.log = (logAppend ⟨17, x.code, sectorAt sector rs.length, 0, 0⟩ s).log

/-- R274, R275, R276, R277, R279, R209: WRITE_SECTOR makes attempts while they are rejected for their checksum, at most
`WRITE_RETRY_BUDGET`, and stops at the first other result, whatever it is: 0 for an accepted token whose busy period
ends, -8 for another token or a busy timeout after an accepted one, the status other than 0x00 or the error in which
CmdBegin ended, after any number of rejections; -2 where the budget is used up. Each attempt that sends a block is CMD24
at the translated address with the buffer's bytes, and a rejection stands although the busy poll runs out. One log
record per attempt that failed: of the raw token and the computed CRC, or of the status or error with no CRC. Memory is
not written. The buffer is not read where the first attempt sends no block. -/
def Obligations.WriteStopsAtTheFirstOtherResult : Prop :=
  ∀ (s : State) (buf : Nat) (sector : Word) (x : SectorWrite) (rest : List Byte), undisturbed s →
    s.session.state = .ready → (Instr.writeSector buf sector).wellFormed s.params.bufAddrW = true →
    (admitsBlock s buf ∨ x.rejected = [] ∧ ∃ y, x.last = .refused y) → x.fits s.params →
    s.env.cardIn = x.bytes ++ rest →
    ∃ t, exec (.writeSector buf sector) s = .next t ∧ requestDone s t x.last.code ∧
      busMoved s t x.bytes.length rest
        (x.events (translateSector s.session.capClass sector) (blockAt s buf)) ∧ t.mem = s.mem ∧
      t.log = logAll (x.records sector (blockAt s buf)) s

/-- R274, R275, R276: a status other than 0x00 to CMD24, or an error of its transaction (-1 or -8), is the result: one
attempt, no data phase, one log record with zero checksums. -/
def Obligations.WriteSectorReturnsTheCardStatus : Prop :=
  ∀ (s : State) (buf : Nat) (sector : Word) (x : Exchange) (rest : List Byte), undisturbed s →
    s.session.state = .ready → (Instr.writeSector buf sector).wellFormed s.params.bufAddrW = true →
    1 ≤ s.params.writeBudget → x.fits s.params → x.result ≠ .status 0x00#8 → s.env.cardIn = x.bytes ++ rest →
    ∃ t, exec (.writeSector buf sector) s = .next t ∧ requestDone s t x.result.code ∧
      busMoved s t x.bytes.length rest (x.events 24 (translateSector s.session.capClass sector)) ∧ t.mem = s.mem ∧
      t.log = (logAppend ⟨24, x.result.code, sector, 0, 0⟩ s).log

/-- R277: under persistent checksum rejection exactly `WRITE_RETRY_BUDGET` attempts are made, each logged, and the
result is -2, whether or not the card lets the bus go after each of them. -/
def Obligations.RejectedWriteUsesTheWholeBudget : Prop :=
  ∀ (s : State) (buf : Nat) (sector : Word) (ws : List WriteScript) (rest : List Byte), undisturbed s →
    s.session.state = .ready → (Instr.writeSector buf sector).wellFormed s.params.bufAddrW = true →
    1 ≤ s.params.writeBudget → admitsBlock s buf → ws.length = s.params.writeBudget →
    (∀ w ∈ ws, w.fits s.params ∧ rejects w) → s.env.cardIn = ws.flatMap WriteScript.bytes ++ rest →
    ∃ t, exec (.writeSector buf sector) s = .next t ∧ requestDone s t (-2) ∧
      busMoved s t (ws.flatMap WriteScript.bytes).length rest
        (ws.flatMap fun w => w.events (translateSector s.session.capClass sector) (blockAt s buf)) ∧ t.mem = s.mem ∧
      t.log = logAll (ws.map (sentRecord sector (blockAt s buf))) s

/-- R281, R276: WRITE_RANGE of sectors that are all accepted, each at once or after retries within its own budget: the
attempts of every sector in order, block i from `buf + 512 * i`, result 0; memory unchanged; the log holds one record
per rejected attempt. -/
def Obligations.WriteRangeSendsEverySector : Prop :=
  ∀ (s : State) (buf : Nat) (sector count : Word) (ws : List SectorWrite) (rest : List Byte), undisturbed s →
    s.session.state = .ready → (Instr.writeRange buf sector count).wellFormed s.params.bufAddrW = true →
    (∀ j < sectorSize * count.toNat, admits s (buf + j) = true) →
    ws.length = count.toNat → (∀ w ∈ ws, w.fits s.params ∧ w.last.code = 0) → s.cs = false →
    s.env.cardIn = ws.flatMap SectorWrite.bytes ++ rest →
    ∃ t, exec (.writeRange buf sector count) s = .next t ∧ requestDone s t 0 ∧
      busMoved s t (ws.flatMap SectorWrite.bytes).length rest (rangeWriteEvents s buf sector ws) ∧ t.mem = s.mem ∧
      t.log = logAll (rangeWriteRecords s buf sector ws) s

/-- R281, R276: a write range stops at the first sector that fails, whatever its result (a card status, an error of the
transaction, a refused token, a busy timeout, an exhausted retry budget); the sectors after it are not attempted. -/
def Obligations.WriteRangeStopsAtTheFirstFailure : Prop :=
  ∀ (s : State) (buf : Nat) (sector count : Word) (ws : List SectorWrite) (x : SectorWrite) (rest : List Byte),
    undisturbed s → s.session.state = .ready →
    (Instr.writeRange buf sector count).wellFormed s.params.bufAddrW = true →
    (∀ j < sectorSize * count.toNat, admits s (buf + j) = true) → ws.length < count.toNat →
    (∀ w ∈ ws, w.fits s.params ∧ w.last.code = 0) → x.fits s.params → x.last.code ≠ 0 →
    s.env.cardIn = (ws ++ [x]).flatMap SectorWrite.bytes ++ rest →
    ∃ t, exec (.writeRange buf sector count) s = .next t ∧ requestDone s t x.last.code ∧
      busMoved s t ((ws ++ [x]).flatMap SectorWrite.bytes).length rest (rangeWriteEvents s buf sector (ws ++ [x])) ∧
      t.mem = s.mem ∧ t.log = logAll (rangeWriteRecords s buf sector (ws ++ [x])) s

/-- R280: without a reset, no sector request writes a session register, whatever the card answers and whatever arrives
from outside. -/
def Obligations.SectorRequestsKeepTheSession : Prop :=
  ∀ (i : Instr) (s t : State), isSectorRequest i = true → noReset s → exec i s = .next t → t.session = s.session

/-- L1-1 of 95_test_vectors.md, D47: with a card that accepts the block and answers the read of the same sector with it,
what READ_SECTOR puts into `out` is what WRITE_SECTOR took from `buf`, and both frames carry the same address. -/
def Obligations.WrittenBlockReadBackIsTheSame : Prop :=
  ∀ (s : State) (buf out : Nat) (sector : Word) (w : WriteScript) (r : ReadScript) (rest : List Byte),
    undisturbed s → s.session.state = .ready →
    (Instr.writeSector buf sector).wellFormed s.params.bufAddrW = true →
    (Instr.readSector out sector).wellFormed s.params.bufAddrW = true → 1 ≤ s.params.writeBudget →
    admitsBlock s buf → admitsBlock s out → memWf s.mem = true → w.fits s.params → accepts w → r.fits s.params →
    r.data = blockAt s buf → r.crc = crc16 r.data → s.env.cardIn = w.bytes ++ r.bytes ++ rest →
    ∃ t u, exec (.writeSector buf sector) s = .next t ∧ exec (.readSector out sector) t = .next u ∧
      requestDone s t 0 ∧ requestDone t u 0 ∧ blockAt u out = blockAt s buf ∧
      u.trace = (w.events (translateSector s.session.capClass sector) (blockAt s buf) ++
        r.events 17 (translateSector s.session.capClass sector)).reverse ++ s.trace

/-! ### Startup -/

/-- R230: STARTUP in Ready returns 0 and in Faulted FAULT_CODE, with no bus event and no change. -/
def Obligations.StartupIsTerminalInReadyAndFaulted : Prop :=
  ∀ s : State, undisturbed s → (s.session.state = .ready ∨ s.session.state = .faulted) →
    ∃ t, exec .startup s = .next t ∧
      requestDone s t (if s.session.state = .ready then 0 else s.session.faultCode) ∧ t.trace = s.trace ∧
      t.env.drawn = s.env.drawn ∧ t.env.cardIn = s.env.cardIn ∧ t.mem = s.mem ∧ t.log = s.log ∧ t.cs = s.cs

/-- R232 to R245: STARTUP of a card that becomes ready within the bounds: attempts at CMD0 that are repeated (a bad
echo, a status other than idle), CMD8, the iterations of IdleWait whatever each ends in, CMD58, CMD16, CMD59: the
frames in order, Ready at the fast clock, result 0. A card that calls CMD8 illegal is SD v1 and gets HCS = 0; one that
echoes it is SD v2 and gets HCS = 1 (R236, R93); its capacity class is the OCR's bit 30. One that calls ACMD41 illegal
is an MMC (R239), whose class stays Standard. The Xfer count is that of the rules: vector S3 gives another for an SD
v1 card (log entry 20, the model's reading). -/
def Obligations.StartupOfReadyCardReachesReady : Prop :=
  ∀ (s : State) (q : ProbeScript) (is : List Iteration) (last : Iteration) (e : ConfigScript) (rest : List Byte),
    undisturbed s → s.session.state = .uninitialized → q.fits s.params →
    iterationsFit s.params q.gen (is ++ [last]) → (∀ i ∈ is, i.result ≠ .status 0x00#8) →
    last.result = .status 0x00#8 → is.length < s.params.nIdleWait → e.fits s.params →
    s.env.cardIn = q.bytes ++ (is ++ [last]).flatMap Iteration.bytes ++ e.bytes ++ rest →
    ∃ t, exec .startup s = .next t ∧ startupDone s t 0 ∧
      t.session = ⟨.ready, s.session.faultCode, shownCapacity (genAfter q.gen is) e.ocr, genAfter q.gen is, .fast⟩ ∧
      busMoved s t (q.bytes ++ (is ++ [last]).flatMap Iteration.bytes ++ e.bytes).length rest
        (q.events ++ (is ++ [last]).flatMap (Iteration.events q.hcs) ++ e.events) ∧ t.log = s.log

/-- R239: a card that answered CMD8 as SD v1 or v2 and calls CMD55 or CMD41 illegal, in whichever iteration, is an
MMC: the next iterations use CMD1, whatever each ends in, the count goes on, and in Ready the capacity class is
Standard whatever the OCR's bit 30 says. -/
def Obligations.IllegalAppCommandFallsBackToMmc : Prop :=
  ∀ (s : State) (q : ProbeScript) (is : List Iteration) (turn : Iteration) (waits : List Exchange) (last : CmdScript)
    (e : ConfigScript) (rest : List Byte), undisturbed s → s.session.state = .uninitialized → q.fits s.params →
    (∀ i ∈ is ++ [turn], i.fits s.params q.gen) →
    (∀ i ∈ is, i.result ≠ .status 0x00#8 ∧ i.result.isIllegal = false) → turn.result.isIllegal = true →
    (∀ w ∈ waits, w.fits s.params ∧ w.result ≠ .status 0x00#8) →
    is.length + 1 + waits.length < s.params.nIdleWait →
    last.fits s.params → last.status = 0x00#8 → e.fits s.params →
    s.env.cardIn = q.bytes ++ (is ++ [turn]).flatMap Iteration.bytes ++ waits.flatMap Exchange.bytes ++ last.bytes ++
      e.bytes ++ rest →
    ∃ t, exec .startup s = .next t ∧ startupDone s t 0 ∧
      t.session = ⟨.ready, s.session.faultCode, .standard, .mmc, .fast⟩ ∧
      busMoved s t (q.bytes ++ (is ++ [turn]).flatMap Iteration.bytes ++ waits.flatMap Exchange.bytes ++ last.bytes ++
          e.bytes).length rest
        (q.events ++ (is ++ [turn]).flatMap (Iteration.events q.hcs) ++ waits.flatMap (fun w => w.events 1 0) ++
          last.events 1 0 ++ e.events) ∧
      t.log = s.log

/-- R238, R239, R240, R246: after `N_IDLE_WAIT` iterations without ready, exactly that many, negotiation faults with
IdleWaitTimeout. An iteration that ends in an error, of CMD55, CMD41 or CMD1, counts as not ready and the loop goes
on; an illegal bit makes the card an MMC, whose iterations are CMD1. The log names the last transaction started. -/
def Obligations.IdleWaitMakesExactlyItsIterations : Prop :=
  ∀ (s : State) (q : ProbeScript) (is : List Iteration) (last : Iteration) (rest : List Byte), undisturbed s →
    s.session.state = .uninitialized → q.fits s.params → iterationsFit s.params q.gen (is ++ [last]) →
    (∀ i ∈ is ++ [last], i.result ≠ .status 0x00#8) → is.length + 1 = s.params.nIdleWait →
    s.env.cardIn = q.bytes ++ (is ++ [last]).flatMap Iteration.bytes ++ rest →
    ∃ t, exec .startup s = .next t ∧ startupDone s t (-4) ∧
      t.session = ⟨.faulted, -4, .standard, genAfter q.gen (is ++ [last]), .slow⟩ ∧
      busMoved s t (q.bytes ++ (is ++ [last]).flatMap Iteration.bytes).length rest
        (q.events ++ (is ++ [last]).flatMap (Iteration.events q.hcs)) ∧
      t.log = (logAppend (last.record q.hcs) s).log

/-- R234, R246: an attempt at CMD0 that ends in a bad echo or in a status other than idle counts and is repeated; when
the last of exactly `N_RESET_ATTEMPTS` attempts ends so, negotiation faults with ResetTimeout. An attempt that ends in
Generic (the bus never idle, no response) faults at once with Generic, however many attempts are left. One log record
names CMD0 and the last attempt's result. -/
def Obligations.ProbingRetriesOrFaults : Prop :=
  ∀ (s : State) (pu : List Byte) (tries : List Exchange) (last : Exchange) (rest : List Byte), undisturbed s →
    s.session.state = .uninitialized → pu.length = s.params.nPowerup →
    (∀ x ∈ tries, x.fits s.params ∧ retried x.result) → last.fits s.params → tries.length < s.params.nResetAttempts →
    (retried last.result ∧ tries.length + 1 = s.params.nResetAttempts ∨ last.result = .err .generic) →
    s.env.cardIn = pu ++ (tries ++ [last]).flatMap Exchange.bytes ++ rest →
    ∃ t, exec .startup s = .next t ∧ startupDone s t (if last.result = .err .generic then -8 else -3) ∧
      t.session = ⟨.faulted, if last.result = .err .generic then -8 else -3, .standard, s.session.cardGen, .slow⟩ ∧
      busMoved s t (pu ++ (tries ++ [last]).flatMap Exchange.bytes).length rest
        (powerEvents pu ++ (tries ++ [last]).flatMap (fun x => x.events 0 0)) ∧
      t.log = (logAppend ⟨0, last.result.code, 0, 0, 0⟩ s).log

/-- R235, R236, R164, R241, R242, R244, R246: the faults of VoltageCheck, CapacityCheck and Configuring, each with its
code, its log record and nothing sent after it. VoltageCheck: an error of CMD8's transaction is the fault, and an echo
whose low twelve bits are not 0x1AA is UnsupportedVoltage. CapacityCheck: an error of CMD58, the illegal bit (Generic),
an OCR without a supported voltage (VoltageNotSupported). Configuring: an error of CMD16 or CMD59, or a status other
than 0x00 (Generic). -/
def Obligations.LaterPhasesFaultWithTheirCodes : Prop :=
  (∀ (s : State) (q : PowerScript) (f : VoltageFault) (rest : List Byte), undisturbed s →
    s.session.state = .uninitialized → q.fits s.params → f.fits s.params →
    s.env.cardIn = q.bytes ++ f.bytes ++ rest →
    ∃ t, exec .startup s = .next t ∧ startupDone s t f.codes.1 ∧
      t.session = ⟨.faulted, f.codes.1, .standard, s.session.cardGen, .slow⟩ ∧
      busMoved s t (q.bytes ++ f.bytes).length rest (q.events ++ f.events) ∧
      t.log = (logAppend ⟨8, f.codes.2, 0x1AA#32, 0, 0⟩ s).log) ∧
  (∀ (s : State) (q : ProbeScript) (is : List Iteration) (last : Iteration) (f : ConfigFault) (rest : List Byte),
    undisturbed s → s.session.state = .uninitialized → q.fits s.params →
    iterationsFit s.params q.gen (is ++ [last]) → (∀ i ∈ is, i.result ≠ .status 0x00#8) →
    last.result = .status 0x00#8 → is.length < s.params.nIdleWait → f.fits s.params →
    s.env.cardIn = q.bytes ++ (is ++ [last]).flatMap Iteration.bytes ++ f.bytes ++ rest →
    ∃ t, exec .startup s = .next t ∧ startupDone s t (f.outcome (genAfter q.gen is)).1 ∧
      t.session = ⟨.faulted, (f.outcome (genAfter q.gen is)).1, (f.outcome (genAfter q.gen is)).2.1,
        genAfter q.gen is, .slow⟩ ∧
      busMoved s t (q.bytes ++ (is ++ [last]).flatMap Iteration.bytes ++ f.bytes).length rest
        (q.events ++ (is ++ [last]).flatMap (Iteration.events q.hcs) ++ f.events) ∧
      t.log = (logAppend (f.outcome (genAfter q.gen is)).2.2 s).log)

/-- R231, R245, R246, R340: whatever the card answers, STARTUP from Uninitialized ends in Ready at the fast clock with
result 0 and no log record, or in Faulted at the slow clock with result FAULT_CODE, one of the codes of R25, and one
log record; the lock is free and the card deselected. -/
def Obligations.StartupEndsReadyOrFaulted : Prop :=
  ∀ s : State, undisturbed s → s.session.state = .uninitialized → ∃ t c, exec .startup s = .next t ∧
    startupDone s t c ∧ t.cs = false ∧
    ((t.session.state = .ready ∧ t.session.clkMode = .fast ∧ c = 0 ∧ t.log = s.log) ∨
     (t.session.state = .faulted ∧ t.session.clkMode = .slow ∧ c = t.session.faultCode ∧ c ∈ faultCodes ∧
      ∃ r, t.log = (logAppend r s).log))

/-- R247: whatever the card answers and whatever arrives, one STARTUP makes at most the bound's number of Xfer
events. -/
def Obligations.StartupIsBounded : Prop :=
  ∀ s t : State, exec .startup s = .next t → t.env.drawn ≤ s.env.drawn + startupBound s.params

/-! ### The whole machine -/

/-- R42, R301, R340: with the bytes of its own buffer admitted and nothing arriving, every request that takes the lock
completes with exactly one response to its caller, whatever the card answers; the lock is free again and the card
deselected. A request without a buffer needs no byte of memory. -/
def Obligations.EveryRequestCompletesOnce : Prop :=
  ∀ (i : Instr) (s : State), isLockedRequest i = true → i.wellFormed s.params.bufAddrW = true → undisturbed s →
    (∀ j < sectorSize * (bufferOf i).2, admits s ((bufferOf i).1 + j) = true) → s.cs = false →
    ∃ t r, exec i s = .next t ∧ t.responses = ⟨s.sync.caller, r⟩ :: s.responses ∧
      t.sync = ⟨none, none, s.sync.requests, s.sync.caller⟩ ∧ t.cs = false

/-- R231: the transitions of STATE over a whole instruction: it stays, or STARTUP takes it to Ready or Faulted, or
INITIALIZE or a reset takes it to Uninitialized. -/
def Obligations.StateChangesOnlyByTheTable : Prop :=
  ∀ (i : Instr) (s t : State), exec i s = .next t →
    t.session.state = s.session.state ∨
    (i = .startup ∧ s.session.state ≠ .ready ∧ s.session.state ≠ .faulted ∧
      (t.session.state = .ready ∨ t.session.state = .faulted)) ∨
    (t.session.state = .uninitialized ∧ (i = .initSession ∨ ¬ noReset s))

/-- R35: without a reset, only STARTUP, the sector requests and the two diagnostic requests change the log. -/
def Obligations.OnlyErrorPathsAndDiagnosticsTouchTheLog : Prop :=
  ∀ (i : Instr) (s t : State), noReset s → i ≠ .startup → isSectorRequest i = false → i ≠ .dumpDiagnostics →
    i ≠ .clearDiagnostics → exec i s = .next t → t.log = s.log

/-- R307, R35: the log never gates the protocol: with another log, capacity or LOG_ENABLED, every instruction but
DUMP_DIAGNOSTICS ends in the same way and in the same state but for the log itself. -/
def Obligations.TheLogNeverGatesTheProtocol : Prop :=
  ∀ (i : Instr) (s t : State) (on : Bool) (cap : Nat) (l : Log), i ≠ .dumpDiagnostics → exec i s = .next t →
    ∃ l', exec i { s with params := { s.params with logEnabled := on, logCap := cap }, log := l } =
      .next { t with params := { t.params with logEnabled := on, logCap := cap }, log := l' }

/-- R92, R93, R7, R147, U15: no frame outside R92 and no CMD18 is put on the bus, by any instruction but CMD18 itself,
which no step runs, and by no step: after every selection of the card in the events added to the trace, what is sent is
a frame with an index and an argument of R92 and R93, or the beginning of one where a reset cut it short: the fixed
argument of CMD0, CMD1, CMD8, CMD16, CMD55, CMD58 and CMD59, one of the two of ACMD41, any address for CMD17 and CMD24.
The index and the argument of the last transaction are what they were or such a pair. In a run that a reset ends, that
clause on IDX and ARG holds by the model's choice to put 0 into both (log entries 2 and 15): R50 and R31 leave them
unspecified. -/
def Obligations.RequestsNeverIssueCmdEighteen : Prop :=
  (∀ (i : Instr) (s t : State), neverIssued i = false → exec i s = .next t →
    ((t.work.idx, t.work.arg) = (s.work.idx, s.work.arg) ∨ issues t.work.idx t.work.arg) ∧
    ∃ evs, t.trace = evs.reverse ++ s.trace ∧ framesWithin evs) ∧
  (∀ s t : State, step s = .next t → ∃ evs, t.trace = evs.reverse ++ s.trace ∧ framesWithin evs)

/-- The invariant holds after reset (R50). -/
def Obligations.ResetMeetsTheMachineInvariant : Prop := machineInv State.reset

/-- Every step keeps the invariant, in every state, reached or not: the session registers agree with each other (R24,
R25, R26, R28), the log stays within its capacity (R34), a free lock means no request in service and no card selected
(R22, R29, R36), each agent has at most one request outstanding (R301), and memory keeps its canonical form inside the
address space (R60). -/
def Obligations.EveryStepKeepsTheMachineInvariant : Prop :=
  ∀ s t : State, machineInv s → step s = .next t → machineInv t
end

