-- ==== Sys2Proof/Laws/State.lean ====
section
/-!
SUPPORT. The fields of State under each named update: what an update leaves alone, by definition, and what it sets.
-/

namespace Sys2Proof.Machine

open Sys2Proof

@[simp] theorem respond_params (a : Nat) (r : Reply) (s : State) : (respond a r s).params = s.params := rfl
@[simp] theorem respond_session (a : Nat) (r : Reply) (s : State) : (respond a r s).session = s.session := rfl
@[simp] theorem respond_cs (a : Nat) (r : Reply) (s : State) : (respond a r s).cs = s.cs := rfl
@[simp] theorem respond_work (a : Nat) (r : Reply) (s : State) : (respond a r s).work = s.work := rfl
@[simp] theorem respond_log (a : Nat) (r : Reply) (s : State) : (respond a r s).log = s.log := rfl
@[simp] theorem respond_sync (a : Nat) (r : Reply) (s : State) : (respond a r s).sync = s.sync := rfl
@[simp] theorem respond_mem (a : Nat) (r : Reply) (s : State) : (respond a r s).mem = s.mem := rfl
@[simp] theorem respond_noAccess (a : Nat) (r : Reply) (s : State) : (respond a r s).noAccess = s.noAccess := rfl
@[simp] theorem respond_env (a : Nat) (r : Reply) (s : State) : (respond a r s).env = s.env := rfl
@[simp] theorem respond_trace (a : Nat) (r : Reply) (s : State) : (respond a r s).trace = s.trace := rfl

@[simp] theorem acquire_params (i : Instr) (s : State) : (acquire i s).params = s.params := rfl
@[simp] theorem acquire_session (i : Instr) (s : State) : (acquire i s).session = s.session := rfl
@[simp] theorem acquire_cs (i : Instr) (s : State) : (acquire i s).cs = s.cs := rfl
@[simp] theorem acquire_work (i : Instr) (s : State) : (acquire i s).work = s.work := rfl
@[simp] theorem acquire_log (i : Instr) (s : State) : (acquire i s).log = s.log := rfl
@[simp] theorem acquire_mem (i : Instr) (s : State) : (acquire i s).mem = s.mem := rfl
@[simp] theorem acquire_noAccess (i : Instr) (s : State) : (acquire i s).noAccess = s.noAccess := rfl
@[simp] theorem acquire_env (i : Instr) (s : State) : (acquire i s).env = s.env := rfl
@[simp] theorem acquire_trace (i : Instr) (s : State) : (acquire i s).trace = s.trace := rfl
@[simp] theorem acquire_responses (i : Instr) (s : State) : (acquire i s).responses = s.responses := rfl

@[simp] theorem release_params (s : State) : (release s).params = s.params := rfl
@[simp] theorem release_session (s : State) : (release s).session = s.session := rfl
@[simp] theorem release_cs (s : State) : (release s).cs = s.cs := rfl
@[simp] theorem release_work (s : State) : (release s).work = s.work := rfl
@[simp] theorem release_log (s : State) : (release s).log = s.log := rfl
@[simp] theorem release_mem (s : State) : (release s).mem = s.mem := rfl
@[simp] theorem release_noAccess (s : State) : (release s).noAccess = s.noAccess := rfl
@[simp] theorem release_env (s : State) : (release s).env = s.env := rfl
@[simp] theorem release_trace (s : State) : (release s).trace = s.trace := rfl
@[simp] theorem release_responses (s : State) : (release s).responses = s.responses := rfl

@[simp] theorem waitForLock_params (i : Instr) (s : State) : (waitForLock i s).params = s.params := rfl
@[simp] theorem waitForLock_session (i : Instr) (s : State) : (waitForLock i s).session = s.session := rfl
@[simp] theorem waitForLock_cs (i : Instr) (s : State) : (waitForLock i s).cs = s.cs := rfl
@[simp] theorem waitForLock_work (i : Instr) (s : State) : (waitForLock i s).work = s.work := rfl
@[simp] theorem waitForLock_log (i : Instr) (s : State) : (waitForLock i s).log = s.log := rfl
@[simp] theorem waitForLock_mem (i : Instr) (s : State) : (waitForLock i s).mem = s.mem := rfl
@[simp] theorem waitForLock_noAccess (i : Instr) (s : State) : (waitForLock i s).noAccess = s.noAccess := rfl
@[simp] theorem waitForLock_env (i : Instr) (s : State) : (waitForLock i s).env = s.env := rfl
@[simp] theorem waitForLock_trace (i : Instr) (s : State) : (waitForLock i s).trace = s.trace := rfl
@[simp] theorem waitForLock_responses (i : Instr) (s : State) : (waitForLock i s).responses = s.responses := rfl

@[simp] theorem logClear_params (s : State) : (logClear s).params = s.params := rfl
@[simp] theorem logClear_session (s : State) : (logClear s).session = s.session := rfl
@[simp] theorem logClear_cs (s : State) : (logClear s).cs = s.cs := rfl
@[simp] theorem logClear_work (s : State) : (logClear s).work = s.work := rfl
@[simp] theorem logClear_sync (s : State) : (logClear s).sync = s.sync := rfl
@[simp] theorem logClear_mem (s : State) : (logClear s).mem = s.mem := rfl
@[simp] theorem logClear_noAccess (s : State) : (logClear s).noAccess = s.noAccess := rfl
@[simp] theorem logClear_env (s : State) : (logClear s).env = s.env := rfl
@[simp] theorem logClear_trace (s : State) : (logClear s).trace = s.trace := rfl
@[simp] theorem logClear_responses (s : State) : (logClear s).responses = s.responses := rfl

@[simp] theorem clearSession_params (s : State) : (clearSession s).params = s.params := rfl
@[simp] theorem clearSession_cs (s : State) : (clearSession s).cs = s.cs := rfl
@[simp] theorem clearSession_work (s : State) : (clearSession s).work = s.work := rfl
@[simp] theorem clearSession_log (s : State) : (clearSession s).log = s.log := rfl
@[simp] theorem clearSession_sync (s : State) : (clearSession s).sync = s.sync := rfl
@[simp] theorem clearSession_mem (s : State) : (clearSession s).mem = s.mem := rfl
@[simp] theorem clearSession_noAccess (s : State) : (clearSession s).noAccess = s.noAccess := rfl
@[simp] theorem clearSession_env (s : State) : (clearSession s).env = s.env := rfl
@[simp] theorem clearSession_trace (s : State) : (clearSession s).trace = s.trace := rfl
@[simp] theorem clearSession_responses (s : State) : (clearSession s).responses = s.responses := rfl

@[simp] theorem record_params (e : BusEvent) (s : State) : (record e s).params = s.params := rfl
@[simp] theorem record_session (e : BusEvent) (s : State) : (record e s).session = s.session := rfl
@[simp] theorem record_cs (e : BusEvent) (s : State) : (record e s).cs = s.cs := rfl
@[simp] theorem record_work (e : BusEvent) (s : State) : (record e s).work = s.work := rfl
@[simp] theorem record_log (e : BusEvent) (s : State) : (record e s).log = s.log := rfl
@[simp] theorem record_sync (e : BusEvent) (s : State) : (record e s).sync = s.sync := rfl
@[simp] theorem record_mem (e : BusEvent) (s : State) : (record e s).mem = s.mem := rfl
@[simp] theorem record_noAccess (e : BusEvent) (s : State) : (record e s).noAccess = s.noAccess := rfl
@[simp] theorem record_env (e : BusEvent) (s : State) : (record e s).env = s.env := rfl
@[simp] theorem record_responses (e : BusEvent) (s : State) : (record e s).responses = s.responses := rfl

@[simp] theorem handOver_params (p : Presented) (s : State) : (handOver p s).params = s.params := rfl
@[simp] theorem handOver_session (p : Presented) (s : State) : (handOver p s).session = s.session := rfl
@[simp] theorem handOver_cs (p : Presented) (s : State) : (handOver p s).cs = s.cs := rfl
@[simp] theorem handOver_work (p : Presented) (s : State) : (handOver p s).work = s.work := rfl
@[simp] theorem handOver_log (p : Presented) (s : State) : (handOver p s).log = s.log := rfl
@[simp] theorem handOver_mem (p : Presented) (s : State) : (handOver p s).mem = s.mem := rfl
@[simp] theorem handOver_noAccess (p : Presented) (s : State) : (handOver p s).noAccess = s.noAccess := rfl
@[simp] theorem handOver_env (p : Presented) (s : State) : (handOver p s).env = s.env := rfl
@[simp] theorem handOver_trace (p : Presented) (s : State) : (handOver p s).trace = s.trace := rfl
@[simp] theorem handOver_responses (p : Presented) (s : State) : (handOver p s).responses = s.responses := rfl

@[simp] theorem assertReset_params (s : State) : (assertReset s).params = s.params := rfl
@[simp] theorem assertReset_mem (s : State) : (assertReset s).mem = s.mem := rfl
@[simp] theorem assertReset_noAccess (s : State) : (assertReset s).noAccess = s.noAccess := rfl
@[simp] theorem assertReset_env (s : State) : (assertReset s).env = s.env := rfl
@[simp] theorem assertReset_responses (s : State) : (assertReset s).responses = s.responses := rfl

@[simp] theorem loadFrame_params (i : BitVec 6) (a : Word) (s : State) : (loadFrame i a s).params = s.params := rfl
@[simp] theorem loadFrame_session (i : BitVec 6) (a : Word) (s : State) : (loadFrame i a s).session = s.session := rfl
@[simp] theorem loadFrame_cs (i : BitVec 6) (a : Word) (s : State) : (loadFrame i a s).cs = s.cs := rfl
@[simp] theorem loadFrame_log (i : BitVec 6) (a : Word) (s : State) : (loadFrame i a s).log = s.log := rfl
@[simp] theorem loadFrame_sync (i : BitVec 6) (a : Word) (s : State) : (loadFrame i a s).sync = s.sync := rfl
@[simp] theorem loadFrame_mem (i : BitVec 6) (a : Word) (s : State) : (loadFrame i a s).mem = s.mem := rfl
@[simp] theorem loadFrame_noAccess (i : BitVec 6) (a : Word) (s : State) : (loadFrame i a s).noAccess = s.noAccess := rfl
@[simp] theorem loadFrame_env (i : BitVec 6) (a : Word) (s : State) : (loadFrame i a s).env = s.env := rfl
@[simp] theorem loadFrame_trace (i : BitVec 6) (a : Word) (s : State) : (loadFrame i a s).trace = s.trace := rfl
@[simp] theorem loadFrame_responses (i : BitVec 6) (a : Word) (s : State) : (loadFrame i a s).responses = s.responses := rfl

@[simp] theorem play_params (n : Nat) (evs : List BusEvent) (s : State) : (play n evs s).params = s.params := rfl
@[simp] theorem play_session (n : Nat) (evs : List BusEvent) (s : State) : (play n evs s).session = s.session := rfl
@[simp] theorem play_cs (n : Nat) (evs : List BusEvent) (s : State) : (play n evs s).cs = s.cs := rfl
@[simp] theorem play_work (n : Nat) (evs : List BusEvent) (s : State) : (play n evs s).work = s.work := rfl
@[simp] theorem play_log (n : Nat) (evs : List BusEvent) (s : State) : (play n evs s).log = s.log := rfl
@[simp] theorem play_sync (n : Nat) (evs : List BusEvent) (s : State) : (play n evs s).sync = s.sync := rfl
@[simp] theorem play_mem (n : Nat) (evs : List BusEvent) (s : State) : (play n evs s).mem = s.mem := rfl
@[simp] theorem play_noAccess (n : Nat) (evs : List BusEvent) (s : State) : (play n evs s).noAccess = s.noAccess := rfl
@[simp] theorem play_responses (n : Nat) (evs : List BusEvent) (s : State) : (play n evs s).responses = s.responses := rfl

@[simp] theorem logAppend_params (r : LogRecord) (s : State) : (logAppend r s).params = s.params := by unfold logAppend; split_ifs <;> rfl
@[simp] theorem logAppend_session (r : LogRecord) (s : State) : (logAppend r s).session = s.session := by unfold logAppend; split_ifs <;> rfl
@[simp] theorem logAppend_cs (r : LogRecord) (s : State) : (logAppend r s).cs = s.cs := by unfold logAppend; split_ifs <;> rfl
@[simp] theorem logAppend_work (r : LogRecord) (s : State) : (logAppend r s).work = s.work := by unfold logAppend; split_ifs <;> rfl
@[simp] theorem logAppend_sync (r : LogRecord) (s : State) : (logAppend r s).sync = s.sync := by unfold logAppend; split_ifs <;> rfl
@[simp] theorem logAppend_mem (r : LogRecord) (s : State) : (logAppend r s).mem = s.mem := by unfold logAppend; split_ifs <;> rfl
@[simp] theorem logAppend_noAccess (r : LogRecord) (s : State) : (logAppend r s).noAccess = s.noAccess := by unfold logAppend; split_ifs <;> rfl
@[simp] theorem logAppend_env (r : LogRecord) (s : State) : (logAppend r s).env = s.env := by unfold logAppend; split_ifs <;> rfl
@[simp] theorem logAppend_trace (r : LogRecord) (s : State) : (logAppend r s).trace = s.trace := by unfold logAppend; split_ifs <;> rfl
@[simp] theorem logAppend_responses (r : LogRecord) (s : State) : (logAppend r s).responses = s.responses := by unfold logAppend; split_ifs <;> rfl

@[simp] theorem takeFault_params (k : ErrKind) (r : Result) (s : State) : (takeFault k r s).params = s.params := by simp [takeFault]
@[simp] theorem takeFault_cs (k : ErrKind) (r : Result) (s : State) : (takeFault k r s).cs = s.cs := by simp [takeFault]
@[simp] theorem takeFault_work (k : ErrKind) (r : Result) (s : State) : (takeFault k r s).work = s.work := by simp [takeFault]
@[simp] theorem takeFault_sync (k : ErrKind) (r : Result) (s : State) : (takeFault k r s).sync = s.sync := by simp [takeFault]
@[simp] theorem takeFault_mem (k : ErrKind) (r : Result) (s : State) : (takeFault k r s).mem = s.mem := by simp [takeFault]
@[simp] theorem takeFault_noAccess (k : ErrKind) (r : Result) (s : State) : (takeFault k r s).noAccess = s.noAccess := by simp [takeFault]
@[simp] theorem takeFault_env (k : ErrKind) (r : Result) (s : State) : (takeFault k r s).env = s.env := by simp [takeFault]
@[simp] theorem takeFault_trace (k : ErrKind) (r : Result) (s : State) : (takeFault k r s).trace = s.trace := by simp [takeFault]
@[simp] theorem takeFault_responses (k : ErrKind) (r : Result) (s : State) : (takeFault k r s).responses = s.responses := by simp [takeFault]

@[simp] theorem present_params (p : Presented) (s : State) : (present p s).params = s.params := by unfold present; split_ifs <;> rfl
@[simp] theorem present_session (p : Presented) (s : State) : (present p s).session = s.session := by unfold present; split_ifs <;> rfl
@[simp] theorem present_cs (p : Presented) (s : State) : (present p s).cs = s.cs := by unfold present; split_ifs <;> rfl
@[simp] theorem present_work (p : Presented) (s : State) : (present p s).work = s.work := by unfold present; split_ifs <;> rfl
@[simp] theorem present_log (p : Presented) (s : State) : (present p s).log = s.log := by unfold present; split_ifs <;> rfl
@[simp] theorem present_mem (p : Presented) (s : State) : (present p s).mem = s.mem := by unfold present; split_ifs <;> rfl
@[simp] theorem present_noAccess (p : Presented) (s : State) : (present p s).noAccess = s.noAccess := by unfold present; split_ifs <;> rfl
@[simp] theorem present_env (p : Presented) (s : State) : (present p s).env = s.env := by unfold present; split_ifs <;> rfl
@[simp] theorem present_trace (p : Presented) (s : State) : (present p s).trace = s.trace := by unfold present; split_ifs <;> rfl
@[simp] theorem present_responses (p : Presented) (s : State) : (present p s).responses = s.responses := by unfold present; split_ifs <;> rfl

/-- What presenting an item while the block works can do (R301). -/
theorem receive_cases (p : Presented) (s : State) :
    receive p s = s ∨ (∃ r, receive p s = respond p.agent r s) ∨
      receive p s = { s with sync.requests := s.sync.requests ++ [p] } := by
  unfold receive present
  split <;> split_ifs
  · exact .inl rfl
  · exact .inr (.inl ⟨_, rfl⟩)
  · exact .inl rfl
  · exact .inr (.inr rfl)

@[simp] theorem receive_params (p : Presented) (s : State) : (receive p s).params = s.params := by rcases receive_cases p s with h | ⟨r, h⟩ | h <;> simp [h]
@[simp] theorem receive_session (p : Presented) (s : State) : (receive p s).session = s.session := by rcases receive_cases p s with h | ⟨r, h⟩ | h <;> simp [h]
@[simp] theorem receive_cs (p : Presented) (s : State) : (receive p s).cs = s.cs := by rcases receive_cases p s with h | ⟨r, h⟩ | h <;> simp [h]
@[simp] theorem receive_work (p : Presented) (s : State) : (receive p s).work = s.work := by rcases receive_cases p s with h | ⟨r, h⟩ | h <;> simp [h]
@[simp] theorem receive_log (p : Presented) (s : State) : (receive p s).log = s.log := by rcases receive_cases p s with h | ⟨r, h⟩ | h <;> simp [h]
@[simp] theorem receive_mem (p : Presented) (s : State) : (receive p s).mem = s.mem := by rcases receive_cases p s with h | ⟨r, h⟩ | h <;> simp [h]
@[simp] theorem receive_noAccess (p : Presented) (s : State) : (receive p s).noAccess = s.noAccess := by rcases receive_cases p s with h | ⟨r, h⟩ | h <;> simp [h]
@[simp] theorem receive_env (p : Presented) (s : State) : (receive p s).env = s.env := by rcases receive_cases p s with h | ⟨r, h⟩ | h <;> simp [h]
@[simp] theorem receive_trace (p : Presented) (s : State) : (receive p s).trace = s.trace := by rcases receive_cases p s with h | ⟨r, h⟩ | h <;> simp [h]

@[simp] theorem receive_lock (p : Presented) (s : State) : (receive p s).sync.lock = s.sync.lock := by rcases receive_cases p s with h | ⟨r, h⟩ | h <;> simp [h]
@[simp] theorem receive_active (p : Presented) (s : State) : (receive p s).sync.active = s.sync.active := by rcases receive_cases p s with h | ⟨r, h⟩ | h <;> simp [h]
@[simp] theorem receive_caller (p : Presented) (s : State) : (receive p s).sync.caller = s.sync.caller := by rcases receive_cases p s with h | ⟨r, h⟩ | h <;> simp [h]

@[simp] theorem callerWrite_params (a : Nat) (v : Byte) (s : State) : (callerWrite a v s).params = s.params := by unfold callerWrite; split_ifs <;> rfl
@[simp] theorem callerWrite_session (a : Nat) (v : Byte) (s : State) : (callerWrite a v s).session = s.session := by unfold callerWrite; split_ifs <;> rfl
@[simp] theorem callerWrite_cs (a : Nat) (v : Byte) (s : State) : (callerWrite a v s).cs = s.cs := by unfold callerWrite; split_ifs <;> rfl
@[simp] theorem callerWrite_work (a : Nat) (v : Byte) (s : State) : (callerWrite a v s).work = s.work := by unfold callerWrite; split_ifs <;> rfl
@[simp] theorem callerWrite_log (a : Nat) (v : Byte) (s : State) : (callerWrite a v s).log = s.log := by unfold callerWrite; split_ifs <;> rfl
@[simp] theorem callerWrite_sync (a : Nat) (v : Byte) (s : State) : (callerWrite a v s).sync = s.sync := by unfold callerWrite; split_ifs <;> rfl
@[simp] theorem callerWrite_noAccess (a : Nat) (v : Byte) (s : State) : (callerWrite a v s).noAccess = s.noAccess := by unfold callerWrite; split_ifs <;> rfl
@[simp] theorem callerWrite_env (a : Nat) (v : Byte) (s : State) : (callerWrite a v s).env = s.env := by unfold callerWrite; split_ifs <;> rfl
@[simp] theorem callerWrite_trace (a : Nat) (v : Byte) (s : State) : (callerWrite a v s).trace = s.trace := by unfold callerWrite; split_ifs <;> rfl
@[simp] theorem callerWrite_responses (a : Nat) (v : Byte) (s : State) : (callerWrite a v s).responses = s.responses := by unfold callerWrite; split_ifs <;> rfl

/-! ### What the updates set -/

@[simp] theorem respond_responses (a : Nat) (r : Reply) (s : State) :
    (respond a r s).responses = ⟨a, r⟩ :: s.responses := rfl
@[simp] theorem acquire_sync (i : Instr) (s : State) :
    (acquire i s).sync = ⟨some s.sync.caller, some i, s.sync.requests, s.sync.caller⟩ := rfl
@[simp] theorem release_sync (s : State) :
    (release s).sync = ⟨none, none, s.sync.requests, s.sync.caller⟩ := rfl
@[simp] theorem waitForLock_sync (i : Instr) (s : State) :
    (waitForLock i s).sync =
      ⟨s.sync.lock, s.sync.active, s.sync.requests ++ [⟨s.sync.caller, encode i⟩], s.sync.caller⟩ := rfl
@[simp] theorem logClear_log (s : State) : (logClear s).log = ⟨[], 0⟩ := rfl
@[simp] theorem clearSession_session (s : State) :
    (clearSession s).session = ⟨.uninitialized, 0, .standard, s.session.cardGen, .slow⟩ := rfl
@[simp] theorem record_trace (e : BusEvent) (s : State) : (record e s).trace = e :: s.trace := rfl
@[simp] theorem handOver_sync (p : Presented) (s : State) :
    (handOver p s).sync = ⟨s.sync.lock, s.sync.active, s.sync.requests.erase p, p.agent⟩ := rfl
@[simp] theorem assertReset_session (s : State) : (assertReset s).session = Session.reset := rfl
@[simp] theorem assertReset_cs (s : State) : (assertReset s).cs = false := rfl
@[simp] theorem assertReset_log (s : State) : (assertReset s).log = ⟨[], 0⟩ := rfl
@[simp] theorem assertReset_sync (s : State) : (assertReset s).sync = ⟨none, none, [], 0⟩ := rfl
@[simp] theorem assertReset_trace (s : State) : (assertReset s).trace = .setClock .slow :: s.trace := rfl
@[simp] theorem takeFault_session (k : ErrKind) (r : Result) (s : State) :
    (takeFault k r s).session =
      ⟨.faulted, k.code, s.session.capClass, s.session.cardGen, s.session.clkMode⟩ := by
  simp [takeFault]
@[simp] theorem play_cardIn (n : Nat) (evs : List BusEvent) (s : State) :
    (play n evs s).env.cardIn = s.env.cardIn.drop n := rfl
@[simp] theorem play_drawn (n : Nat) (evs : List BusEvent) (s : State) :
    (play n evs s).env.drawn = s.env.drawn + n := rfl
@[simp] theorem play_arrivals (n : Nat) (evs : List BusEvent) (s : State) :
    (play n evs s).env.arrivals = s.env.arrivals := rfl
@[simp] theorem play_order (n : Nat) (evs : List BusEvent) (s : State) :
    (play n evs s).env.order = s.env.order := rfl
@[simp] theorem play_picks (n : Nat) (evs : List BusEvent) (s : State) :
    (play n evs s).env.picks = s.env.picks := rfl
@[simp] theorem play_trace (n : Nat) (evs : List BusEvent) (s : State) :
    (play n evs s).trace = evs.reverse ++ s.trace := rfl

/-- A full log counts the record, a log with room keeps it (R34). -/
theorem logAppend_log (r : LogRecord) (s : State) :
    (logAppend r s).log =
      if s.params.logEnabled then
        if s.log.records.length < s.params.logCap then ⟨s.log.records ++ [r], s.log.drops⟩
        else if s.log.drops < 0xFFFFFFFF#32 then ⟨s.log.records, s.log.drops + 1⟩
        else s.log
      else s.log := by
  unfold logAppend; split_ifs <;> rfl

/-- Entering the fault state appends one record of the last transaction (R246). -/
theorem takeFault_log (k : ErrKind) (r : Result) (s : State) :
    (takeFault k r s).log = (logAppend ⟨s.work.idx.setWidth 8, r.code, s.work.arg, 0, 0⟩ s).log := by
  simp [takeFault, logAppend_log]

/-- Playing in two pieces is playing the whole. -/
theorem play_play (m n : Nat) (e f : List BusEvent) (s : State) :
    play m f (play n e s) = play (n + m) (e ++ f) s := by
  simp [play, List.drop_drop]
  omega

@[simp] theorem play_zero (s : State) : play 0 [] s = s := by simp [play]

end Sys2Proof.Machine
end

