-- ==== Sys2Proof/Laws/Ran.lean ====
section
/-!
SUPPORT. How runs chain, and what every run keeps: a property of the state that each event keeps is kept by every
piece of work made of events.
-/

namespace Sys2Proof.Machine

open Sys2Proof

variable {α β : Type}

@[simp] theorem andThen_done (a : α) (s : State) (f : α → State → Ran β) : (Ran.done a s).andThen f = f a s := rfl

@[simp] theorem andThen_halt (s : State) (f : α → State → Ran β) : (Ran.halt s : Ran α).andThen f = .halt s := rfl

@[simp] theorem final_done (a : α) (s : State) : (Ran.done a s).final = s := rfl

@[simp] theorem final_halt (s : State) : (Ran.halt s : Ran α).final = s := rfl

theorem andThen_assoc {γ : Type} (r : Ran α) (f : α → State → Ran β) (g : β → State → Ran γ) :
    (r.andThen f).andThen g = r.andThen fun a s => (f a s).andThen g := by
  cases r <;> rfl

/-- `r` ends with a value and a state that meet `D`, or is halted in a state that meets `H`. -/
def sat (r : Ran α) (D : α → State → Prop) (H : State → Prop) : Prop :=
  match r with
  | .done a s => D a s
  | .halt s => H s

@[simp] theorem sat_done (a : α) (s : State) (D : α → State → Prop) (H : State → Prop) :
    sat (.done a s) D H = D a s := rfl

@[simp] theorem sat_halt (s : State) (D : α → State → Prop) (H : State → Prop) :
    sat (.halt s : Ran α) D H = H s := rfl

/-- What holds after a chain follows from what holds after its first part. -/
theorem sat_andThen {r : Ran α} {f : α → State → Ran β} {D : α → State → Prop} {E : β → State → Prop}
    {H : State → Prop} (hr : sat r D H) (hf : ∀ a s, D a s → sat (f a s) E H) : sat (r.andThen f) E H := by
  cases r with
  | done a s => exact hf a s hr
  | halt s => exact hr

theorem sat_mono {r : Ran α} {D E : α → State → Prop} {H K : State → Prop} (hr : sat r D H)
    (hD : ∀ a s, D a s → E a s) (hH : ∀ s, H s → K s) : sat r E K := by
  cases r with
  | done a s => exact hD a s hr
  | halt s => exact hH s hr

theorem sat_trivial (r : Ran α) : sat r (fun _ _ => True) fun _ => True := by
  cases r <;> trivial

/-- What the value of a run meets, and what its state meets, together. -/
theorem sat_and {r : Ran α} {D E : α → State → Prop} {H K : State → Prop} (h : sat r D H) (k : sat r E K) :
    sat r (fun a s => D a s ∧ E a s) (fun s => H s ∧ K s) := by
  cases r with
  | done a s => exact ⟨h, k⟩
  | halt s => exact ⟨h, k⟩

/-- The final state of a run meets what both of its ends meet. -/
theorem sat_final {r : Ran α} {I : State → Prop} (hr : sat r (fun _ => I) I) : I r.final := by
  cases r <;> exact hr

/-- A run keeps `I` and is halted only in states that meet `H`. -/
def keeps (I H : State → Prop) (f : State → Ran α) : Prop := ∀ s, I s → sat (f s) (fun _ => I) H

/-- Going on with work that keeps `I` keeps it. -/
theorem keeps_andThen {I H : State → Prop} {f : State → Ran α} {g : α → State → Ran β} (hf : keeps I H f)
    (hg : ∀ a, keeps I H (g a)) : keeps I H fun s => (f s).andThen g :=
  fun s hs => sat_andThen (hf s hs) fun a t ht => hg a t ht

theorem keeps_done {I H : State → Prop} (a : α) : keeps I H (Ran.done a) := fun _ hs => hs

/-- What a property must meet to be kept by bytes exchanged: nothing that lands between two events breaks it, and neither
do an answer drawn, an Xfer recorded, or a working register other than `IDX` and `ARG`. -/
structure DataKept (I H : State → Prop) : Prop where
  tick : keeps I H tick
  draw : ∀ s, I s → I (drawByte s).2
  sent : ∀ s o b, I s → I (record (.xfer o b) s)
  work : ∀ s w, (w.idx, w.arg) = (s.work.idx, s.work.arg) → I s → I { s with work := w }

/-- A property kept by bytes exchanged, and also by every other transport event, by the chip select, and by the latching
of a command whose index and argument meet `P`. -/
structure EventKept (P : BitVec 6 → Word → Prop) (I H : State → Prop) : Prop where
  tick : keeps I H tick
  draw : ∀ s, I s → I (drawByte s).2
  event : ∀ s e, I s → I (record e s)
  select : ∀ s b, I s → I { s with cs := b }
  latch : ∀ s idx arg, P idx arg → I s → I { s with work.idx := idx, work.arg := arg }
  work : ∀ s w, (w.idx, w.arg) = (s.work.idx, s.work.arg) → I s → I { s with work := w }

theorem EventKept.toDataKept {P : BitVec 6 → Word → Prop} {I H : State → Prop} (h : EventKept P I H) : DataKept I H :=
  ⟨h.tick, h.draw, fun s _ _ hs => h.event s _ hs, h.work⟩

/-- A property that a request presented, a caller's write and the passing of arrivals keep is kept by the moment before
an event; a reset leaves a state that meets `H`. -/
theorem tick_keeps {I H : State → Prop} (hp : ∀ s p, I s → I (receive p s)) (hw : ∀ s a v, I s → I (callerWrite a v s))
    (ha : ∀ s l, I s → I { s with env.arrivals := l })
    (hr : ∀ s l, I s → H (assertReset { s with env.arrivals := l })) : keeps I H tick := by
  have h : ∀ (l : List (Nat × Arrival)) (s : State), I s → sat (landDue l s) (fun _ => I) H := by
    intro l
    induction l with
    | nil => exact fun s hs => ha s _ hs
    | cons x l ih =>
      intro s hs
      obtain ⟨n, a⟩ := x
      cases n with
      | succ n => exact ha s _ hs
      | zero =>
        cases a with
        | request p => exact ih _ (hp s p hs)
        | bufWrite b v => exact ih _ (hw s b v hs)
        | reset => exact hr s l hs
  exact fun s hs => h _ s hs

/-- With nothing arriving, nothing lands. -/
theorem tick_quiet {s : State} (h : s.env.arrivals = []) : tick s = .done () s := by
  unfold tick
  rw [h]
  simp only [landDue]
  rw [← h]

end Sys2Proof.Machine
end

