-- ==== Sys2Proof/Laws/Memory.lean ====
section
/-!
SUPPORT. The laws of caller-buffer memory: every write keeps the canonical form; a read after a write to the same
address gives what was written, and every other address is left alone.
-/

namespace Sys2Proof.Machine

open Sys2Proof

/-- Every listed address is at least `k`. -/
def memFrom (k : Nat) (m : List Host.Cell) : Prop := ∀ c ∈ m, k ≤ c.1

theorem memWf_cons {k : Nat} {v : Byte} {m : List Host.Cell} :
    memWf ((k, v) :: m) = true ↔ v ≠ unwrittenByte ∧ memFrom (k + 1) m ∧ memWf m = true := by
  induction m generalizing k v with
  | nil => simp [memWf, memFrom]
  | cons c m ih =>
    obtain ⟨k', w⟩ := c
    simp only [memWf, Bool.and_eq_true, bne_iff_ne, decide_eq_true_eq, memFrom, List.forall_mem_cons]
    constructor
    · rintro ⟨⟨hv, hk⟩, hm⟩
      refine ⟨hv, ⟨hk, fun c hc => ?_⟩, hm⟩
      have := (ih.mp hm).2.1 c hc
      omega
    · rintro ⟨hv, ⟨hk, -⟩, hm⟩
      exact ⟨⟨hv, hk⟩, hm⟩

/-- What a write leaves listed was listed or is the written cell. -/
theorem mem_memWrite {m : List Host.Cell} {a : Nat} {v : Byte} {c : Host.Cell} (h : c ∈ memWrite m a v) :
    c = (a, v) ∨ c ∈ m := by
  induction m with
  | nil =>
    unfold memWrite at h
    split_ifs at h
    · exact absurd h (by simp)
    · exact .inl (by simpa using h)
  | cons d m ih =>
    obtain ⟨k, w⟩ := d
    unfold memWrite at h
    split_ifs at h
    · exact .inr h
    · exact List.mem_cons.mp h
    · exact .inr (List.mem_cons_of_mem _ h)
    · exact (List.mem_cons.mp h).imp id (List.mem_cons_of_mem _)
    · rcases List.mem_cons.mp h with rfl | h
      · exact .inr List.mem_cons_self
      · exact (ih h).imp id (List.mem_cons_of_mem _)

theorem memWrite_from {b : Nat} {m : List Host.Cell} {a : Nat} {v : Byte} (hm : memFrom b m) (ha : b ≤ a) :
    memFrom b (memWrite m a v) := fun c hc => by
  rcases mem_memWrite hc with rfl | hc
  · exact ha
  · exact hm c hc

/-- A write keeps the canonical form. -/
theorem memWrite_wf {m : List Host.Cell} (a : Nat) (v : Byte) (hm : memWf m = true) : memWf (memWrite m a v) = true := by
  induction m with
  | nil => unfold memWrite; split_ifs with h <;> simp [memWf, h]
  | cons c m ih =>
    obtain ⟨k, w⟩ := c
    have ⟨hw, hk, hm'⟩ := memWf_cons.mp hm
    unfold memWrite
    split_ifs with h1 h2 h3 h4
    · exact hm
    · exact memWf_cons.mpr ⟨h2, fun c hc => by
        rcases List.mem_cons.mp hc with rfl | hc
        · exact h1
        · have := hk c hc; omega, hm⟩
    · exact hm'
    · subst h3; exact memWf_cons.mpr ⟨h4, hk, hm'⟩
    · exact memWf_cons.mpr ⟨hw, memWrite_from hk (by omega), ih hm'⟩

theorem memRead_below {b : Nat} {m : List Host.Cell} {a : Nat} (hm : memFrom b m) (ha : a < b) :
    memRead m a = unwrittenByte := by
  induction m with
  | nil => rfl
  | cons c m ih =>
    obtain ⟨k, w⟩ := c
    have hk : b ≤ k := hm (k, w) (by simp)
    rw [memRead, if_neg (by omega)]
    exact ih fun c hc => hm c (by simp [hc])

/-- Reading after a write: the written byte at its address, everything else as before. -/
theorem memRead_memWrite {m : List Host.Cell} (a : Nat) (v : Byte) (b : Nat) (hm : memWf m = true) :
    memRead (memWrite m a v) b = if b = a then v else memRead m b := by
  induction m with
  | nil =>
    by_cases hv : v = unwrittenByte <;> by_cases hb : b = a <;> simp [memWrite, memRead, hv, hb, eq_comm]
    · exact fun h => absurd h.symm hb
  | cons c m ih =>
    obtain ⟨k, w⟩ := c
    have ⟨hw, hk, hm'⟩ := memWf_cons.mp hm
    have low : ∀ x, x < k + 1 → memRead m x = unwrittenByte := fun x hx => memRead_below hk hx
    rw [memWrite]
    by_cases h1 : a < k
    · rw [if_pos h1]
      by_cases hv : v = unwrittenByte
      · rw [if_pos hv]
        by_cases hb : b = a
        · rw [if_pos hb, memRead, if_neg (by omega), low _ (by omega), hv]
        · rw [if_neg hb]
      · rw [if_neg hv, memRead]
        by_cases hb : b = a
        · rw [if_pos hb, if_pos hb.symm]
        · rw [if_neg hb, if_neg (Ne.symm hb)]
    · rw [if_neg h1]
      by_cases h2 : a = k
      · rw [if_pos h2]
        by_cases hv : v = unwrittenByte
        · rw [if_pos hv]
          by_cases hb : b = a
          · rw [if_pos hb, low _ (by omega), hv]
          · rw [if_neg hb, memRead, if_neg (by omega)]
        · rw [if_neg hv, memRead, memRead]
          by_cases hb : b = a
          · rw [if_pos hb, if_pos hb.symm]
          · rw [if_neg hb, if_neg (Ne.symm hb), if_neg (by omega)]
      · rw [if_neg h2, memRead, memRead, ih hm']
        by_cases hb : k = b
        · rw [if_pos hb, if_pos hb, if_neg (by omega)]
        · rw [if_neg hb, if_neg hb]

end Sys2Proof.Machine
end

