-- ==== Sys2Proof/Laws/Script.lean ====
section
/-!
SUPPORT. What the transport does when nothing arrives from outside and the card's next answers are listed: each
operation, once, as the answers it takes, the events it makes and the registers it writes.
-/

namespace Sys2Proof.Machine

open Sys2Proof

variable {s : State} {rest : List Byte}

/-- One Xfer takes one answer and makes one event. -/
theorem xfer_listed (hq : s.env.arrivals = []) {b : Byte} (h : s.env.cardIn = b :: rest) (o : Byte) :
    xfer o s = .done b (play 1 [.xfer o b] s) := by
  simp [xfer, tick_quiet hq, drawByte, h, play, record]

theorem assertCS_quiet (hq : s.env.arrivals = []) :
    assertCS s = .done () { play 0 [.assertCS] s with cs := true } := by
  simp [assertCS, tick_quiet hq, play, record]

theorem deassertCS_quiet (hq : s.env.arrivals = []) :
    deassertCS s = .done () { play 0 [.deassertCS] s with cs := false } := by
  simp [deassertCS, tick_quiet hq, play, record]

theorem setClock_quiet (hq : s.env.arrivals = []) (m : ClkMode) :
    setClock m s = .done () { play 0 [.setClock m] s with session.clkMode := m } := by
  simp [setClock, tick_quiet hq, play, record]

theorem bufWrite_quiet (hq : s.env.arrivals = []) {a : Nat} (ha : admits s a = true) (v : Byte) :
    bufWrite a v s = .done () { s with mem := memWrite s.mem a v } := by
  simp [bufWrite, tick_quiet hq, ha]

theorem bufRead_quiet (hq : s.env.arrivals = []) {a : Nat} (ha : admits s a = true) :
    bufRead a s = .done (memRead s.mem a) s := by
  simp [bufRead, tick_quiet hq, ha]

/-- The bus-idle wait ends on the first 0xFF within its bound (R134). -/
theorem waitIdleLoop_listed {w : List Byte} (hw : ∀ b ∈ w, b ≠ idleByte) :
    ∀ {n : Nat} {s : State}, s.env.arrivals = [] → s.env.cardIn = w ++ idleByte :: rest → w.length < n →
      ∃ p, waitIdleLoop n s =
        .done none { play (w.length + 1) (idleEvents (w ++ [idleByte])) s with work.poll := p } := by
  induction w with
  | nil =>
    intro n s hq hc hn
    obtain ⟨n, rfl⟩ : ∃ m, n = m + 1 := ⟨n - 1, by simp at hn; omega⟩
    exact ⟨s.work.poll, by simp [waitIdleLoop, xfer_listed hq hc, idleEvents, play]⟩
  | cons b w ih =>
    intro n s hq hc hn
    obtain ⟨n, rfl⟩ : ∃ m, n = m + 1 := ⟨n - 1, by simp at hn; omega⟩
    have hb := hw b (by simp)
    obtain ⟨p, hp⟩ := ih (fun x hx => hw x (by simp [hx]))
      (n := n) (s := { play 1 [.xfer idleByte b] s with work.poll := BitVec.ofNat 32 n }) hq
      (by simp [hc]) (by simpa using hn)
    refine ⟨p, ?_⟩
    rw [waitIdleLoop, xfer_listed hq hc, andThen_done, if_neg hb, hp]
    simp [play, idleEvents]
    omega

theorem waitIdle_listed {w : List Byte} (hw : ∀ b ∈ w, b ≠ idleByte) (hq : s.env.arrivals = [])
    (hc : s.env.cardIn = w ++ idleByte :: rest) (hn : w.length < s.params.nReadyPoll) :
    ∃ p, waitIdle s =
      .done none { play (w.length + 1) (idleEvents (w ++ [idleByte])) s with work.poll := p } := by
  obtain ⟨p, hp⟩ := waitIdleLoop_listed hw (n := s.params.nReadyPoll)
    (s := { s with work.poll := BitVec.ofNat 32 s.params.nReadyPoll }) hq hc hn
  exact ⟨p, hp⟩

/-- Bytes sent and echoed with 0xFF (R135). -/
theorem sendBytes_listed (d : List Byte) :
    ∀ {s : State}, s.env.arrivals = [] → s.env.cardIn = List.replicate d.length idleByte ++ rest →
      sendBytes d s = .done () (play d.length (d.map (fun b => BusEvent.xfer b idleByte)) s) := by
  induction d with
  | nil => intro s _ _; simp [sendBytes]
  | cons b d ih =>
    intro s hq hc
    rw [List.length_cons, List.replicate_succ, List.cons_append] at hc
    rw [sendBytes, xfer_listed hq hc, andThen_done, if_pos rfl,
      ih (s := play 1 [.xfer b idleByte] s) hq (by simp [hc]), play_play]
    simp [Nat.add_comm]

@[simp] theorem commandBytes_length (idx : BitVec 6) (arg : Word) : (commandBytes idx arg).length = 6 := rfl

@[simp] theorem argBytes_length (a : Word) : (argBytes a).length = 4 := rfl

@[simp] theorem crcBytes_length (c : Half) : (crcBytes c).length = 2 := rfl

theorem sendFrame_listed (hq : s.env.arrivals = []) (hc : s.env.cardIn = List.replicate 6 idleByte ++ rest)
    (idx : BitVec 6) (arg : Word) :
    sendFrame idx arg s = .done none (play 6 (frameEvents idx arg) (loadFrame idx arg s)) := by
  rw [sendFrame, sendBytes_listed (commandBytes idx arg) (s := loadFrame idx arg s) hq hc, andThen_done]
  rfl

/-- The response poll ends on the first byte other than 0xFF within its bound (R136). -/
theorem pollLoop_listed {b : Byte} (hb : b ≠ idleByte) (k : Nat) :
    ∀ {n : Nat} {s : State}, s.env.arrivals = [] → s.env.cardIn = List.replicate k idleByte ++ b :: rest → k < n →
      ∃ p, pollLoop n s = .done (.status b)
        { play (k + 1) (idleEvents (List.replicate k idleByte ++ [b])) s with work.poll := p, work.r1 := b } := by
  induction k with
  | zero =>
    intro n s hq hc hn
    obtain ⟨n, rfl⟩ : ∃ m, n = m + 1 := ⟨n - 1, by omega⟩
    refine ⟨s.work.poll, ?_⟩
    rw [pollLoop, xfer_listed hq hc, andThen_done, if_neg hb]
    rfl
  | succ k ih =>
    intro n s hq hc hn
    obtain ⟨n, rfl⟩ : ∃ m, n = m + 1 := ⟨n - 1, by omega⟩
    rw [List.replicate_succ, List.cons_append] at hc
    obtain ⟨p, hp⟩ := ih
      (n := n) (s := { play 1 [.xfer idleByte idleByte] s with work.poll := BitVec.ofNat 32 n }) hq
      (by simp [hc]) (by omega)
    refine ⟨p, ?_⟩
    rw [pollLoop, xfer_listed hq hc, andThen_done, if_pos rfl, hp]
    simp [play, idleEvents, List.replicate_succ]
    omega

/-- The working registers after a transaction's R1 (R132, R135, R136). -/
def openWork (idx : BitVec 6) (arg : Word) (r1 : Byte) (poll : Word) (w : Work) : Work :=
  { w with
    idx := idx, arg := arg, frame := encodeFrame idx arg, crc7 := frameCrc idx arg, echoBad := false
    r1 := r1, poll := poll }

/-- CmdBegin on a script that fits the bounds: its status, its answers, its events (R136). -/
theorem cmdBegin_listed {c : CmdScript} (hf : c.fits s.params) (hq : s.env.arrivals = [])
    (hc : s.env.cardIn = c.opening ++ rest) (idx : BitVec 6) (arg : Word) :
    ∃ p, cmdBegin idx arg s = .done (.status c.status)
      { play c.opening.length (c.openEvents idx arg) s with
        cs := true, work := openWork idx arg c.status p s.work } := by
  obtain ⟨hw, hn, hk, hb⟩ := hf
  have hc' : s.env.cardIn =
      c.wait ++ idleByte :: (List.replicate 6 idleByte ++ (List.replicate c.resp idleByte ++ c.status :: rest)) := by
    rw [hc, CmdScript.opening, show 7 + c.resp = 1 + (6 + c.resp) by omega]
    simp [List.replicate_add]
  let s1 : State := { play 0 [.assertCS] { s with work.idx := idx, work.arg := arg } with cs := true }
  have h1 : assertCS { s with work.idx := idx, work.arg := arg } = .done () s1 := assertCS_quiet hq
  obtain ⟨p1, h2⟩ := waitIdle_listed hw (s := s1) hq (by simpa [s1] using hc') hn
  set s2 : State := { play (c.wait.length + 1) (idleEvents (c.wait ++ [idleByte])) s1 with work.poll := p1 } with hs2
  have h3 := sendFrame_listed (s := s2)
    (rest := List.replicate c.resp idleByte ++ c.status :: rest) hq (by simp [hs2, s1, hc', List.drop_append])
    idx arg
  set s3 : State := play 6 (frameEvents idx arg) (loadFrame idx arg s2) with hs3
  obtain ⟨p, h4⟩ := pollLoop_listed hb c.resp (rest := rest) (n := s3.params.nRespPoll)
    (s := { s3 with work.poll := BitVec.ofNat 32 s3.params.nRespPoll }) hq
    (by simp [hs3, hs2, s1, hc', List.drop_append, loadFrame]; omega) hk
  refine ⟨p, ?_⟩
  rw [cmdBegin, h1, andThen_done, h2, andThen_done]
  dsimp only
  rw [h3, andThen_done]
  dsimp only
  rw [pollResponse, h4]
  simp [hs3, hs2, s1, play, openWork, loadFrame, CmdScript.openEvents, CmdScript.opening, idleEvents]
  omega

/-- CmdEnd takes one answer (R137). -/
theorem cmdEnd_listed (hq : s.env.arrivals = []) {z : Byte} (hc : s.env.cardIn = z :: rest) :
    cmdEnd s = .done () { play 1 (closeEvents z) s with cs := false } := by
  rw [cmdEnd, deassertCS_quiet hq, andThen_done,
    xfer_listed (s := { play 0 [.deassertCS] s with cs := false }) hq (by simpa using hc), andThen_done]
  simp [play, closeEvents]

/-- A transaction with no more than R1 (R139). -/
theorem command_listed {c : CmdScript} (hf : c.fits s.params) (hq : s.env.arrivals = [])
    (hc : s.env.cardIn = c.bytes ++ rest) {idx : BitVec 6} (arg : Word)
    (hp : hasPayload idx (.status c.status) = false) :
    ∃ p, command idx arg s = .done (.status c.status)
      { play c.bytes.length (c.events idx arg) s with
        cs := false, work := openWork idx arg c.status p s.work } := by
  obtain ⟨p, h⟩ := cmdBegin_listed hf hq (rest := c.trail :: rest) (by simpa [CmdScript.bytes] using hc) idx arg
  refine ⟨p, ?_⟩
  have he := cmdEnd_listed (rest := rest) (z := c.trail)
    (s := { play c.opening.length (c.openEvents idx arg) s with
            cs := true, work := openWork idx arg c.status p s.work })
    hq (by simp [hc, CmdScript.bytes])
  rw [command, h, andThen_done, if_neg (by simp [hp]), andThen_done, he, andThen_done]
  simp [play, CmdScript.bytes, CmdScript.events, Nat.add_assoc]

theorem wordOfBytes_argBytes (p : Word) :
    wordOfBytes (p.extractLsb' 24 8) (p.extractLsb' 16 8) (p.extractLsb' 8 8) (p.extractLsb' 0 8) = p := by
  apply BitVec.eq_of_getLsbD_eq
  intro i hi
  simp only [wordOfBytes, BitVec.getLsbD_append, BitVec.getLsbD_extractLsb']
  by_cases h1 : i < 8
  · simp [h1]
  · by_cases h2 : i < 16
    · simp [h1, show i - 8 < 8 by omega, show 8 + (i - 8) = i by omega]
    · by_cases h3 : i < 24
      · simp [h1, show ¬ i - 8 < 8 by omega, show i - 8 - 8 < 8 by omega, show 16 + (i - 8 - 8) = i by omega]
      · simp [h1, show ¬ i - 8 < 8 by omega, show ¬ i - 8 - 8 < 8 by omega, show i - 8 - 8 - 8 < 8 by omega,
          show 24 + (i - 8 - 8 - 8) = i by omega]

/-- Four payload bytes (R163). -/
theorem readPayload_listed (hq : s.env.arrivals = []) {p : Word} (hc : s.env.cardIn = argBytes p ++ rest) :
    readPayload s = .done () { play 4 (idleEvents (argBytes p)) s with work.payload := p } := by
  simp only [argBytes, List.cons_append, List.nil_append] at hc
  set b3 := p.extractLsb' 24 8
  set b2 := p.extractLsb' 16 8
  set b1 := p.extractLsb' 8 8
  set b0 := p.extractLsb' 0 8
  have h1 : (play 1 [.xfer idleByte b3] s).env.cardIn = b2 :: b1 :: b0 :: rest := by simp [hc]
  have h2 : (play 1 [.xfer idleByte b2] (play 1 [.xfer idleByte b3] s)).env.cardIn = b1 :: b0 :: rest := by simp [hc]
  have h3 : (play 1 [.xfer idleByte b1] (play 1 [.xfer idleByte b2] (play 1 [.xfer idleByte b3] s))).env.cardIn =
    b0 :: rest := by simp [hc]
  rw [readPayload, xfer_listed hq hc, andThen_done, xfer_listed (by exact hq) h1, andThen_done,
    xfer_listed (by exact hq) h2, andThen_done, xfer_listed (by exact hq) h3, andThen_done, wordOfBytes_argBytes]
  simp [play_play, idleEvents, argBytes, b3, b2, b1, b0]

/-- A transaction with a payload after R1 (R139). -/
theorem command_payload_listed {c : CmdScript} (hf : c.fits s.params) (hq : s.env.arrivals = []) {pl : Word}
    (hc : s.env.cardIn = c.payloadBytes pl ++ rest) {idx : BitVec 6} (arg : Word)
    (hp : hasPayload idx (.status c.status) = true) :
    ∃ p, command idx arg s = .done (.status c.status)
      { play (c.payloadBytes pl).length (c.payloadEvents idx arg pl) s with
        cs := false, work := { openWork idx arg c.status p s.work with payload := pl } } := by
  obtain ⟨p, h⟩ := cmdBegin_listed hf hq (rest := argBytes pl ++ c.trail :: rest)
    (by simpa [CmdScript.payloadBytes] using hc) idx arg
  refine ⟨p, ?_⟩
  set s1 : State := { play c.opening.length (c.openEvents idx arg) s with
            cs := true, work := openWork idx arg c.status p s.work } with hs1
  have h2 := readPayload_listed (s := s1) (p := pl) (rest := c.trail :: rest) hq
    (by simp [hs1, hc, CmdScript.payloadBytes])
  have he := cmdEnd_listed (rest := rest) (z := c.trail)
    (s := { play 4 (idleEvents (argBytes pl)) s1 with work.payload := pl })
    hq (by simp [hs1, hc, CmdScript.payloadBytes, argBytes])
  rw [command, h, andThen_done, if_pos (by simp [hp]), h2, andThen_done, he, andThen_done]
  simp [hs1, play, CmdScript.payloadBytes, CmdScript.payloadEvents, Nat.add_assoc]

end Sys2Proof.Machine
end

