-- ==== Sys2Proof/Laws/Block.lean ====
section
/-!
SUPPORT. The two data phases when nothing arrives from outside and the card's answers are listed (R202 to R208).
-/

namespace Sys2Proof.Machine

open Sys2Proof

variable {s : State} {rest : List Byte}

/-- Bytes stored one after another. -/
def memStore : List Host.Cell → Nat → List Byte → List Host.Cell
  | m, _, [] => m
  | m, a, v :: d => memStore (memWrite m a v) (a + 1) d

theorem memStore_wf (d : List Byte) : ∀ (m : List Host.Cell) (a : Nat), memWf m = true → memWf (memStore m a d) = true := by
  induction d with
  | nil => exact fun _ _ h => h
  | cons v d ih => exact fun m a h => ih _ _ (memWrite_wf a v h)

/-- Reading after a block was stored: its bytes at its addresses, everything else as before. -/
theorem memRead_memStore (d : List Byte) : ∀ (m : List Host.Cell) (a b : Nat), memWf m = true →
    memRead (memStore m a d) b = if a ≤ b ∧ b < a + d.length then d.getD (b - a) 0 else memRead m b := by
  induction d with
  | nil => intro m a b _; rw [memStore, if_neg (by simp)]
  | cons v d ih =>
    intro m a b h
    rw [memStore, ih _ _ _ (memWrite_wf a v h), memRead_memWrite a v b h]
    by_cases h1 : b = a
    · subst h1
      rw [if_neg (by omega), if_pos rfl, if_pos (by simp)]
      simp
    · by_cases h2 : a ≤ b ∧ b < a + (d.length + 1)
      · rw [if_pos (by omega), List.length_cons, if_pos h2]
        obtain ⟨k, hk⟩ : ∃ k, b - a = k + 1 := ⟨b - a - 1, by omega⟩
        rw [hk, show b - (a + 1) = k by omega]
        simp
      · rw [if_neg (by omega), if_neg h1, List.length_cons, if_neg h2]

/-- What is admitted depends on the configuration and the map only. -/
theorem admits_congr {s t : State} (hp : t.params = s.params) (hn : t.noAccess = s.noAccess) (a : Nat) :
    admits t a = admits s a := by
  simp [admits, hp, hn]

theorem idleByte_ne_start : idleByte ≠ dataStartToken := by decide

/-- The token poll ends on the data-start token within its bound (R202). -/
theorem tokenLoop_listed (k : Nat) :
    ∀ {n : Nat} {s : State}, s.env.arrivals = [] →
      s.env.cardIn = List.replicate k idleByte ++ dataStartToken :: rest → k < n →
      ∃ p, tokenLoop n s = .done none
        { play (k + 1) (idleEvents (List.replicate k idleByte ++ [dataStartToken])) s with
          work.poll := p, work.token := dataStartToken } := by
  induction k with
  | zero =>
    intro n s hq hc hn
    obtain ⟨n, rfl⟩ : ∃ m, n = m + 1 := ⟨n - 1, by omega⟩
    refine ⟨s.work.poll, ?_⟩
    rw [tokenLoop, xfer_listed hq hc, andThen_done]
    simp [decodeToken, idleEvents, play]
  | succ k ih =>
    intro n s hq hc hn
    obtain ⟨n, rfl⟩ : ∃ m, n = m + 1 := ⟨n - 1, by omega⟩
    rw [List.replicate_succ, List.cons_append] at hc
    obtain ⟨p, hp⟩ := ih
      (n := n) (s := { play 1 [.xfer idleByte idleByte] s with
        work.token := idleByte, work.poll := BitVec.ofNat 32 n }) hq (by simp [hc]) (by omega)
    refine ⟨p, ?_⟩
    rw [tokenLoop, xfer_listed hq hc, andThen_done]
    simp only [decodeToken, if_neg idleByte_ne_start, if_true]
    rw [hp]
    simp [play, idleEvents, List.replicate_succ]
    omega

/-- Payload bytes received, stored and run through the CRC (R203). -/
theorem receiveBytes_listed (d : List Byte) :
    ∀ {a : Nat} {c : Half} {s : State}, s.env.arrivals = [] → s.env.cardIn = d ++ rest →
      (∀ j < d.length, admits s (a + j) = true) →
      receiveBytes d.length a c s =
        .done (d.foldl crc16Byte c) { play d.length (idleEvents d) s with mem := memStore s.mem a d } := by
  induction d with
  | nil => intro a c s _ _ _; simp [receiveBytes, idleEvents, memStore]
  | cons v d ih =>
    intro a c s hq hc ha
    rw [List.length_cons, receiveBytes, xfer_listed hq hc, andThen_done,
      bufWrite_quiet (s := play 1 [.xfer idleByte v] s) hq (by exact ha 0 (by simp)), andThen_done]
    refine (ih (s := { play 1 [.xfer idleByte v] s with mem := memWrite s.mem a v }) hq (by simp [hc]) ?_).trans ?_
    rotate_left
    · simp [play, idleEvents, memStore]
      omega
    · intro j hj
      have := ha (j + 1) (by simpa using hj)
      rw [show a + (j + 1) = a + 1 + j by omega] at this
      exact this

/-- The verdict on a received block (R203). -/
def crcVerdict (sent computed : Half) : Option ErrKind := if sent = computed then none else some .checksumFailed

theorem crcBytes_join (c : Half) : c.extractLsb' 8 8 ++ c.extractLsb' 0 8 = c := by
  apply BitVec.eq_of_getLsbD_eq
  intro i hi
  simp only [BitVec.getLsbD_append, BitVec.getLsbD_extractLsb']
  by_cases h1 : i < 8
  · simp [h1]
  · simp [h1, show i - 8 < 8 by omega, show 8 + (i - 8) = i by omega]

/-- A block received: stored whatever the CRC says (R203). -/
theorem receiveBlock_listed {d : List Byte} (hd : d.length = sectorSize) {crc : Half} {buf : Nat}
    (hq : s.env.arrivals = []) (hc : s.env.cardIn = d ++ crcBytes crc ++ rest) (ha : admitsBlock s buf) :
    receiveBlock buf s = .done (crcVerdict crc (crc16 d))
      { play (sectorSize + 2) (idleEvents (d ++ crcBytes crc)) s with
        mem := memStore s.mem buf d, work.crc16 := crc } := by
  have h := receiveBytes_listed d (a := buf) (c := 0) (s := s) (rest := crcBytes crc ++ rest) hq
    (by simpa using hc) (by rw [hd]; exact ha)
  rw [hd] at h
  set hi := crc.extractLsb' 8 8 with hhi
  set lo := crc.extractLsb' 0 8 with hlo
  set s1 : State := { play sectorSize (idleEvents d) s with mem := memStore s.mem buf d } with hs1
  have h1 : s1.env.cardIn = hi :: lo :: rest := by
    simp [hs1, hc, ← hd, crcBytes, hhi, hlo]
  have h2 : (play 1 [.xfer idleByte hi] s1).env.cardIn = lo :: rest := by simp [h1]
  rw [receiveBlock, h, andThen_done, xfer_listed (by exact hq) h1, andThen_done, xfer_listed (by exact hq) h2,
    andThen_done]
  have hj : hi ++ lo = crc := crcBytes_join crc
  rw [hj, crcVerdict, crc16]
  simp [hs1, play, idleEvents, crcBytes, ← hhi, ← hlo, Nat.add_assoc]

/-- A block-read transaction on a script that fits (R144, R271). -/
theorem blockRead_listed {r : ReadScript} (hf : r.fits s.params) (hq : s.env.arrivals = [])
    (hc : s.env.cardIn = r.bytes ++ rest) (idx : BitVec 6) (addr : Word) {buf : Nat} (ha : admitsBlock s buf) :
    ∃ p, blockRead idx addr buf s = .done (phaseResult (crcVerdict r.crc (crc16 r.data)))
      { play r.bytes.length (r.events idx addr) s with
        cs := false, mem := memStore s.mem buf r.data
        work := { openWork idx addr 0 p s.work with token := dataStartToken, crc16 := r.crc } } := by
  obtain ⟨hcmd, hst, htok, hlen⟩ := hf
  obtain ⟨p0, h0⟩ := cmdBegin_listed hcmd hq (rest := r.phaseBytes ++ [r.cmd.trail] ++ rest)
    (by simpa [ReadScript.bytes] using hc) idx addr
  rw [hst] at h0
  obtain ⟨s1, hs1⟩ : ∃ s1 : State, s1 = { play r.cmd.opening.length (r.cmd.openEvents idx addr) s with
        cs := true, work := openWork idx addr 0x00#8 p0 s.work } := ⟨_, rfl⟩
  have h0' : cmdBegin idx addr s = .done (.status 0x00#8) s1 := by rw [h0, hs1]
  have hq1 : s1.env.arrivals = [] := by rw [hs1]; exact hq
  have ha1 : admitsBlock s1 buf := by rw [hs1]; exact ha
  have ht1 : r.tokenWait < s1.params.nTokenPoll := by rw [hs1]; exact htok
  have hc1 : s1.env.cardIn = r.phaseBytes ++ r.cmd.trail :: rest := by
    simp [hs1, hc, ReadScript.bytes]
  obtain ⟨p, h1⟩ := tokenLoop_listed r.tokenWait (n := s1.params.nTokenPoll)
    (s := { s1 with work.poll := BitVec.ofNat 32 s1.params.nTokenPoll })
    (rest := r.data ++ crcBytes r.crc ++ r.cmd.trail :: rest) hq1
    (by simp [hc1, ReadScript.phaseBytes]) ht1
  obtain ⟨s2, hs2⟩ : ∃ s2 : State, s2 =
    { play (r.tokenWait + 1) (idleEvents (List.replicate r.tokenWait idleByte ++ [dataStartToken])) s1 with
      work := { s1.work with token := dataStartToken, poll := p } } := ⟨_, rfl⟩
  have h1' : waitDataToken s1 = .done none s2 := by rw [hs2]; exact h1
  have hc2 : s2.env.cardIn = r.data ++ crcBytes r.crc ++ r.cmd.trail :: rest := by
    simp [hs2, hc1, ReadScript.phaseBytes, List.drop_append]
  have h2 := receiveBlock_listed hlen (s := s2) (crc := r.crc) (buf := buf) (rest := r.cmd.trail :: rest)
    (by rw [hs2]; exact hq1) hc2 (by rw [hs2]; exact ha1)
  obtain ⟨s3, hs3⟩ : ∃ s3 : State, s3 = { play (sectorSize + 2) (idleEvents (r.data ++ crcBytes r.crc)) s2 with
        mem := memStore s2.mem buf r.data, work.crc16 := r.crc } := ⟨_, rfl⟩
  have h2' : receiveBlock buf s2 = .done (crcVerdict r.crc (crc16 r.data)) s3 := by rw [h2, hs3]
  have h3 := cmdEnd_listed (s := s3) (z := r.cmd.trail) (rest := rest) (by rw [hs3, hs2]; exact hq1)
    (by
      rw [hs3]
      show List.drop (sectorSize + 2) s2.env.cardIn = _
      rw [hc2]
      exact List.drop_left' (by simp [hlen]))
  refine ⟨p, ?_⟩
  rw [blockRead, h0', andThen_done, if_pos rfl, readDataBlock, h1', andThen_done]
  dsimp only
  rw [h2', andThen_done, andThen_done, h3, andThen_done]
  simp [hs3, hs2, hs1, play, openWork, ReadScript.bytes, ReadScript.events, ReadScript.phaseBytes, idleEvents,
    hlen, Nat.add_assoc]
  omega

/-! ### The write data phase -/

/-- Payload bytes read from the buffer, sent and run through the CRC, their answers ignored (R207). -/
theorem sendPayload_listed (ign : List Byte) :
    ∀ {a : Nat} {c : Half} {s : State}, s.env.arrivals = [] → s.env.cardIn = ign ++ rest →
      (∀ j < ign.length, admits s (a + j) = true) →
      sendPayload ign.length a c s =
        .done (((List.range ign.length).map fun j => memRead s.mem (a + j)).foldl crc16Byte c)
          (play ign.length
            (List.zipWith BusEvent.xfer ((List.range ign.length).map fun j => memRead s.mem (a + j)) ign) s) := by
  induction ign with
  | nil => intro a c s _ _ _; simp [sendPayload]
  | cons v ign ih =>
    intro a c s hq hc ha
    have hshift : ((List.range (ign.length + 1)).map fun j => memRead s.mem (a + j)) =
        memRead s.mem a :: (List.range ign.length).map fun j => memRead s.mem (a + 1 + j) := by
      rw [List.range_succ_eq_map]
      simp [List.map_map, Function.comp_def, Nat.add_comm, Nat.add_left_comm]
    rw [List.length_cons, sendPayload, bufRead_quiet hq (by simpa using ha 0 (by simp)), andThen_done,
      xfer_listed hq hc, andThen_done,
      ih (s := play 1 [.xfer (memRead s.mem a) v] s) hq (by simp [hc]) ?_, hshift]
    · simp [play_play, Nat.add_comm]
    · intro j hj
      have := ha (j + 1) (by simpa using hj)
      rw [show a + (j + 1) = a + 1 + j by omega] at this
      exact this

/-- The busy wait ends on the first 0xFF within its bound (R208). -/
theorem busyLoop_listed {w : List Byte} (hw : ∀ b ∈ w, b ≠ idleByte) :
    ∀ {n : Nat} {s : State}, s.env.arrivals = [] → s.env.cardIn = w ++ idleByte :: rest → w.length < n →
      ∃ p, busyLoop n s =
        .done true { play (w.length + 1) (idleEvents (w ++ [idleByte])) s with work.poll := p } := by
  induction w with
  | nil =>
    intro n s hq hc hn
    obtain ⟨n, rfl⟩ : ∃ m, n = m + 1 := ⟨n - 1, by simp at hn; omega⟩
    exact ⟨s.work.poll, by simp [busyLoop, xfer_listed hq hc, idleEvents, play]⟩
  | cons b w ih =>
    intro n s hq hc hn
    obtain ⟨n, rfl⟩ : ∃ m, n = m + 1 := ⟨n - 1, by simp at hn; omega⟩
    have hb := hw b (by simp)
    obtain ⟨p, hp⟩ := ih (fun x hx => hw x (by simp [hx]))
      (n := n) (s := { play 1 [.xfer idleByte b] s with work.poll := BitVec.ofNat 32 n }) hq
      (by simp [hc]) (by simpa using hn)
    refine ⟨p, ?_⟩
    rw [busyLoop, xfer_listed hq hc, andThen_done, if_neg hb, hp]
    simp [play, idleEvents]
    omega

/-- The busy wait runs out when no polled byte is 0xFF (R208). -/
theorem busyLoop_timeout {w : List Byte} (hw : ∀ b ∈ w, b ≠ idleByte) :
    ∀ {s : State}, s.env.arrivals = [] → s.env.cardIn = w ++ rest →
      ∃ p, busyLoop w.length s = .done false { play w.length (idleEvents w) s with work.poll := p } := by
  induction w with
  | nil =>
    intro s _ _
    exact ⟨s.work.poll, by simp [busyLoop, idleEvents]⟩
  | cons b w ih =>
    intro s hq hc
    obtain ⟨p, hp⟩ := ih (fun x hx => hw x (by simp [hx]))
      (s := { play 1 [.xfer idleByte b] s with work.poll := BitVec.ofNat 32 w.length }) hq (by simp [hc])
    refine ⟨p, ?_⟩
    rw [List.length_cons, busyLoop, xfer_listed hq hc, andThen_done, if_neg (hw b (by simp)), hp]
    simp [play, idleEvents]
    omega

/-- The busy wait on a script: it ends, or its bound is used up (R208). -/
theorem waitNotBusy_listed {w : WriteScript} (hw : ∀ b ∈ w.busy, b ≠ idleByte)
    (hn : if w.released then w.busy.length < s.params.nBusyPoll else w.busy.length = s.params.nBusyPoll)
    (hq : s.env.arrivals = []) (hc : s.env.cardIn = w.busyBytes ++ rest) :
    ∃ p, waitNotBusy s =
      .done w.released { play w.busyBytes.length (idleEvents w.busyBytes) s with work.poll := p } := by
  unfold WriteScript.busyBytes at hc ⊢
  by_cases hr : w.released = true
  · rw [if_pos hr] at hn hc ⊢
    obtain ⟨p, hp⟩ := busyLoop_listed hw (n := s.params.nBusyPoll)
      (s := { s with work.poll := BitVec.ofNat 32 s.params.nBusyPoll }) (rest := rest) hq (by simpa using hc) hn
    exact ⟨p, by rw [hr, waitNotBusy, hp]; simp [play]⟩
  · rw [Bool.not_eq_true] at hr
    rw [if_neg (by simp [hr])] at hn hc ⊢
    obtain ⟨p, hp⟩ := busyLoop_timeout hw
      (s := { s with work.poll := BitVec.ofNat 32 s.params.nBusyPoll }) (rest := rest) hq (by simpa using hc)
    rw [hn] at hp
    exact ⟨p, by rw [hr, waitNotBusy, hp]; simp [play, hn]⟩

/-- The verdict of a write data phase (R207, R209). -/
def WriteScript.verdict (w : WriteScript) : Result := writeVerdict (writeTokenResult w.token) w.released

theorem zipWith_snoc2 {α β γ : Type} (f : α → β → γ) (a : List α) (b : List β) (h : a.length = b.length) (x y : α)
    (u v : β) : List.zipWith f (a ++ [x, y]) (b ++ [u, v]) = List.zipWith f a b ++ [f x u, f y v] := by
  rw [List.zipWith_append h]
  rfl

/-- A list of 516 answers, taken apart as the write data phase takes them. -/
theorem ignored_split {l : List Byte} (h : l.length = sectorSize + 4) :
    ∃ g k : Byte, ∃ m : List Byte, ∃ u v : Byte, m.length = sectorSize ∧ l = g :: k :: (m ++ [u, v]) := by
  match l, h with
  | g :: k :: l, h =>
    have hl : l.length = sectorSize + 2 := by simpa using h
    refine ⟨g, k, l.take sectorSize, l[sectorSize]'(by omega), l[sectorSize + 1]'(by omega), by simp [hl], ?_⟩
    have h1 : l.drop sectorSize = [l[sectorSize]'(by omega), l[sectorSize + 1]'(by omega)] := by
      rw [List.drop_eq_getElem_cons (by omega), List.drop_eq_getElem_cons (by omega), List.drop_eq_nil_of_le (by omega)]
    rw [← h1, List.take_append_drop]

/-- A block-write transaction on a script that fits (R145, R274). -/
theorem blockWrite_listed {w : WriteScript} (hf : w.fits s.params) (hq : s.env.arrivals = [])
    (hc : s.env.cardIn = w.bytes ++ rest) (addr : Word) {buf : Nat} (ha : admitsBlock s buf) :
    ∃ p, blockWrite addr buf s =
      .done ⟨w.verdict, w.token.setWidth 16, crc16 (blockAt s buf)⟩
        { play w.bytes.length (w.events addr (blockAt s buf)) s with
          cs := false
          work := { openWork 24 addr 0 p s.work with token := w.token, crc16 := crc16 (blockAt s buf) } } := by
  obtain ⟨hcmd, hst, hign, hbusy, hlen⟩ := hf
  obtain ⟨g, k, m, u, v, hm, hl⟩ := ignored_split hign
  obtain ⟨p0, h0⟩ := cmdBegin_listed hcmd hq
    (rest := w.ignored ++ [w.token] ++ w.busyBytes ++ [w.cmd.trail] ++ rest)
    (by simpa [WriteScript.bytes] using hc) 24 addr
  rw [hst] at h0
  obtain ⟨s1, hs1⟩ : ∃ s1 : State, s1 = { play w.cmd.opening.length (w.cmd.openEvents 24 addr) s with
        cs := true, work := openWork 24 addr 0x00#8 p0 s.work } := ⟨_, rfl⟩
  have h0' : cmdBegin 24 addr s = .done (.status 0x00#8) s1 := by rw [h0, hs1]
  have hq1 : s1.env.arrivals = [] := by rw [hs1]; exact hq
  have ha1 : admitsBlock s1 buf := by rw [hs1]; exact ha
  have hb1 : blockAt s1 buf = blockAt s buf := by rw [hs1]; rfl
  have hc1 : s1.env.cardIn = g :: k :: (m ++ u :: v :: w.token :: (w.busyBytes ++ w.cmd.trail :: rest)) := by
    simp [hs1, hc, WriteScript.bytes, hl]
  have hx1 := xfer_listed hq1 hc1 idleByte
  obtain ⟨s2, hs2⟩ : ∃ s2 : State, s2 = play 1 [.xfer idleByte g] s1 := ⟨_, rfl⟩
  rw [← hs2] at hx1
  have hx2 := xfer_listed (s := s2) (b := k)
    (rest := m ++ u :: v :: w.token :: (w.busyBytes ++ w.cmd.trail :: rest)) (by rw [hs2]; exact hq1)
    (by simp [hs2, hc1]) dataStartToken
  obtain ⟨s3, hs3⟩ : ∃ s3 : State, s3 = play 1 [.xfer dataStartToken k] s2 := ⟨_, rfl⟩
  rw [← hs3] at hx2
  have hq3 : s3.env.arrivals = [] := by rw [hs3, hs2]; exact hq1
  have hc3 : s3.env.cardIn = m ++ (u :: v :: w.token :: (w.busyBytes ++ w.cmd.trail :: rest)) := by
    simp [hs3, hs2, hc1]
  have hb3 : (List.range m.length).map (fun j => memRead s3.mem (buf + j)) = blockAt s buf := by
    rw [← hb1, hm, hs3, hs2]; rfl
  have hx3 := sendPayload_listed m (a := buf) (c := 0) (s := s3) hq3 hc3
    (by rw [hm, hs3, hs2]; exact ha1)
  rw [hb3, hm] at hx3
  obtain ⟨c, hcc⟩ : ∃ c, c = crc16 (blockAt s buf) := ⟨_, rfl⟩
  have hfold : (blockAt s buf).foldl crc16Byte 0 = c := hcc.symm
  rw [hfold] at hx3
  obtain ⟨s4, hs4⟩ : ∃ s4 : State, s4 = { play sectorSize (List.zipWith BusEvent.xfer (blockAt s buf) m) s3 with
    work.crc16 := c } := ⟨_, rfl⟩
  have hq4 : s4.env.arrivals = [] := by rw [hs4]; exact hq3
  have hc4 : s4.env.cardIn = u :: v :: w.token :: (w.busyBytes ++ w.cmd.trail :: rest) := by
    rw [hs4]
    show List.drop sectorSize s3.env.cardIn = _
    rw [hc3]
    exact List.drop_left' hm
  have hx4 := xfer_listed hq4 hc4 (c.extractLsb' 8 8)
  obtain ⟨s5, hs5⟩ : ∃ s5 : State, s5 = play 1 [.xfer (c.extractLsb' 8 8) u] s4 := ⟨_, rfl⟩
  rw [← hs5] at hx4
  have hx5 := xfer_listed (s := s5) (b := v) (rest := w.token :: (w.busyBytes ++ w.cmd.trail :: rest))
    (by rw [hs5]; exact hq4) (by simp [hs5, hc4]) (c.extractLsb' 0 8)
  obtain ⟨s6, hs6⟩ : ∃ s6 : State, s6 = play 1 [.xfer (c.extractLsb' 0 8) v] s5 := ⟨_, rfl⟩
  rw [← hs6] at hx5
  have hx6 := xfer_listed (s := s6) (b := w.token) (rest := w.busyBytes ++ w.cmd.trail :: rest)
    (by rw [hs6, hs5]; exact hq4) (by simp [hs6, hs5, hc4]) idleByte
  obtain ⟨s7, hs7⟩ : ∃ s7 : State, s7 = { play 1 [.xfer idleByte w.token] s6 with work.token := w.token } := ⟨_, rfl⟩
  have hq7 : s7.env.arrivals = [] := by rw [hs7, hs6, hs5]; exact hq4
  have hp7 : s7.params = s.params := by rw [hs7, hs6, hs5, hs4, hs3, hs2, hs1]; rfl
  obtain ⟨p, hx7⟩ := waitNotBusy_listed (w := w) (s := s7) (rest := w.cmd.trail :: rest) hbusy
    (by rw [hp7]; exact hlen) hq7 (by simp [hs7, hs6, hs5, hc4])
  obtain ⟨s8, hs8⟩ : ∃ s8 : State, s8 = { play w.busyBytes.length (idleEvents w.busyBytes) s7 with
    work := { s7.work with poll := p } } := ⟨_, rfl⟩
  have hx7' : waitNotBusy s7 = .done w.released s8 := by rw [hs8]; exact hx7
  have hx8 := cmdEnd_listed (s := s8) (z := w.cmd.trail) (rest := rest) (by rw [hs8]; exact hq7)
    (by simp [hs8, hs7, hs6, hs5, hc4, List.drop_append])
  have htok : s8.work.token = w.token := by rw [hs8, hs7]
  have hcrc : s8.work.crc16 = c := by rw [hs8, hs7, hs6, hs5, hs4]; rfl
  refine ⟨p, ?_⟩
  rw [blockWrite, h0', andThen_done, if_pos rfl, writeDataBlock, hx1, andThen_done, hx2, andThen_done, hx3,
    andThen_done, ← hs4, hx4, andThen_done, hx5, andThen_done, hx6, andThen_done, ← hs7, hx7', andThen_done,
    andThen_done, andThen_done, htok, hcrc, hx8, andThen_done, ← hcc]
  simp [hs8, hs7, hs6, hs5, hs4, hs3, hs2, hs1, play, openWork, WriteScript.bytes, WriteScript.events, idleEvents,
    WriteScript.verdict, hl, hm, packetBytes, ← hcc, crcBytes,
    zipWith_snoc2 BusEvent.xfer (blockAt s buf) m (by simp [blockAt, hm])]
  omega

end Sys2Proof.Machine
end

