-- ==== Sys2Proof/Laws/Kept.lean ====
section
/-!
SUPPORT. A property kept by bytes exchanged (`DataKept`) is kept by every part of a transaction after its frame, one that
every event keeps (`EventKept`) by whole transactions, and by the data phases where a buffer write keeps it too. `BusKept`
and `BufKept` name the properties that whole transactions keep.
-/

namespace Sys2Proof.Machine

open Sys2Proof

variable {P : BitVec 6 → Word → Prop} {I H : State → Prop}

theorem xfer_keeps (h : DataKept I H) (o : Byte) : keeps I H (xfer o) :=
  keeps_andThen h.tick fun _ s hs => h.sent _ _ _ (h.draw s hs)

theorem assertCS_keeps (h : EventKept P I H) : keeps I H assertCS :=
  keeps_andThen h.tick fun _ s hs => h.event _ _ (h.select s true hs)

theorem deassertCS_keeps (h : EventKept P I H) : keeps I H deassertCS :=
  keeps_andThen h.tick fun _ s hs => h.event _ _ (h.select s false hs)

theorem waitIdleLoop_keeps (h : DataKept I H) (n : Nat) : keeps I H (waitIdleLoop n) := by
  induction n with
  | zero => exact fun s hs => hs
  | succ n ih =>
    refine keeps_andThen (xfer_keeps h _) fun b s hs => ?_
    dsimp only
    split_ifs
    · exact hs
    · exact ih _ (h.work s _ rfl hs)

theorem waitIdle_keeps (h : DataKept I H) : keeps I H waitIdle :=
  fun s hs => waitIdleLoop_keeps h _ _ (h.work s _ rfl hs)

theorem sendBytes_keeps (h : DataKept I H) (d : List Byte) : keeps I H (sendBytes d) := by
  induction d with
  | nil => exact fun s hs => hs
  | cons b d ih =>
    refine keeps_andThen (xfer_keeps h _) fun v s hs => ih _ ?_
    split_ifs
    · exact hs
    · exact h.work s _ rfl hs

theorem sendFrame_keeps (h : DataKept I H) (idx : BitVec 6) (arg : Word) : keeps I H (sendFrame idx arg) :=
  fun s hs => sat_andThen (sendBytes_keeps h _ _ (h.work s _ rfl hs)) fun _ _ ht => ht

theorem pollLoop_keeps (h : DataKept I H) (n : Nat) : keeps I H (pollLoop n) := by
  induction n with
  | zero => exact fun s hs => hs
  | succ n ih =>
    refine keeps_andThen (xfer_keeps h _) fun b s hs => ?_
    dsimp only
    split_ifs
    · exact ih _ (h.work s _ rfl hs)
    · exact h.work s _ rfl hs

theorem pollResponse_keeps (h : DataKept I H) : keeps I H pollResponse :=
  fun s hs => pollLoop_keeps h _ _ (h.work s _ rfl hs)

theorem cmdBegin_keeps (h : EventKept P I H) {idx : BitVec 6} {arg : Word} (hp : P idx arg) :
    keeps I H (cmdBegin idx arg) := by
  intro s hs
  refine sat_andThen (assertCS_keeps h _ (h.latch s _ _ hp hs)) fun _ s hs => ?_
  refine sat_andThen (waitIdle_keeps h.toDataKept s hs) fun e s hs => ?_
  cases e with
  | some k => exact hs
  | none =>
    refine sat_andThen (sendFrame_keeps h.toDataKept _ _ s hs) fun e s hs => ?_
    cases e with
    | some k => exact hs
    | none => exact pollResponse_keeps h.toDataKept s hs

theorem cmdEnd_keeps (h : EventKept P I H) : keeps I H cmdEnd :=
  keeps_andThen (deassertCS_keeps h) fun _ => keeps_andThen (xfer_keeps h.toDataKept _) fun _ => keeps_done ()

theorem readPayload_keeps (h : DataKept I H) : keeps I H readPayload :=
  keeps_andThen (xfer_keeps h _) fun _ => keeps_andThen (xfer_keeps h _) fun _ =>
    keeps_andThen (xfer_keeps h _) fun _ => keeps_andThen (xfer_keeps h _) fun _ s hs => h.work s _ rfl hs

/-- Every transaction without a data phase keeps what the transport keeps. -/
theorem command_keeps (h : EventKept P I H) {idx : BitVec 6} {arg : Word} (hp : P idx arg) :
    keeps I H (command idx arg) := by
  refine keeps_andThen (cmdBegin_keeps h hp) fun r s hs => ?_
  refine sat_andThen (D := fun _ => I) ?_ fun _ s hs => sat_andThen (cmdEnd_keeps h s hs) fun _ _ ht => ht
  split_ifs
  · exact readPayload_keeps h.toDataKept s hs
  · exact hs

theorem tokenLoop_keeps (h : DataKept I H) (n : Nat) : keeps I H (tokenLoop n) := by
  induction n with
  | zero => exact fun s hs => hs
  | succ n ih =>
    refine keeps_andThen (xfer_keeps h _) fun t s hs => ?_
    dsimp only
    split
    · exact h.work s _ rfl hs
    · exact h.work s _ rfl hs
    · exact ih _ (h.work s _ rfl hs)

/-- A property that bytes exchanged and every admitted buffer write keep; a stuck access leaves a state that meets
`H`. -/
structure StoreKept (I H : State → Prop) : Prop extends DataKept I H where
  store : ∀ s a v, I s → admits s a = true → I { s with mem := memWrite s.mem a v }
  stuck : ∀ s, I s → H s

theorem bufWrite_keeps (h : StoreKept I H) (a : Nat) (v : Byte) : keeps I H (bufWrite a v) := by
  refine keeps_andThen h.tick fun _ s hs => ?_
  split_ifs with ha
  · exact h.store s a v hs ha
  · exact h.stuck s hs

theorem bufRead_keeps (h : StoreKept I H) (a : Nat) : keeps I H (bufRead a) := by
  refine keeps_andThen h.tick fun _ s hs => ?_
  split_ifs
  · exact hs
  · exact h.stuck s hs

theorem receiveBytes_keeps (h : StoreKept I H) (n : Nat) : ∀ a c, keeps I H (receiveBytes n a c) := by
  induction n with
  | zero => exact fun _ _ s hs => hs
  | succ n ih =>
    exact fun a c => keeps_andThen (xfer_keeps h.toDataKept _) fun v => keeps_andThen (bufWrite_keeps h a v) fun _ =>
      ih _ _

theorem receiveBlock_keeps (h : StoreKept I H) (buf : Nat) : keeps I H (receiveBlock buf) :=
  keeps_andThen (receiveBytes_keeps h _ _ _) fun _ => keeps_andThen (xfer_keeps h.toDataKept _) fun _ =>
    keeps_andThen (xfer_keeps h.toDataKept _) fun _ s hs => h.work s _ rfl hs

theorem readDataBlock_keeps (h : StoreKept I H) (buf : Nat) : keeps I H (readDataBlock buf) := by
  intro s hs
  refine sat_andThen (tokenLoop_keeps h.toDataKept _ _ (h.work s _ rfl hs)) fun e s hs => ?_
  cases e with
  | some k => exact hs
  | none => exact sat_andThen (receiveBlock_keeps h buf s hs) fun _ _ ht => ht

/-- A block read keeps what every event and the buffer writes keep. -/
theorem blockRead_keeps (h : EventKept P I H) (hd : StoreKept I H) {idx : BitVec 6} {addr : Word}
    (hp : P idx addr) (buf : Nat) : keeps I H (blockRead idx addr buf) := by
  refine keeps_andThen (cmdBegin_keeps h hp) fun r s hs => ?_
  refine sat_andThen (D := fun _ => I) ?_ fun _ s hs => sat_andThen (cmdEnd_keeps h s hs) fun _ _ ht => ht
  split_ifs
  · exact readDataBlock_keeps hd buf s hs
  · exact hs

theorem sendPayload_keeps (h : StoreKept I H) (n : Nat) : ∀ a c, keeps I H (sendPayload n a c) := by
  induction n with
  | zero => exact fun _ _ s hs => hs
  | succ n ih =>
    exact fun a c => keeps_andThen (bufRead_keeps h a) fun v => keeps_andThen (xfer_keeps h.toDataKept v) fun _ =>
      ih _ _

theorem busyLoop_keeps (h : DataKept I H) (n : Nat) : keeps I H (busyLoop n) := by
  induction n with
  | zero => exact fun s hs => hs
  | succ n ih =>
    refine keeps_andThen (xfer_keeps h _) fun b s hs => ?_
    dsimp only
    split_ifs
    · exact hs
    · exact ih _ (h.work s _ rfl hs)

theorem writeDataBlock_keeps (h : StoreKept I H) (buf : Nat) : keeps I H (writeDataBlock buf) := by
  have hx := xfer_keeps h.toDataKept
  refine keeps_andThen (hx _) fun _ => keeps_andThen (hx _) fun _ =>
    keeps_andThen (sendPayload_keeps h _ _ _) fun c s hs => ?_
  refine sat_andThen (hx _ _ (h.work s _ rfl hs)) fun _ s hs => sat_andThen (hx _ s hs) fun _ s hs =>
    sat_andThen (hx _ s hs) fun t s hs => ?_
  exact sat_andThen (busyLoop_keeps h.toDataKept _ _ (h.work _ _ rfl (h.work s _ rfl hs))) fun _ _ ht => ht

/-- A block write keeps what every event keeps. -/
theorem blockWrite_keeps (h : EventKept P I H) (hd : StoreKept I H) {addr : Word} (hp : P 24 addr) (buf : Nat) :
    keeps I H (blockWrite addr buf) := by
  refine keeps_andThen (cmdBegin_keeps h hp) fun r s hs => ?_
  refine sat_andThen (D := fun _ => I) ?_ fun _ s hs => sat_andThen (cmdEnd_keeps h s hs) fun _ _ ht => ht
  split_ifs
  · exact sat_andThen (writeDataBlock_keeps hd buf s hs) fun _ _ ht => ht
  · exact hs

/-! ### Whole transactions -/

/-- A property that whole transactions keep, of the commands whose index and argument meet `P`, and what happens between them. -/
structure BusKept (P : BitVec 6 → Word → Prop) (I H : State → Prop) : Prop extends DataKept I H where
  deselect : keeps I H deassertCS
  clocked : ∀ s m, I s → I (record (.setClock m) s)
  command : ∀ idx arg, P idx arg → keeps I H (command idx arg)

/-- Also the block transactions keep the property. -/
structure BufKept (P : BitVec 6 → Word → Prop) (I H : State → Prop) : Prop extends BusKept P I H where
  blockRead : ∀ idx addr buf, P idx addr → keeps I H (blockRead idx addr buf)
  blockWrite : ∀ addr buf, P 24 addr → keeps I H (blockWrite addr buf)

/-- What every event keeps, whole transactions keep. -/
theorem EventKept.toBusKept (h : EventKept P I H) : BusKept P I H :=
  ⟨h.toDataKept, deassertCS_keeps h, fun s _ hs => h.event s _ hs, fun _ _ hp => command_keeps h hp⟩

/-- What every event and every admitted buffer write keep, the block transactions keep. -/
theorem EventKept.toBufKept (h : EventKept P I H)
    (store : ∀ s a v, I s → admits s a = true → I { s with mem := memWrite s.mem a v }) (stuck : ∀ s, I s → H s) :
    BufKept P I H :=
  ⟨h.toBusKept, fun _ _ buf hp => blockRead_keeps h ⟨h.toDataKept, store, stuck⟩ hp buf,
    fun _ buf hp => blockWrite_keeps h ⟨h.toDataKept, store, stuck⟩ hp buf⟩

theorem appCommand_keeps (h : BusKept P I H) {idx : BitVec 6} {arg : Word} (ha : P 55 0)
    (hp : P idx arg) :
    keeps I H (appCommand idx arg) := by
  refine keeps_andThen (h.command 55 0 ha) fun p s hs => ?_
  split_ifs
  · exact h.command idx arg hp s hs
  · exact hs

end Sys2Proof.Machine
end

