-- ==== Sys2Proof/Laws/Serve.lean ====
section
/-!
SUPPORT. What serving comes to when nothing arrives: one lemma for a request and one for a frame run by itself; and what
the transport leaves alone when nothing arrives.
-/

namespace Sys2Proof.Machine

open Sys2Proof

variable {s t : State}

/-- A host request whose body is done: the lock is free again and its one reply is given (R301). -/
theorem serveRequest_done {i : Instr} {body : State → Ran Reply} {r : Reply} (hl : s.sync.lock = none)
    (hb : body (acquire i s) = .done r t) (hq : t.env.arrivals = []) :
    serveRequest i body s = .next (respond t.sync.caller r (release { t with work.result := r.result })) := by
  simp [serveRequest, underLock, hl, hb, completeRequest, tick_quiet hq]

/-- A frame run by itself whose transaction is done. -/
theorem serveFrame_done {i : Instr} {body : State → Ran Result} {r : Result} (hl : s.sync.lock = none)
    (hb : body (acquire i s) = .done r t) (hq : t.env.arrivals = []) :
    serveFrame i body s = .next (release { t with work.result := r.code }) := by
  simp [serveFrame, underLock, hl, hb, completeFrame, tick_quiet hq]

/-- With the lock held by a request in service, every instruction that takes the lock waits (R71). -/
theorem underLock_held {i : Instr} {w : State → Ran Unit} {owner : Nat} (hl : s.sync.lock = some owner) :
    underLock i w s = .next (waitForLock i s) := by
  simp [underLock, hl]

/-- A well-formed buffer range is not refused. -/
theorem withBuffer_inRange {buf n : Nat} {run : State → Host.Outcome State Fault Refusal}
    (h : bufferInRange s.params.bufAddrW buf n = true) : withBuffer buf n run s = run s := by
  simp [withBuffer, h]

/-- `t` differs from `s` in the transport at most: the working registers, the chip select, the trace and the answers
drawn. -/
def sameOutside (s t : State) : Prop :=
  t.params = s.params ∧ t.session = s.session ∧ t.log = s.log ∧ t.sync = s.sync ∧ t.mem = s.mem ∧
    t.noAccess = s.noAccess ∧ t.env.arrivals = s.env.arrivals ∧ t.env.order = s.env.order ∧
    t.env.picks = s.env.picks ∧ t.responses = s.responses

theorem sameOutside_refl (s : State) : sameOutside s s := ⟨rfl, rfl, rfl, rfl, rfl, rfl, rfl, rfl, rfl, rfl⟩

/-- With nothing arriving the transport touches nothing outside itself and is never halted. -/
theorem sameOutside_kept (hq : s.env.arrivals = []) : EventKept (fun _ _ => True) (sameOutside s) (fun _ => False) where
  tick t ht := by
    have : t.env.arrivals = [] := ht.2.2.2.2.2.2.1.trans hq
    rw [tick_quiet this]
    exact ht
  draw t ht := by
    unfold drawByte
    split <;> exact ht
  event _ _ ht := ht
  select _ _ ht := ht
  latch _ _ _ _ ht := ht
  work _ _ _ ht := ht

/-- A run that cannot be halted is done. -/
theorem done_of_sat {α : Type} {r : Ran α} {D : α → State → Prop} (h : sat r D fun _ => False) :
    ∃ a t, r = .done a t ∧ D a t := by
  cases r with
  | done a t => exact ⟨a, t, rfl, h⟩
  | halt t => exact h.elim

/-- What lands touches neither the configuration nor the map of the memory. -/
theorem landDue_fixed (l : List (Nat × Arrival)) :
    ∀ s, sat (landDue l s) (fun _ t => t.params = s.params ∧ t.noAccess = s.noAccess)
      (fun t => t.params = s.params ∧ t.noAccess = s.noAccess) := by
  induction l with
  | nil => exact fun _ => ⟨rfl, rfl⟩
  | cons x l ih =>
    intro s
    obtain ⟨n, a⟩ := x
    cases n with
    | succ n => exact ⟨rfl, rfl⟩
    | zero =>
      cases a with
      | request p =>
        have h := ih (receive p s)
        rw [receive_params, receive_noAccess] at h
        exact h
      | bufWrite b v =>
        have h := ih (callerWrite b v s)
        rw [callerWrite_params, callerWrite_noAccess] at h
        exact h
      | reset => exact ⟨rfl, rfl⟩

/-- No run writes the configuration or the map of the memory (R8, R307). -/
theorem fixed_kept (p : Params) (m : List Region) :
    BufKept (fun _ _ => True) (fun s => s.params = p ∧ s.noAccess = m) (fun s => s.params = p ∧ s.noAccess = m) :=
  EventKept.toBufKept (h :=
    { tick := fun s hs => by
        have h := landDue_fixed s.env.arrivals s
        rw [hs.1, hs.2] at h
        exact h
      draw := fun s hs => by
        unfold drawByte
        split <;> exact hs
      event := fun _ _ hs => hs
      select := fun _ _ hs => hs
      latch := fun _ _ _ _ hs => hs
      work := fun _ _ _ hs => hs })
    (fun _ _ _ hs _ => hs) fun _ hs => hs

end Sys2Proof.Machine
end

