-- ==== Sys2Proof/Laws/Exec.lean ====
section
/-!
SUPPORT. What one instruction can do, once for all instructions: a property that every event, every log record and every
session register keeps holds when the instruction ends, in one of five ways.
-/

namespace Sys2Proof.Machine

open Sys2Proof

variable {P : BitVec 6 → Word → Prop} {I H : State → Prop} {s t : State}

/-- Also a log record keeps the property. -/
structure LogKept (P : BitVec 6 → Word → Prop) (I H : State → Prop) : Prop extends BufKept P I H where
  log : ∀ s r, I s → I (logAppend r s)

/-- A property the transport and any write of the session registers keep. -/
structure PhaseKept (P : BitVec 6 → Word → Prop) (I H : State → Prop) : Prop extends BusKept P I H where
  session : ∀ s r, I s → I { s with session := r }

/-- Also the log emptied and the session registers keep the property. -/
structure RunKept (P : BitVec 6 → Word → Prop) (I H : State → Prop) : Prop extends LogKept P I H where
  clear : ∀ s, I s → I (logClear s)
  session : ∀ s r, I s → I { s with session := r }

theorem RunKept.toPhaseKept (h : RunKept P I H) : PhaseKept P I H := ⟨h.toBusKept, h.session⟩

/-! ### Sector requests -/

theorem whenReady_keeps {body : State → Ran Code} (hb : keeps I H body) : keeps I H (whenReady body) := by
  intro s hs
  unfold whenReady
  split_ifs
  · exact sat_andThen (hb s hs) fun _ _ ht => ht
  · exact hs

theorem readSectorBody_keeps (h : LogKept P I H) (hp : ∀ a, P 17 a) (buf : Nat) (sector : Word) :
    keeps I H (readSectorBody buf sector) := by
  intro s hs
  refine sat_andThen (h.blockRead 17 _ buf (hp _) s hs) fun r s hs => ?_
  simp only [sat_done]
  split_ifs
  · exact hs
  · exact h.log _ _ hs

theorem writeOnce_keeps (h : LogKept P I H) (hp : ∀ a, P 24 a) (buf : Nat) (sector : Word) :
    keeps I H (writeOnce buf sector) := by
  intro s hs
  refine sat_andThen (h.blockWrite _ buf (hp _) s hs) fun w s hs => ?_
  simp only [sat_done]
  split_ifs
  · exact hs
  · exact h.log _ _ hs

theorem writeLoop_keeps (h : LogKept P I H) (hp : ∀ a, P 24 a) (n buf : Nat) (sector : Word) :
    keeps I H (writeLoop n buf sector) := by
  induction n with
  | zero => exact fun _ hs => hs
  | succ n ih =>
    intro s hs
    refine sat_andThen (writeOnce_keeps h hp buf sector s hs) fun c s hs => ?_
    dsimp only
    split_ifs
    · exact ih _ (h.work _ _ rfl hs)
    · exact h.work _ _ rfl hs

theorem writeSectorBody_keeps (h : LogKept P I H) (hp : ∀ a, P 24 a) (buf : Nat) (sector : Word) :
    keeps I H (writeSectorBody buf sector) :=
  fun _ hs => writeLoop_keeps h hp _ _ _ _ (h.work _ _ rfl hs)

theorem rangeLoop_keeps {one : Nat → Word → State → Ran Code} (ho : ∀ b w, keeps I H (one b w)) (n : Nat) :
    ∀ buf sector, keeps I H (rangeLoop one n buf sector) := by
  induction n with
  | zero => exact fun _ _ _ hs => hs
  | succ n ih =>
    intro buf sector s hs
    refine sat_andThen (ho buf sector s hs) fun c s hs => ?_
    split_ifs
    · exact ih _ _ s hs
    · exact hs

/-! ### STARTUP and INITIALIZE -/

theorem setClock_keeps (h : PhaseKept P I H) (m : ClkMode) : keeps I H (setClock m) :=
  keeps_andThen h.tick fun _ s hs => h.clocked _ _ (h.session s _ hs)

theorem clockIdle_keeps (h : DataKept I H) (n : Nat) : keeps I H (clockIdle n) := by
  induction n with
  | zero => exact fun s hs => hs
  | succ n ih => exact keeps_andThen (xfer_keeps h _) fun _ => ih

theorem probeLoop_keeps (h : PhaseKept P I H) (hp : P 0 0) (n : Nat) : keeps I H (probeLoop n) := by
  induction n with
  | zero => exact fun s hs => hs
  | succ n ih =>
    intro s hs
    refine sat_andThen (h.command 0 0 hp s hs) fun r s hs => ?_
    dsimp only
    split_ifs
    · exact hs
    · split
      · exact h.work _ _ rfl hs
      · exact h.work _ _ rfl hs
      · exact hs
    · split
      · exact ih _ (h.work _ _ rfl hs)
      · exact ih _ (h.work _ _ rfl hs)
      · exact hs

theorem probing_keeps (h : PhaseKept P I H) (hp : P 0 0) : keeps I H probing := by
  intro s hs
  refine sat_andThen (setClock_keeps h _ _ (h.session s _ hs)) fun _ s hs => ?_
  refine sat_andThen (h.deselect s hs) fun _ s hs => ?_
  refine sat_andThen (clockIdle_keeps h.toDataKept _ s hs) fun _ s hs => ?_
  exact probeLoop_keeps h hp _ _ (h.work _ _ rfl hs)

theorem voltageCheck_keeps (h : PhaseKept P I H) (hp : P 8 cmd8Argument) : keeps I H voltageCheck := by
  intro s hs
  refine sat_andThen (h.command _ _ hp _ (h.session s _ hs)) fun r s hs => ?_
  dsimp only
  split
  · exact hs
  · split_ifs
    · exact h.session _ _ hs
    · exact h.session _ _ hs
    · exact hs

/-- `P` holds of CMD1, CMD55 and ACMD41. -/
abbrev negotiates (P : BitVec 6 → Word → Prop) : Prop := P 1 0 ∧ (∀ hcs, P 41 (acmd41Argument hcs)) ∧ P 55 0

theorem negotiate_keeps (h : PhaseKept P I H) (hp : negotiates P) : keeps I H negotiate := by
  intro s hs
  unfold negotiate
  split
  · exact h.command _ _ hp.1 s hs
  · refine sat_andThen (appCommand_keeps h.toBusKept hp.2.2 (hp.2.1 _) s hs) fun r s hs => ?_
    simp only [sat_done]
    split_ifs
    · exact h.session _ _ hs
    · exact hs

theorem idleWaitLoop_keeps (h : PhaseKept P I H) (hp : negotiates P) (n : Nat) : keeps I H (idleWaitLoop n) := by
  induction n with
  | zero => exact fun s hs => hs
  | succ n ih =>
    intro s hs
    refine sat_andThen (negotiate_keeps h hp s hs) fun r s hs => ?_
    dsimp only
    split_ifs
    · exact h.work _ _ rfl hs
    · exact h.work _ _ rfl hs
    · exact ih _ (h.work _ _ rfl hs)

theorem idleWait_keeps (h : PhaseKept P I H) (hp : negotiates P) : keeps I H idleWait :=
  fun s hs => idleWaitLoop_keeps h hp _ _
    (h.work { s with session.state := .idleWait } _ rfl (h.session s _ hs))

theorem capacityCheck_keeps (h : PhaseKept P I H) (hp : P 58 0) : keeps I H capacityCheck := by
  intro s hs
  refine sat_andThen (h.command _ _ hp _ (h.session s _ hs)) fun r s hs => ?_
  dsimp only
  split
  · exact hs
  · split_ifs
    · exact hs
    · exact hs
    · exact h.session _ _ hs
    · exact hs

theorem configuring_keeps (h : PhaseKept P I H) (hp : P 16 cmd16Argument ∧ P 59 cmd59Argument) : keeps I H configuring := by
  intro s hs
  refine sat_andThen (D := fun _ => I)
    (sat_andThen (h.command _ _ hp.1 _ (h.session s _ hs)) fun _ _ ht => ht) fun v s hs => ?_
  dsimp only
  split
  · exact sat_andThen (h.command _ _ hp.2 s hs) fun _ _ ht => ht
  · exact hs

theorem thenPhase_keeps {f g : State → Ran Verdict} (hf : keeps I H f) (hg : keeps I H g) :
    keeps I H fun s => thenPhase (f s) g := by
  intro s hs
  refine sat_andThen (hf s hs) fun v s hs => ?_
  split
  · exact hg s hs
  · exact hs

theorem negotiation_keeps (h : PhaseKept P I H) (hp : ∀ idx arg, issues idx arg → P idx arg) : keeps I H negotiation := by
  have hq : negotiates P := ⟨hp _ _ (by decide), fun hcs => hp _ _ (by revert hcs; decide), hp _ _ (by decide)⟩
  have h1 := thenPhase_keeps (probing_keeps h (hp _ _ (by decide))) (voltageCheck_keeps h (hp _ _ (by decide)))
  have h2 := thenPhase_keeps h1 (idleWait_keeps h hq)
  have h3 := thenPhase_keeps h2 (capacityCheck_keeps h (hp _ _ (by decide)))
  exact thenPhase_keeps h3 (configuring_keeps h ⟨hp _ _ (by decide), hp _ _ (by decide)⟩)

theorem startupBody_keeps (h : RunKept P I H) (hp : ∀ idx arg, issues idx arg → P idx arg) : keeps I H startupBody := by
  intro s hs
  unfold startupBody
  split
  · exact hs
  · exact hs
  · refine sat_andThen (negotiation_keeps h.toPhaseKept hp s hs) fun v s hs => ?_
    cases v with
    | pass =>
      exact sat_andThen (setClock_keeps h.toPhaseKept _ s hs) fun _ s hs => h.session _ _ hs
    | fault k r => exact h.log _ _ (h.session _ _ hs)

theorem initBody_keeps (h : PhaseKept P I H) : keeps I H initBody :=
  fun s hs => sat_andThen (setClock_keeps h _ _ (h.session s _ hs)) fun _ s hs =>
    sat_andThen (h.deselect s hs) fun _ _ ht => ht

/-! ### Whole instructions -/

/-- The five ways an instruction ends in a next state: a reply without the lock, a wait for the lock, a request
completed, a frame completed, or a run halted. -/
inductive Ends (I H : State → Prop) (i : Instr) (s t : State) : Prop
  | unlocked (r : Reply) (hi : takesLock i = false) (ht : t = respond s.sync.caller r s)
  | waits (owner : Nat) (hi : takesLock i = true) (hl : s.sync.lock = some owner) (ht : t = waitForLock i s)
  | completes (u : State) (r : Reply) (hi : isLockedRequest i = true) (hl : s.sync.lock = none) (hu : I u)
      (ht : t = respond u.sync.caller r (release { u with work.result := r.result }))
  | framed (u : State) (c : Code) (hi : takesLock i = true) (hl : s.sync.lock = none) (hu : I u)
      (ht : t = release { u with work.result := c })
  | halted (hi : takesLock i = true) (hl : s.sync.lock = none) (ht : H t)

theorem serveRequest_ends {i : Instr} {body : State → Ran Reply} (hk : BusKept P I H) (hb : keeps I H body)
    (hi : isLockedRequest i = true) (hi' : takesLock i = true) (ha : s.sync.lock = none → I (acquire i s))
    (h : serveRequest i body s = .next t) : Ends I H i s t := by
  unfold serveRequest underLock at h
  split at h
  · rename_i o hl
    exact .waits o hi' hl (by simpa using h.symm)
  · rename_i hl
    have hs := sat_andThen (hb _ (ha hl)) (f := completeRequest) (H := H)
      (E := fun _ t => ∃ u r, I u ∧ t = respond u.sync.caller r (release { u with work.result := r.result }))
      fun r u hu => sat_andThen (hk.tick u hu) fun _ u hu => ⟨u, r, hu, rfl⟩
    have ht : ((body (acquire i s)).andThen completeRequest).final = t := Host.Outcome.next.inj h
    revert hs ht
    generalize (body (acquire i s)).andThen completeRequest = w
    intro hs ht
    cases w with
    | done a w =>
      obtain ⟨u, r, hu, hw⟩ := hs
      exact .completes u r hi hl hu (ht.symm.trans hw)
    | halt w => exact .halted hi' hl (by rw [← ht]; exact hs)

theorem serveFrame_ends {i : Instr} {body : State → Ran Result} (hk : BusKept P I H) (hb : keeps I H body)
    (hi : takesLock i = true) (ha : s.sync.lock = none → I (acquire i s))
    (h : serveFrame i body s = .next t) : Ends I H i s t := by
  unfold serveFrame underLock at h
  split at h
  · rename_i o hl
    exact .waits o hi hl (by simpa using h.symm)
  · rename_i hl
    have hs := sat_andThen (hb _ (ha hl)) (f := completeFrame) (H := H)
      (E := fun _ t => ∃ u c, I u ∧ t = release { u with work.result := c })
      fun r u hu => sat_andThen (hk.tick u hu) fun _ u hu => ⟨u, r.code, hu, rfl⟩
    have ht : ((body (acquire i s)).andThen completeFrame).final = t := Host.Outcome.next.inj h
    revert hs ht
    generalize (body (acquire i s)).andThen completeFrame = w
    intro hs ht
    cases w with
    | done a w =>
      obtain ⟨u, c, hu, hw⟩ := hs
      exact .framed u c hi hl hu (ht.symm.trans hw)
    | halt w => exact .halted hi hl (by rw [← ht]; exact hs)

theorem withBuffer_next {buf n : Nat} {run : State → Host.Outcome State Fault Refusal}
    (h : withBuffer buf n run s = .next t) : run s = .next t := by
  unfold withBuffer at h
  split_ifs at h
  exact h

/-- A sector request ends in one of the five ways, for a property that need not hold of changed session registers. -/
theorem sectorRequest_ends {i : Instr} (hk : LogKept P I H) (hp : (∀ a, P 17 a) ∧ ∀ a, P 24 a) (hi : isSectorRequest i = true)
    (ha : s.sync.lock = none → I (acquire i s)) (h : exec i s = .next t) : Ends I H i s t := by
  cases i <;> simp only [isSectorRequest, Bool.false_eq_true] at hi <;> simp only [exec] at h
  · exact serveRequest_ends hk.toBusKept (whenReady_keeps (readSectorBody_keeps hk hp.1 _ _)) rfl rfl ha
      (withBuffer_next h)
  · exact serveRequest_ends hk.toBusKept
      (whenReady_keeps (rangeLoop_keeps (fun b w => readSectorBody_keeps hk hp.1 b w) _ _ _)) rfl rfl ha
      (withBuffer_next h)
  · exact serveRequest_ends hk.toBusKept (whenReady_keeps (writeSectorBody_keeps hk hp.2 _ _)) rfl rfl ha
      (withBuffer_next h)
  · exact serveRequest_ends hk.toBusKept
      (whenReady_keeps (rangeLoop_keeps (fun b w => writeSectorBody_keeps hk hp.2 b w) _ _ _)) rfl rfl ha
      (withBuffer_next h)

/-- A frame run by itself ends in one of the five ways, for a property the transport and the buffer writes keep. -/
theorem frame_ends {i : Instr} (hk : BufKept P I H) (hp : ∀ idx arg, issues idx arg → P idx arg)
    (h18 : ∀ a b, i = .cmd18 a b → P 18 a) (hi : takesLock i = true) (hr : isLockedRequest i = false)
    (ha : s.sync.lock = none → I (acquire i s)) (h : exec i s = .next t) : Ends I H i s t := by
  have c41 : ∀ hcs, P 41 (acmd41Argument hcs) := fun hcs => hp _ _ (by revert hcs; decide)
  have c55 := hp 55 0 (by decide)
  have hb := hk.toBusKept
  cases i <;> simp only [isLockedRequest, takesLock, Bool.false_eq_true, Bool.true_eq_false] at hi hr <;>
    simp only [exec] at h
  · exact serveFrame_ends hb (hb.command _ _ (hp _ _ (by decide))) rfl ha h
  · exact serveFrame_ends hb (hb.command _ _ (hp _ _ (by decide))) rfl ha h
  · exact serveFrame_ends hb (hb.command _ _ (hp _ _ (by decide))) rfl ha h
  · exact serveFrame_ends hb (hb.command _ _ (hp _ _ (by decide))) rfl ha h
  · exact serveFrame_ends hb (hk.blockRead _ _ _ (hp _ _ (.inr (.inl rfl)))) rfl ha (withBuffer_next h)
  · exact serveFrame_ends hb (hk.blockRead _ _ _ (h18 _ _ rfl)) rfl ha (withBuffer_next h)
  · exact serveFrame_ends hb (keeps_andThen (hk.blockWrite _ _ (hp _ _ (.inr (.inr rfl)))) fun _ => keeps_done _) rfl ha
      (withBuffer_next h)
  · exact serveFrame_ends hb (hb.command _ _ c55) rfl ha h
  · exact serveFrame_ends hb (appCommand_keeps hb c55 (c41 _)) rfl ha h
  · exact serveFrame_ends hb (appCommand_keeps hb c55 (c41 _)) rfl ha h
  · exact serveFrame_ends hb (hb.command _ _ (hp _ _ (by decide))) rfl ha h
  · exact serveFrame_ends hb (hb.command _ _ (hp _ _ (by decide))) rfl ha h

/-- Every instruction that answers a next state ends in one of the five ways. -/
theorem exec_ends {i : Instr} (hk : RunKept P I H) (hp : ∀ idx arg, issues idx arg → P idx arg)
    (h18 : ∀ a b, i = .cmd18 a b → P 18 a) (ha : s.sync.lock = none → I (acquire i s)) (h : exec i s = .next t) :
    Ends I H i s t := by
  have hf : takesLock i = true → isLockedRequest i = false → Ends I H i s t := fun h1 h2 =>
    frame_ends hk.toBufKept hp h18 h1 h2 ha h
  have hs : isSectorRequest i = true → Ends I H i s t := fun h1 =>
    sectorRequest_ends hk.toLogKept ⟨fun _ => hp _ _ (.inr (.inl rfl)), fun _ => hp _ _ (.inr (.inr rfl))⟩ h1 ha h
  have hu : ∀ r, takesLock i = false → exec i s = .next (respond s.sync.caller r s) → Ends I H i s t :=
    fun r h1 h2 => .unlocked r h1 (Host.Outcome.next.inj (h.symm.trans h2))
  have hb := hk.toBusKept
  cases i with
  | cmd0 => exact hf rfl rfl
  | cmd1 => exact hf rfl rfl
  | cmd8 => exact hf rfl rfl
  | cmd16 => exact hf rfl rfl
  | cmd17 => exact hf rfl rfl
  | cmd18 => exact hf rfl rfl
  | cmd24 => exact hf rfl rfl
  | cmd55 => exact hf rfl rfl
  | acmd41Hcs1 => exact hf rfl rfl
  | acmd41Hcs0 => exact hf rfl rfl
  | cmd58 => exact hf rfl rfl
  | cmd59 => exact hf rfl rfl
  | initSession => exact serveRequest_ends hb (initBody_keeps hk.toPhaseKept) rfl rfl ha h
  | startup =>
    exact serveRequest_ends hb (startupBody_keeps hk hp) rfl rfl ha h
  | isReady => exact hu _ rfl rfl
  | readSector => exact hs rfl
  | readRange => exact hs rfl
  | writeSector => exact hs rfl
  | writeRange => exact hs rfl
  | dumpDiagnostics => exact serveRequest_ends (body := dumpBody) hb (fun s hs => hk.clear s hs) rfl rfl ha h
  | clearDiagnostics =>
    exact serveRequest_ends (body := fun s => .done (resultReply 0) (logClear s)) hb (fun s hs => hk.clear s hs) rfl rfl ha h
  | reserved9 => exact hu _ rfl rfl
  | reservedA => exact hu _ rfl rfl
  | reservedB => exact hu _ rfl rfl
  | reservedC => exact hu _ rfl rfl
  | reservedD => exact hu _ rfl rfl
  | reservedE => exact hu _ rfl rfl
  | reservedF => exact hu _ rfl rfl

end Sys2Proof.Machine
end

