-- ==== Sys2Proof/Laws/Framing.lean ====
section
/-!
SUPPORT. What is put on the bus after a selection of the card: the frame of the command the transaction carries, whatever
comes after it (`framesWithin`, R134, R135). Every transaction of a command the block sends keeps this.
-/

namespace Sys2Proof.Machine

open Sys2Proof

/-- After every selection in these events a frame of the command set has been sent whole, or the card was deselected
again without one: what follows changes nothing. -/
def settled (evs : List BusEvent) : Prop :=
  ∀ pre post, evs = pre ++ .assertCS :: post →
    ∃ idx arg, issues idx arg ∧ ∀ more, frameAfter (post ++ more) <+: commandBytes idx arg

theorem settled_nil : settled [] := fun pre post h => by simp at h

/-- Events without a selection are settled. -/
theorem settled_of_not_mem {evs : List BusEvent} (h : .assertCS ∉ evs) : settled evs :=
  fun pre post he => absurd (by simp [he]) h

theorem settled_append {a b : List BusEvent} (ha : settled a) (hb : settled b) : settled (a ++ b) := by
  intro pre post he
  rcases List.append_eq_append_iff.mp he with ⟨c, h1, h2⟩ | ⟨c, h1, h2⟩
  · exact hb c post h2
  · cases c with
    | nil => exact hb [] post (by simpa using h2.symm)
    | cons e c =>
      obtain ⟨rfl, rfl⟩ := List.cons.inj h2
      obtain ⟨idx, arg, hi, hm⟩ := ha pre c h1
      exact ⟨idx, arg, hi, fun more => by simpa using hm (b ++ more)⟩

theorem framesWithin_append {a b : List BusEvent} (ha : settled a) (hb : framesWithin b) : framesWithin (a ++ b) := by
  intro pre post he
  rcases List.append_eq_append_iff.mp he with ⟨c, h1, h2⟩ | ⟨c, h1, h2⟩
  · exact hb c post h2
  · cases c with
    | nil => exact hb [] post (by simpa using h2.symm)
    | cons e c =>
      obtain ⟨rfl, rfl⟩ := List.cons.inj h2
      obtain ⟨idx, arg, hi, hm⟩ := ha pre c h1
      exact ⟨idx, arg, hi, hm b⟩

theorem settled.framesWithin {evs : List BusEvent} (h : settled evs) : framesWithin evs := fun pre post he => by
  obtain ⟨idx, arg, hi, hm⟩ := h pre post he
  exact ⟨idx, arg, hi, by simpa using hm []⟩

/-- The Xfer events of bytes sent and their answers. -/
def xfers (l : List (Byte × Byte)) : List BusEvent := l.map fun x => .xfer x.1 x.2

theorem sentBytes_xfers (l : List (Byte × Byte)) (more : List BusEvent) :
    sentBytes (xfers l ++ more) = l.map Prod.fst ++ sentBytes more := by
  induction l with
  | nil => rfl
  | cons x l ih => simpa [xfers, sentBytes] using ih

/-- The first byte of a frame is not idle (R90: bit 47 is 0). -/
theorem commandBytes_cons (idx : BitVec 6) (arg : Word) :
    ∃ b d, commandBytes idx arg = b :: d ∧ b ≠ idleByte ∧ d.length = 5 := by
  refine ⟨_, _, rfl, ?_, rfl⟩
  intro h
  have h7 := congrArg (fun b : Byte => b.getLsbD 7) h
  simp only [encodeFrame, idleByte, frameHead, BitVec.getLsbD_extractLsb', BitVec.getLsbD_append] at h7
  simp at h7

/-- A prefix of a frame after idle bytes: what the frame is read as. -/
theorem frame_of_prefix {idx : BitVec 6} {arg : Word} {d : List Byte} (hd : d <+: commandBytes idx arg) (k : Nat) :
    ((List.replicate k idleByte ++ d).dropWhile (fun b => b == idleByte)).take 6 = d := by
  obtain ⟨b, c, hc, hb, hl⟩ := commandBytes_cons idx arg
  have h1 : (List.replicate k idleByte ++ d).dropWhile (fun b => b == idleByte) =
      d.dropWhile (fun b => b == idleByte) := by
    simp
  rw [h1]
  cases d with
  | nil => rfl
  | cons e d =>
    have hle := hd.length_le
    rw [hc] at hd hle
    obtain ⟨t, ht⟩ := hd
    obtain ⟨rfl, -⟩ := List.cons.inj ht
    rw [List.dropWhile_cons_of_neg (by simpa using hb)]
    exact List.take_of_length_le (by simpa [hl] using hle)

/-- The one selection in a list of events that holds no other. -/
theorem selection_unique {tail pre post : List BusEvent} (hn : .assertCS ∉ tail)
    (he : .assertCS :: tail = pre ++ .assertCS :: post) : post = tail := by
  cases pre with
  | nil => exact (List.cons.inj he).2.symm
  | cons e pre =>
    have h := (List.cons.inj he).2
    exact absurd (by rw [h]; simp) hn

/-- A selection followed by idle bytes and the beginning of a frame. -/
theorem framesWithin_opening {idx : BitVec 6} {arg : Word} (hi : issues idx arg) {l : List (Byte × Byte)} {k : Nat}
    {d : List Byte} (hl : l.map Prod.fst = List.replicate k idleByte ++ d) (hd : d <+: commandBytes idx arg)
    {more : List BusEvent} (hm : sentBytes more = []) (hn : .assertCS ∉ more) :
    framesWithin (.assertCS :: (xfers l ++ more)) := by
  intro pre post he
  obtain rfl := selection_unique (by simp [xfers, hn]) he
  refine ⟨idx, arg, hi, ?_⟩
  rw [frameAfter, sentBytes_xfers, hm, List.append_nil, hl, frame_of_prefix hd]
  exact hd

/-- A selection followed by idle bytes and a whole frame is settled. -/
theorem settled_frame {idx : BitVec 6} {arg : Word} (hi : issues idx arg) {l : List (Byte × Byte)} {k : Nat}
    (hl : l.map Prod.fst = List.replicate k idleByte ++ commandBytes idx arg) : settled (.assertCS :: xfers l) := by
  intro pre post he
  obtain rfl := selection_unique (by simp [xfers]) he
  refine ⟨idx, arg, hi, fun more => ?_⟩
  obtain ⟨b, c, hc, hb, hlen⟩ := commandBytes_cons idx arg
  have h : (l.map Prod.fst ++ sentBytes more).dropWhile (fun b => b == idleByte) =
      commandBytes idx arg ++ sentBytes more := by
    rw [hl, hc]
    simp [List.dropWhile_cons_of_neg (p := fun b => b == idleByte) (a := b) (by simpa using hb)]
  rw [frameAfter, sentBytes_xfers, h, List.take_append_of_le_length (by simp [hc, hlen]),
    List.take_of_length_le (by simp [hc, hlen])]

/-- A selection, idle bytes and a deselection are settled: no frame was sent. -/
theorem settled_idle {l : List (Byte × Byte)} {k : Nat} (hl : l.map Prod.fst = List.replicate k idleByte) :
    settled (.assertCS :: (xfers l ++ [.deassertCS])) := by
  intro pre post he
  obtain rfl := selection_unique (by simp [xfers]) he
  refine ⟨0, 0, by decide, fun more => ?_⟩
  rw [frameAfter, List.append_assoc, sentBytes_xfers, hl]
  simp [sentBytes]

/-! ### States -/

/-- `IDX` and `ARG` are what they were, or a command the block issues. -/
def latchWithin (s₀ s : State) : Prop :=
  (s.work.idx, s.work.arg) = (s₀.work.idx, s₀.work.arg) ∨ issues s.work.idx s.work.arg

/-- A working register other than the two keeps that. -/
theorem latchWithin_work {s₀ s : State} {w : Work} (hw : (w.idx, w.arg) = (s.work.idx, s.work.arg))
    (h : latchWithin s₀ s) : latchWithin s₀ { s with work := w } := by
  obtain ⟨h1, h2⟩ := Prod.mk.inj hw
  simpa only [latchWithin, h1, h2] using h

/-- The events since `s₀` are settled. -/
def framed (s₀ s : State) : Prop := latchWithin s₀ s ∧ ∃ evs, s.trace = evs.reverse ++ s₀.trace ∧ settled evs

/-- The events since `s₀` hold only frames of the block, or the beginning of one. -/
def cut (s₀ s : State) : Prop := latchWithin s₀ s ∧ ∃ evs, s.trace = evs.reverse ++ s₀.trace ∧ framesWithin evs

theorem framed.cut {s₀ s : State} (h : framed s₀ s) : cut s₀ s := by
  obtain ⟨hi, evs, ht, hs⟩ := h
  exact ⟨hi, evs, ht, hs.framesWithin⟩

theorem framed_refl (s : State) : framed s s := ⟨.inl rfl, [], rfl, settled_nil⟩

/-- An event that selects nothing keeps the events settled. -/
theorem framed_event {s₀ s : State} {e : BusEvent} (he : e ≠ .assertCS) (h : framed s₀ s) : framed s₀ (record e s) := by
  obtain ⟨hi, evs, ht, hs⟩ := h
  refine ⟨hi, evs ++ [e], by simp [ht], settled_append hs (settled_of_not_mem ?_)⟩
  simpa using fun h => he h.symm

/-- Since `s₀`, settled events and then the card selected, idle bytes and `d` sent. -/
def opened (d : List Byte) (s₀ s : State) : Prop :=
  latchWithin s₀ s ∧ ∃ evs l k, s.trace = (evs ++ .assertCS :: xfers l).reverse ++ s₀.trace ∧ settled evs ∧
    l.map Prod.fst = List.replicate k idleByte ++ d

theorem opened.cut {s₀ s : State} {idx : BitVec 6} {arg : Word} (hi : issues idx arg) {d : List Byte}
    (hd : d <+: commandBytes idx arg) (h : opened d s₀ s) (w : Work) (hw : w.idx = 0 ∧ w.arg = 0)
    {t : State} (ht : t.work = w) (htr : t.trace = .setClock .slow :: s.trace) : cut s₀ t := by
  obtain ⟨-, evs, l, k, hs, he, hl⟩ := h
  refine ⟨.inr (by rw [ht, hw.1, hw.2]; decide), evs ++ .assertCS :: (xfers l ++ [.setClock .slow]), ?_, ?_⟩
  · rw [htr, hs]; simp
  · exact framesWithin_append he (framesWithin_opening hi hl hd rfl (by simp))

theorem opened_tick {s₀ : State} {idx : BitVec 6} {arg : Word} (hi : issues idx arg) {d : List Byte}
    (hd : d <+: commandBytes idx arg) : keeps (opened d s₀) (cut s₀) tick :=
  tick_keeps (fun s p hs => by simpa [opened, latchWithin] using hs) (fun s a v hs => by simpa [opened, latchWithin] using hs)
    (fun _ _ hs => hs) fun _ _ hs => hs.cut hi hd _ ⟨rfl, rfl⟩ rfl rfl

theorem framed_tick {s₀ : State} : keeps (framed s₀) (cut s₀) tick :=
  tick_keeps (fun s p hs => by simpa [framed, latchWithin] using hs) (fun s a v hs => by simpa [framed, latchWithin] using hs)
    (fun _ _ hs => hs) fun s _ hs => by
      have h := (framed_event (e := .setClock .slow) (by simp) hs).cut
      exact ⟨.inr (show issues 0 0 by decide), h.2⟩

theorem framed_data (s₀ : State) : DataKept (framed s₀) (cut s₀) where
  tick := framed_tick
  draw s hs := by unfold drawByte; split <;> exact hs
  sent _ _ _ hs := framed_event (by simp) hs
  work s w hw hs := ⟨latchWithin_work hw hs.1, hs.2⟩

theorem framed_deassertCS (s₀ : State) : keeps (framed s₀) (cut s₀) deassertCS :=
  fun s hs => sat_andThen (framed_tick s hs) fun _ _ hs => framed_event (by simp) hs

/-- An idle bus never frames: deselected again, the events are settled. -/
theorem opened_deassertCS (s₀ : State) : ∀ s, opened [] s₀ s → sat (deassertCS s) (fun _ => framed s₀) (cut s₀) := by
  intro s hs
  refine sat_andThen (opened_tick (idx := 0) (arg := 0) (by decide) (List.nil_prefix) s hs) fun _ t ht => ?_
  obtain ⟨hi, evs, l, k, htr, he, hl⟩ := ht
  exact ⟨hi, evs ++ .assertCS :: (xfers l ++ [.deassertCS]), by simp [htr],
    settled_append he (settled_idle (k := k) (by simpa using hl))⟩

/-- One more byte sent after a selection: idle before the frame, the next byte of the frame in it. -/
theorem opened_xfer {s₀ : State} {idx : BitVec 6} {arg : Word} (hi : issues idx arg) {d : List Byte}
    (hd : d <+: commandBytes idx arg) (o : Byte) {e : List Byte}
    (he : ∀ k, ∃ k', (List.replicate k idleByte ++ d) ++ [o] = List.replicate k' idleByte ++ e) (s : State)
    (hs : opened d s₀ s) : sat (xfer o s) (fun _ => opened e s₀) (cut s₀) := by
  refine sat_andThen (opened_tick hi hd s hs) fun _ t ht => ?_
  obtain ⟨hx, evs, l, k, htr, hse, hl⟩ := ht
  obtain ⟨k', hk'⟩ := he k
  have hd1 : (drawByte t).2.work = t.work := by unfold drawByte; split <;> rfl
  have hd2 : (drawByte t).2.trace = t.trace := by unfold drawByte; split <;> rfl
  refine ⟨?_, evs, l ++ [(o, (drawByte t).1)], k', ?_, hse, ?_⟩
  · simpa [latchWithin, hd1] using hx
  · simp [hd2, htr, xfers]
  · simpa [hl] using hk'

theorem opened_work {d : List Byte} {s₀ s : State} (w : Work) (hw : (w.idx, w.arg) = (s.work.idx, s.work.arg)) (h : opened d s₀ s) :
    opened d s₀ { s with work := w } := ⟨latchWithin_work hw h.1, h.2⟩

theorem opened_waitIdleLoop {s₀ : State} (n : Nat) : keeps (opened [] s₀) (cut s₀) (waitIdleLoop n) := by
  induction n with
  | zero => exact fun _ hs => hs
  | succ n ih =>
    intro s hs
    refine sat_andThen (opened_xfer (idx := 0) (arg := 0) (by decide) List.nil_prefix idleByte (e := [])
      (fun k => ⟨k + 1, by simp [List.replicate_succ']⟩) s hs) fun b s hs => ?_
    dsimp only
    split_ifs
    · exact hs
    · exact ih _ (opened_work _ rfl hs)

theorem opened_sendBytes {s₀ : State} {idx : BitVec 6} {arg : Word} (hi : issues idx arg) (d : List Byte) :
    ∀ c, c ++ d = commandBytes idx arg → ∀ s, opened c s₀ s →
      sat (sendBytes d s) (fun _ => opened (commandBytes idx arg) s₀) (cut s₀) := by
  induction d with
  | nil => intro c hc s hs; rw [List.append_nil] at hc; exact hc ▸ hs
  | cons b d ih =>
    intro c hc s hs
    refine sat_andThen (opened_xfer hi ⟨b :: d, hc⟩ b (e := c ++ [b]) (fun k => ⟨k, by simp⟩) s hs) fun v s hs => ?_
    refine ih (c ++ [b]) (by simpa using hc) _ ?_
    split_ifs
    · exact hs
    · exact opened_work _ rfl hs

theorem opened_whole {s₀ s : State} {idx : BitVec 6} {arg : Word} (hi : issues idx arg)
    (h : opened (commandBytes idx arg) s₀ s) : framed s₀ s := by
  obtain ⟨hx, evs, l, k, htr, he, hl⟩ := h
  exact ⟨hx, _, htr, settled_append he (settled_frame hi hl)⟩

/-- After CmdBegin the frame has been sent whole, or the bus was never idle and nothing but idle bytes was sent. -/
theorem framed_cmdBegin {s₀ : State} {idx : BitVec 6} {arg : Word} (hi : issues idx arg) (s : State)
    (hs : framed s₀ s) : sat (cmdBegin idx arg s)
      (fun r t => framed s₀ t ∨ ((∃ k, r = .err k) ∧ opened [] s₀ t)) (cut s₀) := by
  have h1 : sat (assertCS { s with work.idx := idx, work.arg := arg }) (fun _ => opened [] s₀) (cut s₀) := by
    have h0 : framed s₀ { s with work.idx := idx, work.arg := arg } := ⟨.inr hi, hs.2⟩
    refine sat_andThen (framed_tick _ h0) fun _ t ht => ?_
    obtain ⟨hx, evs, htr, he⟩ := ht
    exact ⟨hx, evs, [], 0, by simp [htr, xfers], he, rfl⟩
  refine sat_andThen h1 fun _ s hs => ?_
  refine sat_andThen (opened_waitIdleLoop _ _ (opened_work _ rfl hs)) fun e s hs => ?_
  cases e with
  | some k => exact .inr ⟨⟨k, rfl⟩, hs⟩
  | none =>
    have h2 : sat (sendFrame idx arg s) (fun _ => framed s₀) (cut s₀) :=
      sat_andThen (opened_sendBytes hi (arg := arg) _ [] rfl _ (opened_work _ rfl hs)) fun _ _ ht => opened_whole hi ht
    refine sat_andThen h2 fun e s hs => ?_
    cases e with
    | some k => exact .inl hs
    | none => exact sat_mono (pollResponse_keeps (framed_data s₀) s hs) (fun _ _ h => .inl h) fun _ h => h

/-- CmdEnd settles either. -/
theorem framed_cmdEnd {s₀ : State} (s : State) (h : framed s₀ s ∨ opened [] s₀ s) :
    sat (cmdEnd s) (fun _ => framed s₀) (cut s₀) := by
  have h1 : sat (deassertCS s) (fun _ => framed s₀) (cut s₀) := by
    rcases h with h | h
    · exact framed_deassertCS s₀ s h
    · exact opened_deassertCS s₀ s h
  exact sat_andThen h1 fun _ s hs => sat_andThen (xfer_keeps (framed_data s₀) _ s hs) fun _ _ ht => ht

/-- A transaction: CmdBegin, then after a status a part that keeps the events settled, then CmdEnd. -/
theorem framed_transaction {α : Type} {s₀ : State} {idx : BitVec 6} {arg : Word} (hi : issues idx arg)
    (part : Result → State → Ran α) (hs : ∀ b, keeps (framed s₀) (cut s₀) (part (.status b)))
    (he : ∀ k s, ∃ a, part (.err k) s = .done a s) {β : Type} (v : Result → α → State → β) :
    keeps (framed s₀) (cut s₀) fun s => (cmdBegin idx arg s).andThen fun r s =>
      (part r s).andThen fun a s => (cmdEnd s).andThen fun _ s => .done (v r a s) s := by
  intro s h0
  refine sat_andThen (framed_cmdBegin hi s h0) fun r s h1 => ?_
  have h2 : sat (part r s) (fun _ t => framed s₀ t ∨ opened [] s₀ t) (cut s₀) := by
    cases r with
    | status b =>
      rcases h1 with h1 | ⟨⟨k, hk⟩, -⟩
      · exact sat_mono (hs b s h1) (fun _ _ h => .inl h) fun _ h => h
      · exact absurd hk (by simp)
    | err k =>
      obtain ⟨a, ha⟩ := he k s
      rw [ha]
      rcases h1 with h1 | ⟨-, h1⟩
      · exact .inl h1
      · exact .inr h1
  exact sat_andThen h2 fun a s h => sat_andThen (framed_cmdEnd s h) fun _ _ ht => ht

theorem framed_store (s₀ : State) : StoreKept (framed s₀) (cut s₀) where
  toDataKept := framed_data s₀
  store _ _ _ hs _ := hs
  stuck _ hs := hs.cut

/-- Every transaction of a command the block sends keeps the events settled, and so does everything between two. -/
theorem framed_kept (s₀ : State) : RunKept issues (framed s₀) (cut s₀) where
  toDataKept := framed_data s₀
  deselect := framed_deassertCS s₀
  clocked _ _ hs := framed_event (by simp) hs
  command idx arg hp :=
    framed_transaction hp (fun r s => if hasPayload idx r then readPayload s else .done () s)
      (fun b s hs => by
        dsimp only
        split_ifs
        · exact readPayload_keeps (framed_data s₀) s hs
        · exact hs)
      (fun k s => ⟨(), rfl⟩) fun r _ _ => r
  blockRead idx addr buf hp :=
    framed_transaction hp (fun r s => if r = .status 0x00#8 then readDataBlock buf s else .done r s)
      (fun b s hs => by
        dsimp only
        split_ifs
        · exact readDataBlock_keeps (framed_store s₀) buf s hs
        · exact hs)
      (fun k s => ⟨.err k, by simp⟩) fun _ r _ => r
  blockWrite addr buf hp :=
    framed_transaction hp (fun r s => if r = .status 0x00#8 then
        (writeDataBlock buf s).andThen fun r s => .done ⟨r, s.work.token.setWidth 16, s.work.crc16⟩ s
      else .done (⟨r, r.code, 0⟩ : WriteOutcome) s)
      (fun b s hs => by
        dsimp only
        split_ifs
        · exact sat_andThen (writeDataBlock_keeps (framed_store s₀) buf s hs) fun _ _ ht => ht
        · exact hs)
      (fun k s => ⟨⟨.err k, (Result.err k).code, 0⟩, by simp⟩) fun _ w _ => w
  log _ _ hs := by simpa [framed, latchWithin] using hs
  clear _ hs := hs
  session _ _ hs := hs

end Sys2Proof.Machine
end

