-- ==== Sys2Proof/Laws/Negotiation.lean ====
section
/-!
SUPPORT. What a negotiation leaves in the session registers, whatever the card answers and whatever arrives (R231 to
R246).
-/

namespace Sys2Proof.Machine

open Sys2Proof

variable {s : State}

/-- The registers of one session, unless a reset landed. -/
theorem session_kept (r : Session) :
    EventKept (fun _ _ => True) (fun s => s.session = r) (fun s => s.session = Session.reset) where
  tick := tick_keeps (fun s p hs => by simpa using hs) (fun s a v hs => by simpa using hs)
    (fun _ _ hs => hs) (fun _ _ _ => rfl)
  draw s hs := by unfold drawByte; split <;> exact hs
  event _ _ hs := hs
  select _ _ hs := hs
  latch _ _ _ _ hs := hs
  work _ _ _ hs := hs

/-- The errors a command can end in (R134 to R136). -/
def Result.plain (r : Result) : Prop :=
  match r with
  | .status _ => True
  | .err k => k = .generic ∨ k = .transmissionInterrupted

theorem waitIdleLoop_plain (n : Nat) :
    ∀ s, sat (waitIdleLoop n s) (fun e _ => e = none ∨ e = some .generic) fun _ => True := by
  induction n with
  | zero => exact fun s => .inr rfl
  | succ n ih =>
    intro s
    refine sat_andThen (sat_trivial _) fun b s _ => ?_
    dsimp only
    split_ifs
    · exact .inl rfl
    · exact ih _

theorem pollLoop_plain (n : Nat) : ∀ s, sat (pollLoop n s) (fun r _ => r.plain) fun _ => True := by
  induction n with
  | zero => exact fun s => .inl rfl
  | succ n ih =>
    intro s
    refine sat_andThen (sat_trivial _) fun b s _ => ?_
    dsimp only
    split_ifs
    · exact ih _
    · trivial

theorem cmdBegin_plain (idx : BitVec 6) (arg : Word) (s : State) :
    sat (cmdBegin idx arg s) (fun r _ => r.plain) fun _ => True := by
  refine sat_andThen (sat_trivial _) fun _ s _ => ?_
  refine sat_andThen (waitIdleLoop_plain _ _) fun e s he => ?_
  rcases he with rfl | rfl
  · refine sat_andThen (D := fun e _ => e = none ∨ e = some .transmissionInterrupted)
      (sat_andThen (sat_trivial _) fun _ s _ => ?_) fun e s he => ?_
    · simp only [sat_done]
      split_ifs <;> simp
    · rcases he with rfl | rfl
      · exact pollLoop_plain _ _
      · exact .inr rfl
  · exact .inl rfl

/-- A command ends in a status, in Generic or in TransmissionInterrupted, and leaves the session registers alone. -/
theorem command_session (idx : BitVec 6) (arg : Word) (s : State) :
    sat (command idx arg s) (fun r t => r.plain ∧ t.session = s.session) (fun t => t.session = Session.reset) := by
  have h : sat (command idx arg s) (fun r _ => r.plain) fun _ => True := by
    refine sat_andThen (cmdBegin_plain idx arg s) fun r s hr => ?_
    exact sat_andThen (sat_trivial _) fun _ s _ => sat_andThen (sat_trivial _) fun _ _ _ => hr
  exact sat_mono (sat_and h (command_keeps (session_kept s.session) trivial s rfl)) (fun _ _ h => h) fun _ h => h.2

theorem appCommand_session (idx : BitVec 6) (arg : Word) (s : State) :
    sat (appCommand idx arg s) (fun r t => r.plain ∧ t.session = s.session) (fun t => t.session = Session.reset) := by
  refine sat_andThen (command_session 55 0 s) fun p u hu => ?_
  split_ifs
  · exact sat_mono (command_session idx arg u) (fun _ _ h => ⟨h.1, h.2.trans hu.2⟩) fun _ h => h
  · exact hu

/-- A phase passes with registers that meet `A`, or faults with a code of R25 and registers at the slow clock. -/
def phaseEnds (A : Session → Prop) (f : Code) (v : Verdict) (r : Session) : Prop :=
  match v with
  | .pass => A r
  | .fault k _ => k.code ∈ faultCodes ∧ r.clkMode = .slow ∧ r.faultCode = f

/-- A phase of a negotiation at the slow clock, whose `FAULT_CODE` was `f`. -/
def atPhase (st : SessionState) (f : Code) (r : Session) : Prop :=
  r.state = st ∧ r.clkMode = .slow ∧ r.faultCode = f

theorem plain_code {k : ErrKind} (h : Result.plain (.err k)) : k.code ∈ faultCodes := by
  rcases h with rfl | rfl <;> decide

theorem probeLoop_session (n : Nat) {f : Code} :
    ∀ s, atPhase .probing f s.session → s.session.capClass = .standard →
      sat (probeLoop n s)
        (fun v t => phaseEnds (fun r => atPhase .probing f r ∧ r.capClass = .standard) f v t.session)
        (fun t => t.session = Session.reset) := by
  induction n with
  | zero => exact fun s h _ => ⟨by decide, h.2.1, h.2.2⟩
  | succ n ih =>
    intro s h hc
    refine sat_andThen (command_session 0 0 s) fun r u hu => ?_
    obtain ⟨hr, hs⟩ := hu
    have hp : atPhase .probing f u.session := by rw [hs]; exact h
    have hu : u.session.capClass = .standard := by rw [hs]; exact hc
    have hrt : ErrKind.code .resetTimeout ∈ faultCodes := by decide
    dsimp only
    split_ifs
    · exact ⟨hp, hu⟩
    · split
      · exact ⟨hrt, hp.2⟩
      · exact ⟨hrt, hp.2⟩
      · exact ⟨plain_code hr, hp.2⟩
    · split
      · exact ih _ hp hu
      · exact ih _ hp hu
      · exact ⟨plain_code hr, hp.2⟩

theorem probing_session (s : State) :
    sat (probing s)
      (fun v t => phaseEnds (fun r => atPhase .probing s.session.faultCode r ∧ r.capClass = .standard)
        s.session.faultCode v t.session) (fun t => t.session = Session.reset) := by
  have hk := session_kept ⟨.probing, s.session.faultCode, .standard, s.session.cardGen, .slow⟩
  refine sat_andThen (D := fun _ t => t.session = ⟨.probing, s.session.faultCode, .standard, s.session.cardGen, .slow⟩)
    ?_ fun _ s hs => ?_
  · refine sat_andThen ((session_kept ⟨.probing, s.session.faultCode, .standard, s.session.cardGen,
      s.session.clkMode⟩).tick _ rfl) fun _ t ht => ?_
    simp [record, ht]
  · refine sat_andThen (deassertCS_keeps hk s hs) fun _ s hs => ?_
    refine sat_andThen (clockIdle_keeps hk.toDataKept _ s hs) fun _ s hs => ?_
    exact probeLoop_session s.params.nResetAttempts
      { s with work.attempts := BitVec.ofNat 32 s.params.nResetAttempts } (by simp [hs, atPhase]) (by simp [hs])

theorem voltageCheck_session (s : State) {f : Code} (h : atPhase .probing f s.session)
    (hc : s.session.capClass = .standard) :
    sat (voltageCheck s)
      (fun v t => phaseEnds (fun r => atPhase .voltageCheck f r ∧ r.capClass = .standard) f v t.session)
      (fun t => t.session = Session.reset) := by
  refine sat_andThen (command_session 8 cmd8Argument _) fun r u hu => ?_
  obtain ⟨hr, hs⟩ := hu
  have h1 : u.session.clkMode = .slow := by rw [hs]; exact h.2.1
  have h2 : u.session.faultCode = f := by rw [hs]; exact h.2.2
  have h3 : u.session.state = .voltageCheck := by rw [hs]
  have h4 : u.session.capClass = .standard := by rw [hs]; exact hc
  dsimp only
  split
  · exact ⟨plain_code hr, h1, h2⟩
  · split_ifs
    · exact ⟨⟨h3, h1, h2⟩, h4⟩
    · exact ⟨⟨h3, h1, h2⟩, h4⟩
    · exact ⟨by decide, h1, h2⟩

theorem negotiate_session (s : State) :
    sat (negotiate s)
      (fun _ t => t.session.state = s.session.state ∧ t.session.clkMode = s.session.clkMode ∧
        t.session.faultCode = s.session.faultCode ∧ t.session.capClass = s.session.capClass)
      (fun t => t.session = Session.reset) := by
  unfold negotiate
  split
  · exact sat_mono (command_session 1 0 s) (fun _ _ h => by simp [h.2]) fun _ h => h
  · refine sat_andThen (appCommand_session 41 _ s) fun r u hu => ?_
    simp only [sat_done]
    split_ifs <;> simp [hu.2]

theorem idleWaitLoop_session (n : Nat) {f : Code} :
    ∀ s, atPhase .idleWait f s.session → s.session.capClass = .standard →
      sat (idleWaitLoop n s)
        (fun v t => phaseEnds (fun r => atPhase .idleWait f r ∧ r.capClass = .standard) f v t.session)
        (fun t => t.session = Session.reset) := by
  induction n with
  | zero => exact fun s h _ => ⟨by decide, h.2.1, h.2.2⟩
  | succ n ih =>
    intro s h hc
    refine sat_andThen (negotiate_session s) fun r u hu => ?_
    obtain ⟨h1, h2, h3, h4⟩ := hu
    have hp : atPhase .idleWait f u.session := ⟨h1.trans h.1, h2.trans h.2.1, h3.trans h.2.2⟩
    dsimp only
    split_ifs
    · exact ⟨hp, h4.trans hc⟩
    · exact ⟨by decide, hp.2⟩
    · exact ih _ hp (h4.trans hc)

theorem capacityCheck_session (s : State) {f : Code} (h : atPhase .idleWait f s.session)
    (hc : s.session.capClass = .standard) :
    sat (capacityCheck s)
      (fun v t => phaseEnds (fun r => atPhase .capacityCheck f r ∧ (r.cardGen = .mmc → r.capClass = .standard)) f v
        t.session) (fun t => t.session = Session.reset) := by
  refine sat_andThen (command_session 58 0 _) fun r u hu => ?_
  obtain ⟨hr, hs⟩ := hu
  have h1 : u.session.clkMode = .slow := by rw [hs]; exact h.2.1
  have h2 : u.session.faultCode = f := by rw [hs]; exact h.2.2
  have h3 : u.session.state = .capacityCheck := by rw [hs]
  have h4 : u.session.capClass = .standard := by rw [hs]; exact hc
  dsimp only
  split
  · exact ⟨plain_code hr, h1, h2⟩
  · split_ifs with _ _ hg
    · exact ⟨by decide, h1, h2⟩
    · exact ⟨⟨h3, h1, h2⟩, fun _ => h4⟩
    · exact ⟨⟨h3, h1, h2⟩, fun hm => absurd hm hg⟩
    · exact ⟨by decide, h1, h2⟩

theorem configResult_session {r : Result} (hr : r.plain) {f : Code} {A : Session → Prop} {q : Session} (ha : A q)
    (hc : q.clkMode = .slow) (hf : q.faultCode = f) : phaseEnds A f (configResult r) q := by
  unfold configResult
  split
  · exact ⟨plain_code hr, hc, hf⟩
  · split_ifs
    · exact ha
    · exact ⟨by decide, hc, hf⟩

theorem thenPhase_session {r : Ran Verdict} {g : State → Ran Verdict} {A B : Session → Prop} {f : Code}
    (h : sat r (fun v t => phaseEnds A f v t.session) fun t => t.session = Session.reset)
    (hg : ∀ t, A t.session → sat (g t) (fun v u => phaseEnds B f v u.session) fun t => t.session = Session.reset) :
    sat (thenPhase r g) (fun v t => phaseEnds B f v t.session) fun t => t.session = Session.reset := by
  refine sat_andThen h fun v t ht => ?_
  cases v with
  | pass => exact hg t ht
  | fault k e => exact ht

theorem configuring_session (s : State) {f : Code} (h : atPhase .capacityCheck f s.session)
    (hc : s.session.cardGen = .mmc → s.session.capClass = .standard) :
    sat (configuring s)
      (fun v t => phaseEnds (fun r => atPhase .configuring f r ∧ (r.cardGen = .mmc → r.capClass = .standard)) f v
        t.session) (fun t => t.session = Session.reset) := by
  have step : ∀ (idx : BitVec 6) (arg : Word) (q : State), atPhase .configuring f q.session →
      (q.session.cardGen = .mmc → q.session.capClass = .standard) →
      sat ((command idx arg q).andThen fun r s => .done (configResult r) s)
        (fun v t => phaseEnds (fun r => atPhase .configuring f r ∧ (r.cardGen = .mmc → r.capClass = .standard)) f v
          t.session) (fun t => t.session = Session.reset) := by
    intro idx arg q h1 h2
    refine sat_andThen (command_session idx arg q) fun r u hu => ?_
    rw [← hu.2] at h1 h2
    have hq : atPhase .configuring f u.session ∧ (u.session.cardGen = .mmc → u.session.capClass = .standard) := ⟨h1, h2⟩
    exact configResult_session (A := fun r => atPhase .configuring f r ∧ (r.cardGen = .mmc → r.capClass = .standard))
      hu.1 hq h1.2.1 h1.2.2
  exact thenPhase_session (step 16 cmd16Argument _ ⟨rfl, h.2⟩ hc) fun t ht => step 59 cmd59Argument t ht.1 ht.2

/-- A negotiation passes in Configuring at the slow clock, or faults with a code of R25 at the slow clock, or is halted
by a reset (R231 to R246). -/
theorem negotiation_session (s : State) :
    sat (negotiation s)
      (fun v t => phaseEnds (fun r => atPhase .configuring s.session.faultCode r ∧
        (r.cardGen = .mmc → r.capClass = .standard)) s.session.faultCode v t.session)
      (fun t => t.session = Session.reset) := by
  have h1 := thenPhase_session
    (B := fun r => atPhase .voltageCheck s.session.faultCode r ∧ r.capClass = .standard) (probing_session s)
    fun t ht => voltageCheck_session t ht.1 ht.2
  have h2 := thenPhase_session (g := idleWait)
    (B := fun r => atPhase .idleWait s.session.faultCode r ∧ r.capClass = .standard) h1
    fun t ht => idleWaitLoop_session t.params.nIdleWait { t with session.state := .idleWait, work.iter := 0 }
      ⟨rfl, ht.1.2⟩ ht.2
  have h3 := thenPhase_session
    (B := fun r => atPhase .capacityCheck s.session.faultCode r ∧ (r.cardGen = .mmc → r.capClass = .standard)) h2
    fun t ht => capacityCheck_session t ht.1 ht.2
  exact thenPhase_session h3 fun t ht => configuring_session t ht.1 ht.2

/-- STARTUP outside Ready and Faulted ends in Ready with result 0 or in Faulted with a code of R25 as its result, or is
halted by a reset. -/
theorem startupBody_session (h1 : s.session.state ≠ .ready) (h2 : s.session.state ≠ .faulted) :
    sat (startupBody s)
      (fun a t => (a = resultReply 0 ∧ t.session.state = .ready ∧ t.session.clkMode = .fast ∧
          t.session.faultCode = s.session.faultCode ∧ (t.session.cardGen = .mmc → t.session.capClass = .standard)) ∨
        (a = resultReply t.session.faultCode ∧ t.session.state = .faulted ∧ t.session.clkMode = .slow ∧
          t.session.faultCode ∈ faultCodes))
      (fun t => t.session = Session.reset) := by
  unfold startupBody
  split
  · exact absurd ‹_› h1
  · exact absurd ‹_› h2
  · refine sat_andThen (negotiation_session s) fun v u hu => ?_
    cases v with
    | pass =>
      obtain ⟨⟨-, hc, hf⟩, hm⟩ := hu
      refine sat_andThen (D := fun _ t => t.session = { u.session with clkMode := .fast }) ?_ fun _ t ht => ?_
      · refine sat_andThen ((session_kept u.session).tick u rfl) fun _ _ ht => ?_
        simp [record, ht]
      · refine .inl ⟨rfl, rfl, ?_, ?_, ?_⟩ <;> simp [ht, hf]
        exact hm
    | fault k r =>
      obtain ⟨hk, hc, hf⟩ := hu
      exact .inr (by simp [takeFault_session, hc, hk])

end Sys2Proof.Machine
end

