-- ==== Sys2Proof/Laws/Select.lean ====
section
/-!
SUPPORT. The card is deselected when a transaction ends, so that every request and every frame ends with the card
deselected (R29, R137, R340).
-/

namespace Sys2Proof.Machine

open Sys2Proof

variable {α β : Type}

/-- The card is not selected. -/
def off (s : State) : Prop := s.cs = false

/-- Nothing that lands between two events selects the card. -/
theorem off_tick : keeps off (fun _ => True) tick :=
  tick_keeps (fun s p hs => by simpa [off] using hs) (fun s a v hs => by simpa [off] using hs)
    (fun _ _ hs => hs) fun _ _ _ => trivial

theorem off_xfer (o : Byte) : keeps off (fun _ => True) (xfer o) :=
  keeps_andThen off_tick fun _ s hs => by
    simp only [sat_done, off, record_cs]
    unfold drawByte
    split <;> exact hs

theorem off_deassertCS (s : State) : sat (deassertCS s) (fun _ => off) fun _ => True :=
  sat_andThen (sat_trivial _) fun _ _ _ => rfl

/-- CmdEnd deselects the card (R137). -/
theorem off_cmdEnd (s : State) : sat (cmdEnd s) (fun _ => off) fun _ => True :=
  sat_andThen (off_deassertCS s) fun _ s hs => sat_andThen (off_xfer _ s hs) fun _ _ ht => ht

/-- Work that ends with CmdEnd ends with the card deselected. -/
theorem off_closed (r : Ran α) (f : α → State → Ran β) (v : α → State → β) (hf : ∀ a s, f a s =
    (cmdEnd s).andThen fun _ u => .done (v a s) u) : sat (r.andThen f) (fun _ => off) fun _ => True := by
  refine sat_andThen (sat_trivial r) fun a s _ => ?_
  rw [hf]
  exact sat_andThen (off_cmdEnd s) fun _ _ ht => ht

theorem off_command (idx : BitVec 6) (arg : Word) (s : State) :
    sat (command idx arg s) (fun _ => off) fun _ => True := by
  refine sat_andThen (sat_trivial _) fun r s _ => ?_
  exact off_closed _ _ (fun _ _ => r) fun _ _ => rfl

theorem off_appCommand (idx : BitVec 6) (arg : Word) (s : State) :
    sat (appCommand idx arg s) (fun _ => off) fun _ => True := by
  refine sat_andThen (off_command 55 0 s) fun p s hs => ?_
  split_ifs
  · exact off_command idx arg s
  · exact hs

theorem off_blockRead (idx : BitVec 6) (addr : Word) (buf : Nat) (s : State) :
    sat (blockRead idx addr buf s) (fun _ => off) fun _ => True := by
  refine sat_andThen (sat_trivial _) fun r s _ => ?_
  exact off_closed _ _ (fun r _ => r) fun _ _ => rfl

theorem off_blockWrite (addr : Word) (buf : Nat) (s : State) :
    sat (blockWrite addr buf s) (fun _ => off) fun _ => True := by
  refine sat_andThen (sat_trivial _) fun r s _ => ?_
  exact off_closed _ _ (fun w _ => w) fun _ _ => rfl

/-- The card stays deselected between transactions, and every one ends so. -/
theorem off_kept : RunKept (fun _ _ => True) off (fun _ => True) where
  tick := off_tick
  draw s hs := by unfold drawByte; split <;> exact hs
  sent _ _ _ hs := hs
  work _ _ _ hs := hs
  deselect s _ := off_deassertCS s
  clocked _ _ hs := hs
  command idx arg _ s _ := off_command idx arg s
  blockRead idx addr buf _ s _ := off_blockRead idx addr buf s
  blockWrite addr buf _ s _ := off_blockWrite addr buf s
  log _ _ hs := by simpa [off] using hs
  clear _ hs := hs
  session _ _ hs := hs

theorem off_readSectorBody (buf : Nat) (sector : Word) (s : State) :
    sat (readSectorBody buf sector s) (fun _ => off) fun _ => True := by
  refine sat_andThen (off_blockRead 17 _ buf s) fun r s hs => ?_
  simp only [sat_done]
  split_ifs
  · exact hs
  · exact off_kept.log _ _ hs

/-- A negotiation ends with the card deselected, however it began (R232). -/
theorem off_negotiation (s : State) : sat (negotiation s) (fun _ => off) fun _ => True := by
  have hk := off_kept.toPhaseKept
  have h1 : sat (probing s) (fun _ => off) fun _ => True :=
    sat_andThen (sat_trivial _) fun _ s _ => sat_andThen (off_deassertCS s) fun _ s hs =>
      sat_andThen (clockIdle_keeps hk.toDataKept _ s hs) fun _ _ hs => probeLoop_keeps hk trivial _ _ hs
  have next : ∀ {r : Ran Verdict} {g : State → Ran Verdict}, sat r (fun _ => off) (fun _ => True) →
      keeps off (fun _ => True) g → sat (thenPhase r g) (fun _ => off) fun _ => True := fun hr hg => by
    refine sat_andThen hr fun v s hs => ?_
    cases v with
    | pass => exact hg s hs
    | fault k e => exact hs
  exact next (next (next (next h1 (voltageCheck_keeps hk trivial)) (idleWait_keeps hk ⟨trivial, fun _ => trivial, trivial⟩))
    (capacityCheck_keeps hk trivial)) (configuring_keeps hk ⟨trivial, trivial⟩)

/-- STARTUP ends with the card deselected where it began so. -/
theorem off_startupBody : keeps off (fun _ => True) startupBody := startupBody_keeps off_kept fun _ _ _ => trivial

end Sys2Proof.Machine
end

