-- ==== Sys2Proof/Laws/Invariant.lean ====
section
/-!
SUPPORT. The parts of the machine invariant through the operations: the log under an append (R34), memory under a write
inside the address space (R60), the ports under what presents and hands over a request (R301), and what a request in
service keeps of them; the session registers through everything but a negotiation and INITIALIZE; and what a negotiation
leaves alone when nothing arrives.
-/

namespace Sys2Proof.Machine

open Sys2Proof

/-- An append keeps the log within its capacity. -/
theorem logInv_append {s : State} (r : LogRecord) (h : logInv s.params s.log) :
    logInv s.params (logAppend r s).log := by
  rw [logAppend_log]
  obtain ⟨h1, h2⟩ := h
  constructor
  · intro he
    rw [if_pos he]
    obtain ⟨h3, h4⟩ := h1 he
    split_ifs with a b
    · simp only [List.length_append, List.length_singleton]
      exact ⟨by omega, fun hd => absurd (h4 hd) (by omega)⟩
    · exact ⟨h3, fun _ => by simp; omega⟩
    · exact ⟨h3, h4⟩
  · intro he
    rw [if_neg (by simp [he])]
    exact h2 he

/-- An empty log meets the invariant whatever its capacity. -/
theorem logInv_empty (p : Params) : logInv p ⟨[], 0⟩ := by simp [logInv]

/-- A write inside the address space keeps memory in its canonical form and inside the space. -/
theorem memInv_write {s : State} {a : Nat} (h : memInv s) (ha : a < 2 ^ s.params.bufAddrW) (v : Byte) :
    memInv { s with mem := memWrite s.mem a v } := by
  refine ⟨memWrite_wf a v h.1, fun c hc => ?_⟩
  rcases mem_memWrite hc with rfl | hc
  · exact ha
  · exact h.2 c hc

theorem memInv_callerWrite {s : State} (h : memInv s) (a : Nat) (v : Byte) : memInv (callerWrite a v s) := by
  unfold callerWrite
  split_ifs with ha
  · exact memInv_write h ha v
  · exact h

/-- One more request waiting, of an agent with none outstanding, keeps one request an agent (R301). -/
theorem portInv_append {s : State} {p : Presented} (h : portInv s) (hp : outstanding p.agent s = false) :
    portInv { s with sync.requests := s.sync.requests ++ [p] } := by
  simp only [outstanding, Bool.or_eq_false_iff, beq_eq_false_iff_ne, List.any_eq_false, beq_iff_eq] at hp
  obtain ⟨hl, hr⟩ := hp
  have hn : p.agent ∉ s.sync.requests.map Presented.agent := fun hm => by
    obtain ⟨q, hq, he⟩ := List.mem_map.mp hm
    exact hr q hq he
  refine ⟨?_, fun a ha => ?_⟩
  · simp only [List.map_append, List.map_cons, List.map_nil]
    exact List.nodup_append.mpr ⟨h.1, by simp, fun a ha b hb hab => hn (by simp_all)⟩
  · simp only [List.map_append, List.map_cons, List.map_nil, List.mem_append, List.mem_singleton, not_or]
    exact ⟨h.2 a ha, fun he => hl (by rw [← he]; exact ha)⟩

theorem portInv_present {s : State} (p : Presented) (h : portInv s) : portInv (present p s) := by
  unfold present
  split_ifs with ho
  · exact h
  · exact portInv_append h (by simpa using ho)

theorem portInv_receive {s : State} (p : Presented) (h : portInv s) : portInv (receive p s) := by
  unfold receive
  split
  · split_ifs <;> exact h
  · exact portInv_present p h

/-- Handing over a waiting item leaves its agent, now the caller, without another, and the owner of a held lock is
another agent. -/
theorem portInv_handOver {s : State} {p : Presented} (h : portInv s) (hp : p ∈ s.sync.requests) :
    portInv (handOver p s) ∧ outstanding p.agent (handOver p s) = false := by
  have hs : ∀ a, a ∈ (s.sync.requests.erase p).map Presented.agent → a ∈ s.sync.requests.map Presented.agent :=
    fun a ha => (List.erase_sublist.map _).subset ha
  have hn : p.agent ∉ (s.sync.requests.erase p).map Presented.agent := fun hm => by
    have h1 := ((List.perm_cons_erase hp).map Presented.agent).nodup_iff.mp h.1
    exact (List.nodup_cons.mp h1).1 hm
  refine ⟨⟨h.1.sublist (List.erase_sublist.map _), fun a ha hm => h.2 a ha (hs a hm)⟩, ?_⟩
  simp only [outstanding, handOver, Bool.or_eq_false_iff, beq_eq_false_iff_ne, List.any_eq_false, beq_iff_eq]
  exact ⟨fun hl => h.2 _ hl (List.mem_map_of_mem hp), fun q hq he => hn (he ▸ List.mem_map_of_mem hq)⟩

/-- With the configuration `p`, the log, memory and the ports meet the invariant while the lock is held. -/
def inService (p : Params) (s : State) : Prop :=
  s.params = p ∧ logInv p s.log ∧ memInv s ∧ portInv s ∧ s.sync.lock.isSome ∧ s.sync.active.isSome

/-- With the configuration `p`, everything but the session registers meets the invariant. -/
def atRest (p : Params) (s : State) : Prop := s.params = p ∧ logInv p s.log ∧ memInv s ∧ portInv s ∧ lockInv s

/-- No event takes the log, memory or the ports out of the invariant; a reset leaves a state at rest. -/
theorem inService_events (p : Params) : EventKept (fun _ _ => True) (inService p) (atRest p) where
  tick := tick_keeps (fun s q hs => by
      refine ⟨by simpa using hs.1, by simpa using hs.2.1, ?_, portInv_receive q hs.2.2.2.1, by simpa using hs.2.2.2.2⟩
      simpa [memInv] using hs.2.2.1)
    (fun s a v hs => by
      have h := memInv_callerWrite hs.2.2.1 a v
      exact ⟨by simpa using hs.1, by simpa using hs.2.1, h, by simpa [portInv] using hs.2.2.2.1,
        by simpa using hs.2.2.2.2⟩)
    (fun _ _ hs => hs)
    fun s _ hs => ⟨hs.1, logInv_empty _, hs.2.2.1, by simp [portInv], by simp [lockInv]⟩
  draw t ht := by unfold drawByte; split <;> exact ht
  event _ _ ht := ht
  select _ _ ht := ht
  latch _ _ _ _ ht := ht
  work _ _ _ ht := ht

/-- Every piece of a request's work keeps the log, memory and the ports within the invariant; a halt, by reset or by a
stuck access, leaves a state at rest. -/
theorem inService_kept (p : Params) : RunKept (fun _ _ => True) (inService p) (atRest p) where
  toBufKept := (inService_events p).toBufKept
    (fun s a v hs ha => by
      refine ⟨hs.1, hs.2.1, memInv_write hs.2.2.1 ?_ v, hs.2.2.2⟩
      simp only [admits, Bool.and_eq_true, decide_eq_true_eq] at ha
      exact ha.1)
    fun t ht => by
      obtain ⟨h1, h2, h3, h4, h5, h6⟩ := ht
      exact ⟨h1, h2, h3, h4, ⟨fun h => by simp [h] at h5, fun h => by simp [h] at h6⟩, fun h => by simp [h] at h5⟩
  log s r hs := by
    obtain ⟨rfl, h2, h3⟩ := hs
    exact ⟨by simp, logInv_append r h2, by simpa [memInv] using h3.1, by simpa [portInv] using h3.2⟩
  clear s hs := ⟨hs.1, logInv_empty _, hs.2.2⟩
  session _ _ ht := ht

/-- The registers of one session through every event; a reset gives the registers of reset (R280, R370). -/
theorem session_events (r : Session) : EventKept (fun _ _ => True) (fun s => s.session = r)
    (fun s => s.session = Session.reset ∨ s.session = r) where
  tick := tick_keeps (fun s p hs => by simpa using hs) (fun s a v hs => by simpa using hs) (fun _ _ hs => hs)
    fun _ _ _ => .inl rfl
  draw s hs := by unfold drawByte; split <;> exact hs
  event _ _ hs := hs
  select _ _ hs := hs
  latch _ _ _ _ hs := hs
  work _ _ _ hs := hs

/-- And through everything else that writes none of them. -/
theorem session_logKept (r : Session) : LogKept (fun _ _ => True) (fun s => s.session = r)
    (fun s => s.session = Session.reset ∨ s.session = r) where
  toBufKept := (session_events r).toBufKept (fun _ _ _ hs _ => hs) fun _ hs => .inr hs
  log _ _ hs := by simpa using hs

/-- `t` differs from `s` in the transport and the session registers at most. -/
def sameBeside (s t : State) : Prop :=
  t.params = s.params ∧ t.log = s.log ∧ t.sync = s.sync ∧ t.mem = s.mem ∧ t.noAccess = s.noAccess ∧
    t.env.arrivals = s.env.arrivals ∧ t.env.order = s.env.order ∧ t.env.picks = s.env.picks ∧
    t.responses = s.responses

/-- With nothing arriving, no event touches more than the transport. -/
theorem sameBeside_events {s : State} (hq : s.env.arrivals = []) :
    EventKept (fun _ _ => True) (sameBeside s) (fun _ => False) where
  tick t ht := by
    have : t.env.arrivals = [] := ht.2.2.2.2.2.1.trans hq
    rw [tick_quiet this]
    exact ht
  draw t ht := by
    unfold drawByte
    split <;> exact ht
  event _ _ ht := ht
  select _ _ ht := ht
  latch _ _ _ _ ht := ht
  work _ _ _ ht := ht

/-- With nothing arriving, a negotiation touches only the transport and the session registers and is never halted. -/
theorem sameBeside_kept {s : State} (hq : s.env.arrivals = []) :
    PhaseKept (fun _ _ => True) (sameBeside s) (fun _ => False) where
  toBusKept := (sameBeside_events hq).toBusKept
  session _ _ ht := ht

end Sys2Proof.Machine
end

