-- ==== Sys2Proof/Laws/PerInstr.lean ====
section
/-!
SUPPORT. One fact per instruction: the port item its encoding gives is canonical, that is, a frame whose CRC-7 is right
and a request whose unused fields are 0 (R90, R42).
-/

namespace Sys2Proof.Laws.Canonical

open Sys2Proof

/-- The encoding of the instruction is a canonical port item. -/
def Statement (i : Instr) : Prop := (encode i).canonical = true

/-- The six bytes of a frame, taken from the concatenation. -/
theorem commandBytes_eq (idx : BitVec 6) (arg : Word) :
    commandBytes idx arg = frameHead idx :: (argBytes arg ++ [frameCrc idx arg ++ 1#1]) := by
  simp only [commandBytes, frameBytes, encodeFrame, argBytes, List.cons_append, List.nil_append]
  generalize frameHead idx = h
  generalize frameCrc idx arg ++ 1#1 = c
  simp only [List.cons.injEq, and_true]
  refine ⟨?_, ?_, ?_, ?_, ?_, ?_⟩ <;>
  · apply BitVec.eq_of_getLsbD_eq
    intro i hi
    simp only [BitVec.getLsbD_extractLsb', BitVec.getLsbD_append]
    interval_cases i <;> simp

/-- The CRC-7 field of a frame built by the encoder is right. -/
theorem frameCrcOk_commandBytes (idx : BitVec 6) (arg : Word) : frameCrcOk (commandBytes idx arg) = true := by
  rw [commandBytes_eq]
  simp only [argBytes, List.cons_append, List.nil_append, frameCrcOk, frameCrc, beq_iff_eq]
  generalize crc7 _ = c
  apply BitVec.eq_of_getLsbD_eq
  intro i hi
  simp only [BitVec.getLsbD_extractLsb', BitVec.getLsbD_append]
  simp [hi]

/-- The frame's first byte says whether it uses the buffer base. -/
theorem usesBuffer_commandBytes (idx : BitVec 6) (arg : Word) :
    usesBuffer (commandBytes idx arg) = (frameHead idx == frameHead 17 || frameHead idx == frameHead 18 ||
      frameHead idx == frameHead 24) := by
  rw [commandBytes_eq]; rfl

theorem plain (idx : BitVec 6) (arg : Word) : (plainFrame idx arg).canonical = true := by
  simp [plainFrame, PortItem.canonical, frameCrcOk_commandBytes]

theorem withBase (idx : BitVec 6) (arg : Word) (buf : Nat) (h : usesBuffer (commandBytes idx arg) = true) :
    (PortItem.frame (commandBytes idx arg) buf).canonical = true := by
  simp [PortItem.canonical, frameCrcOk_commandBytes, h]

theorem cmd0 : Statement .cmd0 := plain _ _
theorem cmd1 : Statement .cmd1 := plain _ _
theorem cmd8 : Statement .cmd8 := plain _ _
theorem cmd16 : Statement .cmd16 := plain _ _
theorem cmd17 (addr : Word) (buf : Nat) : Statement (.cmd17 addr buf) :=
  withBase _ _ _ (by rw [usesBuffer_commandBytes]; decide)
theorem cmd18 (addr : Word) (buf : Nat) : Statement (.cmd18 addr buf) :=
  withBase _ _ _ (by rw [usesBuffer_commandBytes]; decide)
theorem cmd24 (addr : Word) (buf : Nat) : Statement (.cmd24 addr buf) :=
  withBase _ _ _ (by rw [usesBuffer_commandBytes]; decide)
theorem cmd55 : Statement .cmd55 := plain _ _
theorem acmd41Hcs1 : Statement .acmd41Hcs1 := plain _ _
theorem acmd41Hcs0 : Statement .acmd41Hcs0 := plain _ _
theorem cmd58 : Statement .cmd58 := plain _ _
theorem cmd59 : Statement .cmd59 := plain _ _
theorem initSession : Statement .initSession := rfl
theorem startup : Statement .startup := rfl
theorem isReady : Statement .isReady := rfl
theorem readSector (buf : Nat) (sector : Word) : Statement (.readSector buf sector) := by
  simp [Statement, encode, PortItem.canonical, unusedFieldsZero]
theorem readRange (buf : Nat) (sector count : Word) : Statement (.readRange buf sector count) := by
  simp [Statement, encode, PortItem.canonical, unusedFieldsZero]
theorem writeSector (buf : Nat) (sector : Word) : Statement (.writeSector buf sector) := by
  simp [Statement, encode, PortItem.canonical, unusedFieldsZero]
theorem writeRange (buf : Nat) (sector count : Word) : Statement (.writeRange buf sector count) := by
  simp [Statement, encode, PortItem.canonical, unusedFieldsZero]
theorem dumpDiagnostics : Statement .dumpDiagnostics := rfl
theorem clearDiagnostics : Statement .clearDiagnostics := rfl
theorem reserved9 : Statement .reserved9 := rfl
theorem reservedA : Statement .reservedA := rfl
theorem reservedB : Statement .reservedB := rfl
theorem reservedC : Statement .reservedC := rfl
theorem reservedD : Statement .reservedD := rfl
theorem reservedE : Statement .reservedE := rfl
theorem reservedF : Statement .reservedF := rfl

end Sys2Proof.Laws.Canonical
end

