-- ==== Sys2Proof/Laws/Timeout.lean ====
section
/-!
SUPPORT. The polls that run out and the echo that is wrong, on listed answers (R134, R135, R136, R202), and with them
every way a transaction can end at its opening.
-/

namespace Sys2Proof.Machine

open Sys2Proof

variable {s : State} {rest : List Byte}

/-- The bus-idle wait runs out when no polled byte is 0xFF (R134). -/
theorem waitIdleLoop_timeout {w : List Byte} (hw : ∀ b ∈ w, b ≠ idleByte) :
    ∀ {s : State}, s.env.arrivals = [] → s.env.cardIn = w ++ rest →
      ∃ p, waitIdleLoop w.length s = .done (some .generic) { play w.length (idleEvents w) s with work.poll := p } := by
  induction w with
  | nil =>
    intro s _ _
    exact ⟨s.work.poll, by simp [waitIdleLoop, idleEvents]⟩
  | cons b w ih =>
    intro s hq hc
    obtain ⟨p, hp⟩ := ih (fun x hx => hw x (by simp [hx]))
      (s := { play 1 [.xfer idleByte b] s with work.poll := BitVec.ofNat 32 w.length }) hq (by simp [hc])
    refine ⟨p, ?_⟩
    rw [List.length_cons, waitIdleLoop, xfer_listed hq hc, andThen_done, if_neg (hw b (by simp)), hp]
    simp [play, idleEvents]
    omega

/-- The response poll runs out on idle bytes (R136). -/
theorem pollLoop_timeout (n : Nat) :
    ∀ {s : State}, s.env.arrivals = [] → s.env.cardIn = List.replicate n idleByte ++ rest →
      ∃ p, pollLoop n s =
        .done (.err .generic) { play n (idleEvents (List.replicate n idleByte)) s with work.poll := p } := by
  induction n with
  | zero =>
    intro s _ _
    exact ⟨s.work.poll, by simp [pollLoop, idleEvents]⟩
  | succ n ih =>
    intro s hq hc
    rw [List.replicate_succ, List.cons_append] at hc
    obtain ⟨p, hp⟩ := ih
      (s := { play 1 [.xfer idleByte idleByte] s with work.poll := BitVec.ofNat 32 n }) hq (by simp [hc])
    refine ⟨p, ?_⟩
    rw [pollLoop, xfer_listed hq hc, andThen_done, if_pos rfl, hp]
    simp [play, idleEvents, List.replicate_succ]
    omega

/-- The token poll runs out on idle bytes (R202). -/
theorem tokenLoop_timeout (n : Nat) :
    ∀ {s : State}, s.env.arrivals = [] → s.env.cardIn = List.replicate n idleByte ++ rest →
      ∃ p t, tokenLoop n s = .done (some .generic)
        { play n (idleEvents (List.replicate n idleByte)) s with work.poll := p, work.token := t } := by
  induction n with
  | zero =>
    intro s _ _
    exact ⟨s.work.poll, s.work.token, by simp [tokenLoop, idleEvents]⟩
  | succ n ih =>
    intro s hq hc
    rw [List.replicate_succ, List.cons_append] at hc
    obtain ⟨p, t, hp⟩ := ih
      (s := { play 1 [.xfer idleByte idleByte] s with
        work.token := idleByte, work.poll := BitVec.ofNat 32 n }) hq (by simp [hc])
    refine ⟨p, t, ?_⟩
    rw [tokenLoop, xfer_listed hq hc, andThen_done]
    simp only [decodeToken, if_neg idleByte_ne_start, if_true]
    rw [hp]
    simp [play, idleEvents, List.replicate_succ]
    omega

/-- The token poll ends on a byte that is neither idle nor the data-start token (R202). -/
theorem tokenLoop_failed {b : Byte} (hb : b ≠ idleByte) (hd : b ≠ dataStartToken) (k : Nat) :
    ∀ {n : Nat} {s : State}, s.env.arrivals = [] → s.env.cardIn = List.replicate k idleByte ++ b :: rest → k < n →
      ∃ p, tokenLoop n s = .done (some .generic)
        { play (k + 1) (idleEvents (List.replicate k idleByte ++ [b])) s with work.poll := p, work.token := b } := by
  induction k with
  | zero =>
    intro n s hq hc hn
    obtain ⟨n, rfl⟩ : ∃ m, n = m + 1 := ⟨n - 1, by omega⟩
    refine ⟨s.work.poll, ?_⟩
    rw [tokenLoop, xfer_listed hq hc, andThen_done]
    simp [decodeToken, hd, hb, idleEvents, play]
  | succ k ih =>
    intro n s hq hc hn
    obtain ⟨n, rfl⟩ : ∃ m, n = m + 1 := ⟨n - 1, by omega⟩
    rw [List.replicate_succ, List.cons_append] at hc
    obtain ⟨p, hp⟩ := ih
      (n := n) (s := { play 1 [.xfer idleByte idleByte] s with
        work.token := idleByte, work.poll := BitVec.ofNat 32 n }) hq (by simp [hc]) (by omega)
    refine ⟨p, ?_⟩
    rw [tokenLoop, xfer_listed hq hc, andThen_done]
    simp only [decodeToken, if_neg idleByte_ne_start, if_true]
    rw [hp]
    simp [play, idleEvents, List.replicate_succ]
    omega

/-- Bytes sent, whatever is read back: `ECHO_BAD` remembers a byte other than 0xFF (R135). -/
theorem sendBytes_echoed (d : List Byte) :
    ∀ {e : List Byte} {s : State}, e.length = d.length → s.env.arrivals = [] → s.env.cardIn = e ++ rest →
      sendBytes d s = .done () { play d.length (List.zipWith BusEvent.xfer d e) s with
        work.echoBad := s.work.echoBad || e.any (fun b => b != idleByte) } := by
  induction d with
  | nil =>
    intro e s he _ _
    obtain rfl := List.length_eq_zero_iff.mp he
    simp [sendBytes]
  | cons b d ih =>
    intro e s he hq hc
    obtain ⟨v, e, rfl⟩ : ∃ v e', e = v :: e' := by
      cases e with
      | nil => simp at he
      | cons v e => exact ⟨v, e, rfl⟩
    rw [sendBytes, xfer_listed hq hc, andThen_done]
    by_cases hv : v = idleByte
    · rw [if_pos hv, ih (e := e) (by simpa using he) (by exact hq) (by simp [hc])]
      simp [play, hv]
      omega
    · rw [if_neg hv, ih (e := e) (s := { play 1 [.xfer b v] s with work.echoBad := true }) (by simpa using he)
        (by exact hq) (by simp [hc])]
      simp [play, hv]
      omega

/-- CmdBegin on a bus that is never seen idle: no frame (R134). -/
theorem cmdBegin_neverIdle {w : List Byte} (hw : ∀ b ∈ w, b ≠ idleByte) (hn : w.length = s.params.nReadyPoll)
    (hq : s.env.arrivals = []) (hc : s.env.cardIn = w ++ rest) (idx : BitVec 6) (arg : Word) :
    ∃ p, cmdBegin idx arg s = .done (.err .generic)
      { play w.length ([.assertCS] ++ idleEvents w) s with
        cs := true, work := { s.work with idx := idx, arg := arg, poll := p } } := by
  have h1 := assertCS_quiet (s := { s with work.idx := idx, work.arg := arg }) hq
  obtain ⟨p, h2⟩ := waitIdleLoop_timeout hw (rest := rest)
    (s := { play 0 [.assertCS] { s with work.idx := idx, work.arg := arg } with
      cs := true, work.poll := BitVec.ofNat 32 s.params.nReadyPoll }) hq (by simpa using hc)
  refine ⟨p, ?_⟩
  rw [hn] at h2
  rw [cmdBegin, h1, andThen_done]
  rw [show ∀ u : State, waitIdle u = waitIdleLoop u.params.nReadyPoll
    { u with work.poll := BitVec.ofNat 32 u.params.nReadyPoll } from fun _ => rfl]
  refine (congrArg (fun r => Ran.andThen r _) h2).trans ?_
  simp [play, hn]

/-- CmdBegin whose frame is echoed with a byte other than 0xFF: all six bytes, no response poll (R135). -/
theorem cmdBegin_badEcho {w e : List Byte} (hw : ∀ b ∈ w, b ≠ idleByte)
    (hn : w.length < s.params.nReadyPoll) (he : e.length = 6) (hb : ∃ b ∈ e, b ≠ idleByte) (hq : s.env.arrivals = [])
    (hc : s.env.cardIn = w ++ [idleByte] ++ e ++ rest) (idx : BitVec 6) (arg : Word) :
    ∃ k, cmdBegin idx arg s = .done (.err .transmissionInterrupted)
      { play (w.length + 7) ([.assertCS] ++ idleEvents (w ++ [idleByte]) ++
          List.zipWith BusEvent.xfer (commandBytes idx arg) e) s with
        cs := true, work := k } ∧ k.idx = idx ∧ k.arg = arg := by
  obtain ⟨s1, hs1⟩ : ∃ s1 : State, s1 = { play 0 [.assertCS] { s with work.idx := idx, work.arg := arg } with
    cs := true } := ⟨_, rfl⟩
  have h1 : assertCS { s with work.idx := idx, work.arg := arg } = .done () s1 := by rw [hs1]; exact assertCS_quiet hq
  obtain ⟨p, h2⟩ := waitIdle_listed hw (s := s1) (rest := e ++ rest) (by rw [hs1]; exact hq)
    (by simp [hs1, hc]) (by rw [hs1]; exact hn)
  obtain ⟨s2, hs2⟩ : ∃ s2 : State, s2 = { play (w.length + 1) (idleEvents (w ++ [idleByte])) s1 with
    work := { s1.work with poll := p } } := ⟨_, rfl⟩
  have h2' : waitIdle s1 = .done none s2 := by rw [hs2]; exact h2
  have h3 := sendBytes_echoed (commandBytes idx arg) (e := e) (s := loadFrame idx arg s2) (rest := rest)
    (by simpa using he) (by rw [hs2, hs1]; exact hq) (by simp [hs2, hs1, hc, List.drop_append])
  have hany : e.any (fun b => b != idleByte) = true := by simpa using hb
  obtain ⟨s3, hs3⟩ : ∃ s3 : State, s3 = { play 6 (List.zipWith BusEvent.xfer (commandBytes idx arg) e)
    (loadFrame idx arg s2) with work := { (loadFrame idx arg s2).work with echoBad := true } } := ⟨_, rfl⟩
  have h3' : sendFrame idx arg s2 = .done (some .transmissionInterrupted) s3 := by
    rw [sendFrame, h3, andThen_done, hs3]
    simp [hany]
  refine ⟨s3.work, ?_, ?_, ?_⟩
  · rw [cmdBegin, h1, andThen_done, h2', andThen_done]
    dsimp only
    rw [h3', andThen_done]
    simp [hs3, hs2, hs1, play, loadFrame]
    omega
  · rw [hs3, hs2, hs1]; rfl
  · rw [hs3, hs2, hs1]; rfl

/-- CmdBegin whose response never comes (R136). -/
theorem cmdBegin_silent {w : List Byte} (hw : ∀ b ∈ w, b ≠ idleByte) (hn : w.length < s.params.nReadyPoll)
    (hq : s.env.arrivals = [])
    (hc : s.env.cardIn = w ++ List.replicate (7 + s.params.nRespPoll) idleByte ++ rest) (idx : BitVec 6) (arg : Word) :
    ∃ k, cmdBegin idx arg s = .done (.err .generic)
      { play (w.length + 7 + s.params.nRespPoll) ([.assertCS] ++ idleEvents (w ++ [idleByte]) ++ frameEvents idx arg ++
          idleEvents (List.replicate s.params.nRespPoll idleByte)) s with
        cs := true, work := k } ∧ k.idx = idx ∧ k.arg = arg := by
  have hc' : s.env.cardIn = w ++ idleByte :: (List.replicate 6 idleByte ++
      (List.replicate s.params.nRespPoll idleByte ++ rest)) := by
    rw [hc, show 7 + s.params.nRespPoll = 1 + (6 + s.params.nRespPoll) by omega]
    simp [List.replicate_add]
  obtain ⟨s1, hs1⟩ : ∃ s1 : State, s1 = { play 0 [.assertCS] { s with work.idx := idx, work.arg := arg } with
    cs := true } := ⟨_, rfl⟩
  have h1 : assertCS { s with work.idx := idx, work.arg := arg } = .done () s1 := by rw [hs1]; exact assertCS_quiet hq
  obtain ⟨p, h2⟩ := waitIdle_listed hw (s := s1) (by rw [hs1]; exact hq) (by simpa [hs1] using hc')
    (by rw [hs1]; exact hn)
  obtain ⟨s2, hs2⟩ : ∃ s2 : State, s2 = { play (w.length + 1) (idleEvents (w ++ [idleByte])) s1 with
    work := { s1.work with poll := p } } := ⟨_, rfl⟩
  have h2' : waitIdle s1 = .done none s2 := by rw [hs2]; exact h2
  have h3 := sendFrame_listed (s := s2) (rest := List.replicate s.params.nRespPoll idleByte ++ rest)
    (by rw [hs2, hs1]; exact hq) (by simp [hs2, hs1, hc', List.drop_append]) idx arg
  obtain ⟨s3, hs3⟩ : ∃ s3 : State, s3 = play 6 (frameEvents idx arg) (loadFrame idx arg s2) := ⟨_, rfl⟩
  rw [← hs3] at h3
  have hp3 : s3.params.nRespPoll = s.params.nRespPoll := by rw [hs3, hs2, hs1]; rfl
  have hc3 : s3.env.cardIn = List.replicate s3.params.nRespPoll idleByte ++ rest := by
    rw [hp3]
    simp [hs3, hs2, hs1, hc', List.drop_append]
    omega
  obtain ⟨q, h4⟩ := pollLoop_timeout s3.params.nRespPoll (rest := rest)
    (s := { s3 with work.poll := BitVec.ofNat 32 s3.params.nRespPoll }) (by rw [hs3, hs2, hs1]; exact hq) hc3
  obtain ⟨s4, hs4⟩ : ∃ s4 : State, s4 = { play s3.params.nRespPoll
    (idleEvents (List.replicate s3.params.nRespPoll idleByte)) s3 with work := { s3.work with poll := q } } := ⟨_, rfl⟩
  have h4' : pollResponse s3 = .done (.err .generic) s4 := by rw [hs4]; exact h4
  refine ⟨s4.work, ?_, ?_, ?_⟩
  · rw [cmdBegin, h1, andThen_done, h2', andThen_done]
    dsimp only
    rw [h3, andThen_done]
    dsimp only
    rw [h4', hs4, hp3]
    simp [hs3, hs2, hs1, play, loadFrame]
    omega
  · rw [hs4, hs3, hs2, hs1]; rfl
  · rw [hs4, hs3, hs2, hs1]; rfl

/-! ### Every way CmdBegin can end -/

/-- CmdBegin on an exchange that fits: its result, its answers, its events; R1 where one came (R134 to R136). -/
theorem cmdBegin_exchange {x : Exchange} (hf : x.fits s.params) (hq : s.env.arrivals = [])
    (hc : s.env.cardIn = x.opening ++ rest) (idx : BitVec 6) (arg : Word) :
    ∃ k, cmdBegin idx arg s = .done x.result
      { play x.opening.length (x.openEvents idx arg) s with cs := true, work := k } ∧
      k.idx = idx ∧ k.arg = arg ∧ ∀ b, x.result = .status b → k.r1 = b := by
  cases x with
  | answered c =>
    obtain ⟨p, h⟩ := cmdBegin_listed hf hq hc idx arg
    exact ⟨_, h, rfl, rfl, fun b hb => by injection hb⟩
  | neverIdle w z =>
    obtain ⟨p, h⟩ := cmdBegin_neverIdle hf.1 hf.2 hq hc idx arg
    exact ⟨_, h, rfl, rfl, fun b hb => by simp [Exchange.result] at hb⟩
  | badEcho w e z =>
    obtain ⟨hw, hn, he, hb⟩ := hf
    obtain ⟨k, h, h1, h2⟩ := cmdBegin_badEcho hw hn he hb hq hc idx arg
    refine ⟨k, ?_, h1, h2, fun b hb => by simp [Exchange.result] at hb⟩
    simpa [Exchange.opening, Exchange.openEvents, Exchange.result, he, Nat.add_assoc] using h
  | silent w n z =>
    obtain ⟨hw, hn, rfl⟩ := hf
    obtain ⟨k, h, h1, h2⟩ := cmdBegin_silent hw hn hq hc idx arg
    refine ⟨k, ?_, h1, h2, fun b hb => by simp [Exchange.result] at hb⟩
    simpa [Exchange.opening, Exchange.openEvents, Exchange.result, Nat.add_assoc] using h

/-- What follows CmdBegin and ends with CmdEnd at once: one exchange, its result (R137). -/
theorem closed_exchange {α : Type} {x : Exchange} (hf : x.fits s.params) (hq : s.env.arrivals = [])
    (hc : s.env.cardIn = x.bytes ++ rest) (idx : BitVec 6) (arg : Word) {f : Result → State → Ran α} {v : α}
    (hg : ∀ u, f x.result u = (cmdEnd u).andThen fun _ u => .done v u) :
    ∃ k, (cmdBegin idx arg s).andThen f = .done v
      { play x.bytes.length (x.events idx arg) s with cs := false, work := k } ∧
      k.idx = idx ∧ k.arg = arg ∧ ∀ b, x.result = .status b → k.r1 = b := by
  obtain ⟨k, h, hk⟩ := cmdBegin_exchange hf hq (rest := x.trail :: rest) (by simpa [Exchange.bytes] using hc) idx arg
  refine ⟨k, ?_, hk⟩
  have he := cmdEnd_listed (z := x.trail) (rest := rest)
    (s := { play x.opening.length (x.openEvents idx arg) s with cs := true, work := k }) hq
    (by simp [hc, Exchange.bytes])
  rw [h, andThen_done, hg, he, andThen_done]
  simp [play, Exchange.bytes, Exchange.events, Nat.add_assoc]

/-- A transaction that ends with its opening (R139). -/
theorem command_exchange {x : Exchange} (hf : x.fits s.params) (hq : s.env.arrivals = [])
    (hc : s.env.cardIn = x.bytes ++ rest) {idx : BitVec 6} (arg : Word) (hp : hasPayload idx x.result = false) :
    ∃ k, command idx arg s = .done x.result
      { play x.bytes.length (x.events idx arg) s with cs := false, work := k } ∧
      k.idx = idx ∧ k.arg = arg ∧ ∀ b, x.result = .status b → k.r1 = b :=
  closed_exchange hf hq hc idx arg fun u => by simp [hp]

/-- A block read that CmdBegin refuses (R144, R169). -/
theorem blockRead_refused {x : Exchange} (hf : x.fits s.params) (hr : x.result ≠ .status 0x00#8)
    (hq : s.env.arrivals = []) (hc : s.env.cardIn = x.bytes ++ rest) (idx : BitVec 6) (addr : Word) (buf : Nat) :
    ∃ k, blockRead idx addr buf s = .done x.result
      { play x.bytes.length (x.events idx addr) s with cs := false, work := k } ∧
      k.idx = idx ∧ k.arg = addr ∧ ∀ b, x.result = .status b → k.r1 = b :=
  closed_exchange hf hq hc idx addr fun u => by simp [hr]

/-- A block write that CmdBegin refuses (R145, R274). -/
theorem blockWrite_refused {x : Exchange} (hf : x.fits s.params) (hr : x.result ≠ .status 0x00#8)
    (hq : s.env.arrivals = []) (hc : s.env.cardIn = x.bytes ++ rest) (addr : Word) (buf : Nat) :
    ∃ k, blockWrite addr buf s = .done ⟨x.result, x.result.code, 0⟩
      { play x.bytes.length (x.events 24 addr) s with cs := false, work := k } ∧
      k.idx = 24 ∧ k.arg = addr ∧ ∀ b, x.result = .status b → k.r1 = b :=
  closed_exchange hf hq hc 24 addr fun u => by simp [hr]

end Sys2Proof.Machine
end

