-- ==== Sys2Proof/Laws/Startup.lean ====
section
/-!
SUPPORT. The phases of STARTUP on listed answers: Probing with its repeated attempts (R234), the iterations of IdleWait
whatever each ends in (R238, R239). The card is deselected between two transactions, so that a phase leaves what it
played, the working registers and the session registers.
-/

namespace Sys2Proof.Machine

open Sys2Proof

variable {s : State} {rest : List Byte}

/-- A command on a deselected card that ends with its opening: it plays the exchange and leaves the working registers. -/
theorem command_played {x : Exchange} (hf : x.fits s.params) (hq : s.env.arrivals = []) (hs : s.cs = false)
    (hc : s.env.cardIn = x.bytes ++ rest) {idx : BitVec 6} (arg : Word) (hp : hasPayload idx x.result = false) :
    ∃ k, command idx arg s = .done x.result { play x.bytes.length (x.events idx arg) s with work := k } ∧
      k.idx = idx ∧ k.arg = arg := by
  obtain ⟨k, h, h1, h2, -⟩ := command_exchange hf hq hc arg hp
  refine ⟨k, ?_, h1, h2⟩
  rw [h, ← hs]
  rfl

theorem hasPayload_other {idx : BitVec 6} (r : Result) (h8 : idx ≠ 8) (h58 : idx ≠ 58) : hasPayload idx r = false := by
  cases r with
  | status b => simp only [hasPayload, beq_eq_false_iff_ne.mpr h8, beq_eq_false_iff_ne.mpr h58, Bool.or_self, Bool.false_and]
  | err k => rfl

@[simp] theorem answered_bytes (c : CmdScript) : (Exchange.answered c).bytes = c.bytes := rfl

@[simp] theorem answered_events (c : CmdScript) (idx : BitVec 6) (arg : Word) :
    (Exchange.answered c).events idx arg = c.events idx arg := rfl

/-- Playing twice with registers written in between is playing once. -/
theorem play_work_play (m n : Nat) (e f : List BusEvent) (s : State) (k l : Work) :
    { play n f { play m e s with work := k } with work := l } = { play (m + n) (e ++ f) s with work := l } := by
  simp [play, Nat.add_assoc]

/-- The power-up bytes (R232). -/
theorem clockIdle_listed (pu : List Byte) : ∀ {s : State}, s.env.arrivals = [] → s.env.cardIn = pu ++ rest →
    clockIdle pu.length s = .done () (play pu.length (idleEvents pu) s) := by
  induction pu with
  | nil => intro s _ _; simp [clockIdle, idleEvents]
  | cons b pu ih =>
    intro s hq hc
    rw [List.length_cons, clockIdle, xfer_listed hq (by simpa using hc), andThen_done,
      ih (s := play 1 [.xfer idleByte b] s) hq (by simp [hc]), play_play]
    simp [idleEvents, Nat.add_comm]

/-- Attempts at CMD0 that are repeated take one count each (R234). -/
theorem probeLoop_retries (tries : List Exchange) : ∀ {s : State} (n : Nat), s.env.arrivals = [] → s.cs = false →
    (∀ x ∈ tries, x.fits s.params ∧ retried x.result) → s.env.cardIn = tries.flatMap Exchange.bytes ++ rest →
    ∃ k, probeLoop (tries.length + (n + 1)) s = probeLoop (n + 1)
      { play (tries.flatMap Exchange.bytes).length (tries.flatMap fun x => x.events 0 0) s with work := k } := by
  induction tries with
  | nil => intro s n _ _ _ _; exact ⟨s.work, by simp⟩
  | cons x tries ih =>
    intro s n hq hs hf hc
    obtain ⟨hx, hr⟩ := hf x (by simp)
    obtain ⟨k, h, -, -⟩ := command_played hx hq hs (rest := tries.flatMap Exchange.bytes ++ rest) (by simpa using hc) (idx := 0) 0
      (hasPayload_other _ (by decide) (by decide))
    have hn : tries.length + (n + 1) ≠ 0 := by omega
    have hstep : ∃ l, probeLoop (tries.length + (n + 1) + 1) s = probeLoop (tries.length + (n + 1))
        { play x.bytes.length (x.events 0 0) s with work := l } := by
      refine ⟨{ k with attempts := BitVec.ofNat 32 (tries.length + (n + 1)) }, ?_⟩
      rw [probeLoop, h, andThen_done]
      dsimp only
      rw [if_neg hr.1]
      revert hr
      cases x.result with
      | status b => intro _; simp only [if_neg hn]
      | err e => intro hr; rw [hr.2 e rfl]; simp only [if_neg hn]
    obtain ⟨l, hstep⟩ := hstep
    obtain ⟨k', h'⟩ := ih (s := { play x.bytes.length (x.events 0 0) s with work := l }) n hq hs
      (fun y hy => hf y (by simp [hy])) (by simp [hc])
    refine ⟨k', ?_⟩
    rw [show (x :: tries).length + (n + 1) = tries.length + (n + 1) + 1 by simp; omega, hstep, h', play_work_play]
    simp

/-- The attempt that is answered with idle ends the loop (R234). -/
theorem probeLoop_idle {c : CmdScript} (hf : c.fits s.params) (h1 : c.status = 0x01#8) (hq : s.env.arrivals = [])
    (hs : s.cs = false) (hc : s.env.cardIn = c.bytes ++ rest) (n : Nat) :
    ∃ k, probeLoop (n + 1) s = .done .pass { play c.bytes.length (c.events 0 0) s with work := k } := by
  obtain ⟨k, h, -, -⟩ := command_played (x := .answered c) hf hq hs (rest := rest) hc (idx := 0) 0
    (hasPayload_other _ (by decide) (by decide))
  refine ⟨k, ?_⟩
  rw [probeLoop, h, andThen_done]
  simp [Exchange.result, h1]

/-- The attempt that ends the loop in a fault: Generic at once, or the last one the bound allows (R234). -/
theorem probeLoop_fault {x : Exchange} (hf : x.fits s.params) (hq : s.env.arrivals = []) (hs : s.cs = false)
    (hc : s.env.cardIn = x.bytes ++ rest) (n : Nat) (hx : retried x.result ∧ n = 0 ∨ x.result = .err .generic) :
    ∃ k, probeLoop (n + 1) s = .done
        (.fault (if x.result = .err .generic then .generic else .resetTimeout) x.result)
        { play x.bytes.length (x.events 0 0) s with work := k } ∧ k.idx = 0 ∧ k.arg = 0 := by
  obtain ⟨k, h, h1, h2⟩ := command_played hf hq hs (rest := rest) hc (idx := 0) 0
    (hasPayload_other _ (by decide) (by decide))
  rcases hx with ⟨hr, rfl⟩ | hg
  · refine ⟨{ k with attempts := 0 }, ?_, h1, h2⟩
    rw [probeLoop, h, andThen_done]
    dsimp only
    rw [if_neg hr.1]
    revert hr
    cases x.result with
    | status b => intro _; simp
    | err e => intro hr; rw [hr.2 e rfl]; simp
  · refine ⟨k, ?_, h1, h2⟩
    rw [probeLoop, h, andThen_done, hg]
    simp

/-- What Probing does before its loop (R232), and what the loop then starts from. -/
theorem probing_listed {pu : List Byte} (hn : pu.length = s.params.nPowerup) (hq : s.env.arrivals = [])
    (hc : s.env.cardIn = pu ++ rest) :
    ∃ k, probing s = probeLoop s.params.nResetAttempts
      { play pu.length (powerEvents pu) s with
        cs := false, work := k, session := ⟨.probing, s.session.faultCode, .standard, s.session.cardGen, .slow⟩ } := by
  refine ⟨{ s.work with attempts := BitVec.ofNat 32 s.params.nResetAttempts }, ?_⟩
  have h3 := clockIdle_listed (rest := rest) pu (s := { play 0 [.deassertCS]
    { play 0 [.setClock .slow] { s with session.state := .probing, session.capClass := .standard } with
      session.clkMode := .slow } with cs := false }) hq (by simpa using hc)
  rw [probing, setClock_quiet (by exact hq), andThen_done, deassertCS_quiet (by exact hq), andThen_done]
  show (clockIdle s.params.nPowerup _).andThen _ = _
  rw [← hn, h3, andThen_done]
  simp [play, powerEvents, hn]

/-- A Probing that succeeds (R232, R234). -/
theorem probing_passes {q : PowerScript} (hf : q.fits s.params) (hq : s.env.arrivals = [])
    (hc : s.env.cardIn = q.bytes ++ rest) :
    ∃ k, probing s = .done .pass { play q.bytes.length q.events s with
      cs := false, work := k, session := ⟨.probing, s.session.faultCode, .standard, s.session.cardGen, .slow⟩ } := by
  obtain ⟨h1, h2, h3, h4, h5⟩ := hf
  obtain ⟨k, h⟩ := probing_listed h1 hq (rest := q.tries.flatMap Exchange.bytes ++ q.idle.bytes ++ rest)
    (by simpa [PowerScript.bytes] using hc)
  obtain ⟨n, hn⟩ : ∃ n, s.params.nResetAttempts = q.tries.length + (n + 1) := ⟨s.params.nResetAttempts - q.tries.length - 1, by omega⟩
  rw [hn] at h
  set u : State := { play q.powerup.length (powerEvents q.powerup) s with
        cs := false, work := k, session := ⟨.probing, s.session.faultCode, .standard, s.session.cardGen, .slow⟩ } with hu
  obtain ⟨k', h'⟩ := probeLoop_retries q.tries (s := u) (rest := q.idle.bytes ++ rest) n hq rfl h2
    (by simp [hu, hc, PowerScript.bytes])
  obtain ⟨k'', h''⟩ := probeLoop_idle (c := q.idle) (rest := rest) (s := { play (q.tries.flatMap Exchange.bytes).length
    (q.tries.flatMap fun x => x.events 0 0) u with work := k' }) h4 h5 hq rfl
    (by simp [hu, hc, PowerScript.bytes]) n
  refine ⟨k'', ?_⟩
  rw [h, h', h'']
  simp [hu, play, PowerScript.bytes, PowerScript.events, Nat.add_assoc]

/-- A Probing that faults (R234). -/
theorem probing_faults {pu : List Byte} {tries : List Exchange} {last : Exchange} (hn : pu.length = s.params.nPowerup)
    (ht : ∀ x ∈ tries, x.fits s.params ∧ retried x.result) (hl : last.fits s.params)
    (hb : tries.length < s.params.nResetAttempts)
    (he : retried last.result ∧ tries.length + 1 = s.params.nResetAttempts ∨ last.result = .err .generic)
    (hq : s.env.arrivals = []) (hc : s.env.cardIn = pu ++ (tries ++ [last]).flatMap Exchange.bytes ++ rest) :
    ∃ k, probing s = .done (.fault (if last.result = .err .generic then .generic else .resetTimeout) last.result)
      { play (pu ++ (tries ++ [last]).flatMap Exchange.bytes).length
          (powerEvents pu ++ (tries ++ [last]).flatMap fun x => x.events 0 0) s with
        cs := false, work := k, session := ⟨.probing, s.session.faultCode, .standard, s.session.cardGen, .slow⟩ } ∧
      k.idx = 0 ∧ k.arg = 0 := by
  obtain ⟨k, h⟩ := probing_listed hn hq (rest := (tries ++ [last]).flatMap Exchange.bytes ++ rest)
    (by simpa using hc)
  obtain ⟨n, hn⟩ : ∃ n, s.params.nResetAttempts = tries.length + (n + 1) := ⟨s.params.nResetAttempts - tries.length - 1, by omega⟩
  rw [hn] at h
  set u : State := { play pu.length (powerEvents pu) s with
        cs := false, work := k, session := ⟨.probing, s.session.faultCode, .standard, s.session.cardGen, .slow⟩ } with hu
  obtain ⟨k', h'⟩ := probeLoop_retries tries (s := u) (rest := last.bytes ++ rest) n hq rfl ht
    (by simp [hu, hc])
  obtain ⟨k'', h'', h1, h2⟩ := probeLoop_fault (x := last) (rest := rest) (s := { play (tries.flatMap Exchange.bytes).length
    (tries.flatMap fun x => x.events 0 0) u with work := k' }) hl hq rfl
    (by simp [hu, hc]) n (he.imp_left fun h => ⟨h.1, by omega⟩)
  refine ⟨k'', ?_, h1, h2⟩
  rw [h, h', h'']
  simp [hu, play, Nat.add_assoc]

/-! ### IdleWait -/

theorem nextGen_or (g : CardGen) (i : Iteration) : nextGen g i = .mmc ∨ nextGen g i = g := by
  unfold nextGen
  split_ifs
  · exact .inl rfl
  · exact .inr rfl

/-- An application command on a deselected card, in either of its two ways (R138). -/
theorem appCommand_stopped {x : Exchange} (hf : x.fits s.params) (hx : ∀ b, x.result = .status b → illegal b = true)
    (hq : s.env.arrivals = []) (hs : s.cs = false) (hc : s.env.cardIn = x.bytes ++ rest) (idx : BitVec 6) (arg : Word) :
    ∃ k, appCommand idx arg s = .done x.result { play x.bytes.length (x.events 55 0) s with work := k } ∧
      k.idx = 55 ∧ k.arg = 0 := by
  obtain ⟨k, h, h1, h2⟩ := command_played hf hq hs hc (idx := 55) 0 (hasPayload_other _ (by decide) (by decide))
  refine ⟨k, ?_, h1, h2⟩
  have ha : announced x.result = false := by
    revert hx
    cases x.result with
    | status b => intro hx; simp [announced, hx b rfl]
    | err e => intro _; rfl
  rw [appCommand, h, andThen_done, ha, if_neg (by simp)]

theorem appCommand_sent {c : CmdScript} {x : Exchange} (hc55 : c.fits s.params) (hi : illegal c.status = false)
    (hf : x.fits s.params) (hq : s.env.arrivals = []) (hs : s.cs = false)
    (hc : s.env.cardIn = c.bytes ++ x.bytes ++ rest) (arg : Word) :
    ∃ k, appCommand 41 arg s = .done x.result
        { play (c.bytes ++ x.bytes).length (c.events 55 0 ++ x.events 41 arg) s with work := k } ∧
      k.idx = 41 ∧ k.arg = arg := by
  obtain ⟨k, h, -, -⟩ := command_played (x := .answered c) hc55 hq hs (rest := x.bytes ++ rest) (by simpa using hc)
    (idx := 55) 0 (hasPayload_other _ (by decide) (by decide))
  obtain ⟨l, h', h1, h2⟩ := command_played (s := { play c.bytes.length (c.events 55 0) s with work := k }) hf hq hs
    (rest := rest) (by simp [hc]) (idx := 41) arg (hasPayload_other _ (by decide) (by decide))
  refine ⟨l, ?_, h1, h2⟩
  rw [appCommand, h, andThen_done, if_pos (by simp [announced, Exchange.result, hi])]
  simp only [answered_bytes, answered_events]
  rw [h', play_work_play, List.length_append]

/-- One iteration: what it plays, the card generation after it, and the transaction it ends with (R238, R239). -/
theorem negotiate_iteration {i : Iteration} {hcs : Bool} (hf : i.fits s.params s.session.cardGen)
    (hh : s.session.cardGen ≠ .mmc → hcsOf s.session.cardGen = hcs) (hq : s.env.arrivals = []) (hs : s.cs = false)
    (hc : s.env.cardIn = i.bytes ++ rest) :
    ∃ k, negotiate s = .done i.result { play i.bytes.length (i.events hcs) s with
        work := k, session.cardGen := nextGen s.session.cardGen i } ∧
      (⟨k.idx.setWidth 8, i.result.code, k.arg, 0, 0⟩ : LogRecord) = i.record hcs := by
  have keep : ∀ (r : Result) (u : State), u.session.cardGen = s.session.cardGen →
      (if r.isIllegal then { u with session.cardGen := .mmc } else u) =
        { u with session.cardGen := if r.isIllegal then .mmc else s.session.cardGen } := by
    intro r u hu
    split_ifs
    · rfl
    · rw [← hu]
  have app : s.session.cardGen ≠ .mmc → negotiate s = (appCommand 41 (acmd41Argument hcs) s).andThen fun r s =>
      .done r (if r.isIllegal then { s with session.cardGen := .mmc } else s) := by
    intro hg
    rw [← hh hg]
    unfold negotiate
    split
    · exact absurd ‹_› hg
    · rfl
  cases i with
  | legacy x =>
    obtain ⟨hg, hx⟩ := hf
    obtain ⟨k, h, h1, h2⟩ := command_played hx hq hs hc (idx := 1) 0 (hasPayload_other _ (by decide) (by decide))
    refine ⟨k, ?_, by simp [h1, h2, Iteration.record, Iteration.result]⟩
    unfold negotiate
    simp only [hg, h, nextGen, ite_self]
    rw [← hg]
    rfl
  | stopped x =>
    obtain ⟨hg, hx, hi⟩ := hf
    obtain ⟨k, h, h1, h2⟩ := appCommand_stopped hx hi hq hs hc 41 (acmd41Argument hcs)
    refine ⟨k, ?_, by simp [h1, h2, Iteration.record, Iteration.result]⟩
    rw [app hg, h, andThen_done]
    exact congrArg (Ran.done x.result) (keep _ _ rfl)
  | app c x =>
    obtain ⟨hg, hc55, hi, hx⟩ := hf
    obtain ⟨k, h, h1, h2⟩ := appCommand_sent hc55 hi hx hq hs hc (acmd41Argument hcs)
    refine ⟨k, ?_, by cases hcs <;> simp [h1, h2, Iteration.record, Iteration.result, acmd41Argument]⟩
    rw [app hg, h, andThen_done]
    cases hcs <;> exact congrArg (Ran.done x.result) (keep _ _ rfl)

/-- Iterations that do not end in ready take one count each, and the loop goes on (R238). -/
theorem idleWaitLoop_waits {hcs : Bool} (is : List Iteration) : ∀ {s : State} (n : Nat), s.env.arrivals = [] →
    s.cs = false → (s.session.cardGen ≠ .mmc → hcsOf s.session.cardGen = hcs) →
    iterationsFit s.params s.session.cardGen is → (∀ i ∈ is, i.result ≠ .status 0x00#8) →
    s.env.cardIn = is.flatMap Iteration.bytes ++ rest →
    ∃ k, idleWaitLoop (is.length + (n + 1)) s = idleWaitLoop (n + 1)
      { play (is.flatMap Iteration.bytes).length (is.flatMap (Iteration.events hcs)) s with
        work := k, session.cardGen := genAfter s.session.cardGen is } := by
  induction is with
  | nil => intro s n _ _ _ _ _ _; exact ⟨s.work, by simp [genAfter]⟩
  | cons i is ih =>
    intro s n hq hs hh hf hr hc
    obtain ⟨hi, hf⟩ := hf
    obtain ⟨k, h, -⟩ := negotiate_iteration hi hh hq hs (rest := is.flatMap Iteration.bytes ++ rest) (by simpa using hc)
    have hn : is.length + (n + 1) ≠ 0 := by omega
    obtain ⟨l, hl⟩ : ∃ l, idleWaitLoop (is.length + (n + 1) + 1) s = idleWaitLoop (is.length + (n + 1))
        { play i.bytes.length (i.events hcs) s with work := l, session.cardGen := nextGen s.session.cardGen i } := by
      refine ⟨{ k with iter := k.iter + 1 }, ?_⟩
      rw [idleWaitLoop, h, andThen_done]
      dsimp only
      rw [if_neg (hr i (by simp)), if_neg hn]
    obtain ⟨k', h'⟩ := ih (s := { play i.bytes.length (i.events hcs) s with
        work := l, session.cardGen := nextGen s.session.cardGen i }) n hq hs
      (fun hg => by
        rcases nextGen_or s.session.cardGen i with hx | hx
        · exact absurd hx hg
        · exact (congrArg hcsOf hx).trans (hh (hx ▸ hg)))
      hf (fun j hj => hr j (by simp [hj])) (by simp [hc])
    refine ⟨k', ?_⟩
    rw [show (i :: is).length + (n + 1) = is.length + (n + 1) + 1 by simp; omega, hl, h']
    simp [play, genAfter, Nat.add_assoc]

theorem iterationsFit_append {p : Params} (is : List Iteration) (i : Iteration) : ∀ {g : CardGen},
    iterationsFit p g (is ++ [i]) → iterationsFit p g is ∧ i.fits p (genAfter g is) := by
  induction is with
  | nil => exact fun h => ⟨trivial, h.1⟩
  | cons j is ih => exact fun h => ⟨⟨h.1, (ih h.2).1⟩, (ih h.2).2⟩

theorem genAfter_or (is : List Iteration) : ∀ g : CardGen, genAfter g is = .mmc ∨ genAfter g is = g := by
  induction is with
  | nil => exact fun g => .inr rfl
  | cons i is ih =>
    intro g
    rcases ih (nextGen g i) with h | h
    · exact .inl h
    · rcases nextGen_or g i with h' | h'
      · exact .inl (h.trans h')
      · exact .inr (h.trans h')

/-- The last iteration, in which the card is ready or the bound is reached (R238, R240). -/
theorem idleWaitLoop_ends {hcs : Bool} {is : List Iteration} {last : Iteration} {n : Nat} (hq : s.env.arrivals = [])
    (hs : s.cs = false) (hh : s.session.cardGen ≠ .mmc → hcsOf s.session.cardGen = hcs)
    (hf : iterationsFit s.params s.session.cardGen (is ++ [last])) (hr : ∀ i ∈ is, i.result ≠ .status 0x00#8)
    (hn : is.length < n) (hl : last.result = .status 0x00#8 ∨ is.length + 1 = n)
    (hc : s.env.cardIn = (is ++ [last]).flatMap Iteration.bytes ++ rest) :
    ∃ k, idleWaitLoop n s = .done
        (if last.result = .status 0x00#8 then .pass else .fault .idleWaitTimeout last.result)
        { play ((is ++ [last]).flatMap Iteration.bytes).length ((is ++ [last]).flatMap (Iteration.events hcs)) s with
          work := k, session.cardGen := genAfter s.session.cardGen (is ++ [last]) } ∧
      (⟨k.idx.setWidth 8, last.result.code, k.arg, 0, 0⟩ : LogRecord) = last.record hcs := by
  obtain ⟨m, rfl⟩ : ∃ m, n = is.length + (m + 1) := ⟨n - is.length - 1, by omega⟩
  obtain ⟨h1, h2⟩ := iterationsFit_append is last hf
  obtain ⟨k, h⟩ := idleWaitLoop_waits is m hq hs hh h1 hr (rest := last.bytes ++ rest) (by simpa using hc)
  set u : State := { play (is.flatMap Iteration.bytes).length (is.flatMap (Iteration.events hcs)) s with
        work := k, session.cardGen := genAfter s.session.cardGen is } with hu
  obtain ⟨l, h', h3⟩ := negotiate_iteration (s := u) (i := last) (hcs := hcs) (rest := rest) h2
    (fun hg => by
      rcases genAfter_or is s.session.cardGen with hx | hx
      · exact absurd hx hg
      · exact (congrArg hcsOf hx).trans (hh (hx ▸ hg))) hq hs (by simp [hu, hc])
  refine ⟨{ l with iter := l.iter + 1 }, ?_, h3⟩
  rw [h, idleWaitLoop, h', andThen_done]
  dsimp only
  have hg : genAfter s.session.cardGen (is ++ [last]) = nextGen (genAfter s.session.cardGen is) last := by
    simp [genAfter]
  by_cases he : last.result = .status 0x00#8
  · simp only [if_pos he, hg]
    simp [hu, play, Nat.add_assoc]
  · have hm : m = 0 := by rcases hl with hl | hl; exacts [absurd hl he, by omega]
    simp only [if_neg he, if_pos hm, hg]
    simp [hu, play, Nat.add_assoc]

/-! ### The other phases -/

/-- A command with its payload where it has one, on a deselected card (R139). -/
theorem command_full {c : CmdScript} {pl : Word} (hf : c.fits s.params) (hq : s.env.arrivals = []) (hs : s.cs = false)
    (hc : s.env.cardIn = c.fullBytes pl ++ rest) {idx : BitVec 6} (arg : Word) (hi : idx = 8 ∨ idx = 58) :
    ∃ k, command idx arg s = .done (.status c.status)
        { play (c.fullBytes pl).length (c.fullEvents idx arg pl) s with work := k } ∧
      k.idx = idx ∧ k.arg = arg ∧ (illegal c.status = false → k.payload = pl) := by
  unfold CmdScript.fullBytes CmdScript.fullEvents at *
  cases hb : illegal c.status with
  | true =>
    simp only [hb, if_true] at hc ⊢
    obtain ⟨k, h, h1, h2⟩ := command_played (x := .answered c) hf hq hs hc (idx := idx) arg
      (by simp [Exchange.result, hasPayload, hb])
    exact ⟨k, h, h1, h2, by simp⟩
  | false =>
    simp only [hb, Bool.false_eq_true, if_false] at hc ⊢
    obtain ⟨p, h⟩ := command_payload_listed hf hq hc (idx := idx) arg
      (by rcases hi with rfl | rfl <;> simp [hasPayload, hb])
    refine ⟨{ openWork idx arg c.status p s.work with payload := pl }, ?_, rfl, rfl, fun _ => rfl⟩
    rw [h, ← hs]
    rfl

/-- The same for a payload that comes. -/
theorem command_payload {c : CmdScript} {pl : Word} (hf : c.fits s.params) (hb : illegal c.status = false)
    (hq : s.env.arrivals = []) (hs : s.cs = false) (hc : s.env.cardIn = c.payloadBytes pl ++ rest) {idx : BitVec 6}
    (arg : Word) (hi : idx = 8 ∨ idx = 58) :
    ∃ k, command idx arg s = .done (.status c.status)
        { play (c.payloadBytes pl).length (c.payloadEvents idx arg pl) s with work := k } ∧
      k.idx = idx ∧ k.arg = arg ∧ k.payload = pl := by
  have hbytes : c.fullBytes pl = c.payloadBytes pl := by simp [CmdScript.fullBytes, hb]
  have hevents : c.fullEvents idx arg pl = c.payloadEvents idx arg pl := by simp [CmdScript.fullEvents, hb]
  obtain ⟨k, h, h1, h2, h3⟩ := command_full hf hq hs (hbytes ▸ hc) arg hi
  exact ⟨k, by rw [h, hbytes, hevents], h1, h2, h3 hb⟩

/-- VoltageCheck finds the card generation (R236). -/
theorem voltageCheck_passes {q : ProbeScript} (hf : q.ifCond.fits s.params)
    (he : illegal q.ifCond.status = true ∨ echoMatches q.echo = true) (hq : s.env.arrivals = []) (hs : s.cs = false)
    (hc : s.env.cardIn = q.ifCond.fullBytes q.echo ++ rest) :
    ∃ k, voltageCheck s = .done .pass
      { play (q.ifCond.fullBytes q.echo).length (q.ifCond.fullEvents 8 cmd8Argument q.echo) s with
        work := k, session := { s.session with state := .voltageCheck, cardGen := q.gen } } := by
  obtain ⟨k, h, -, -, hp⟩ := command_full (s := { s with session.state := .voltageCheck }) hf hq hs hc cmd8Argument
    (.inl rfl)
  refine ⟨k, ?_⟩
  rw [voltageCheck, h, andThen_done]
  unfold ProbeScript.gen
  cases hb : illegal q.ifCond.status with
  | true => simp [hb, play]
  | false =>
    have hm : echoMatches k.payload = true := by rw [hp hb]; simpa [hb] using he
    simp [hb, hm, play]

/-- VoltageCheck faults (R235, R236). -/
theorem voltageCheck_faults {f : VoltageFault} (hf : f.fits s.params) (hq : s.env.arrivals = []) (hs : s.cs = false)
    (hc : s.env.cardIn = f.bytes ++ rest) :
    ∃ k e r, voltageCheck s = .done (.fault e r)
        { play f.bytes.length f.events s with work := k, session.state := .voltageCheck } ∧
      k.idx = 8 ∧ k.arg = cmd8Argument ∧ (e.code, r.code) = f.codes := by
  cases f with
  | failed x =>
    obtain ⟨hx, hr⟩ := hf
    have hp : hasPayload 8 x.result = false := by
      cases h : x.result with
      | status b => exact absurd h (hr b)
      | err e => rfl
    obtain ⟨k, h, h1, h2⟩ := command_played (s := { s with session.state := .voltageCheck }) hx hq hs hc cmd8Argument hp
    cases hres : x.result with
    | status b => exact absurd hres (hr b)
    | err e =>
      refine ⟨k, e, .err e, ?_, h1, h2, by simp [VoltageFault.codes, hres, Result.code]⟩
      rw [voltageCheck, h, andThen_done, hres]
      rfl
  | echo c pl =>
    obtain ⟨hx, hb, hm⟩ := hf
    obtain ⟨k, h, h1, h2, h3⟩ := command_payload (s := { s with session.state := .voltageCheck }) hx hb hq hs hc
      cmd8Argument (.inl rfl)
    have hm' : echoMatches k.payload = false := by
      rw [h3]
      simp only [echoMatches, beq_eq_false_iff_ne, ne_eq]
      intro h
      apply hm
      have h' := congrArg (fun b : BitVec 12 => b.setWidth 32) h
      revert h'
      clear hm h hc
      intro h'
      rw [← show (0x1AA#12).setWidth 32 = 0x1AA#32 by decide, ← h']
      apply BitVec.eq_of_getLsbD_eq
      intro i hi
      have : (0xFFF#32).getLsbD i = decide (i < 12) := by
        revert i
        decide
      simp only [BitVec.getLsbD_and, this, BitVec.getLsbD_setWidth, BitVec.getLsbD_extractLsb', hi, decide_true, Bool.true_and, Nat.zero_add]
      by_cases h12 : i < 12 <;> simp [h12]
    refine ⟨k, .unsupportedVoltage, .status c.status, ?_, h1, h2, rfl⟩
    rw [voltageCheck, h, andThen_done]
    simp only [hb, hm', Bool.false_eq_true, if_false]
    rfl

theorem capClassOf_shown {g : CardGen} (hg : g ≠ .mmc) (ocr : Word) : capClassOf ocr = shownCapacity g ocr := by
  simp [capClassOf, shownCapacity, capacityBit, hg]

theorem shownCapacity_mmc (ocr : Word) : shownCapacity .mmc ocr = .standard := rfl

/-- CapacityCheck reads the OCR (R241 to R243). -/
theorem capacityCheck_passes {c : CmdScript} {ocr : Word} (hf : goodOcr s.params c ocr)
    (hcap : s.session.capClass = .standard) (hq : s.env.arrivals = []) (hs : s.cs = false)
    (hc : s.env.cardIn = c.payloadBytes ocr ++ rest) :
    ∃ k, capacityCheck s = .done .pass
      { play (c.payloadBytes ocr).length (c.payloadEvents 58 0 ocr) s with
        work := k
        session := { s.session with state := .capacityCheck, capClass := shownCapacity s.session.cardGen ocr } } := by
  obtain ⟨hx, hb, hv⟩ := hf
  obtain ⟨k, h, -, -, h3⟩ := command_payload (s := { s with session.state := .capacityCheck }) hx hb hq hs hc 0 (.inr rfl)
  refine ⟨k, ?_⟩
  rw [capacityCheck, h, andThen_done]
  simp only [hb, h3, hv, Bool.false_eq_true, if_false, if_true]
  by_cases hg : s.session.cardGen = .mmc
  · simp [hg, shownCapacity_mmc, ← hcap, play]
  · simp [hg, capClassOf_shown hg, play]

/-- The result of a configuration command (R244). -/
theorem configuring_first {x : Exchange} (hf : x.fits s.params) (hq : s.env.arrivals = []) (hs : s.cs = false)
    (hc : s.env.cardIn = x.bytes ++ rest) :
    ∃ k, ((command 16 cmd16Argument { s with session.state := .configuring }).andThen fun r s =>
        .done (configResult r) s) = .done (configResult x.result)
          { play x.bytes.length (x.events 16 cmd16Argument) s with work := k, session.state := .configuring } ∧
      k.idx = 16 ∧ k.arg = cmd16Argument := by
  obtain ⟨k, h, h1, h2⟩ := command_played (s := { s with session.state := .configuring }) hf hq hs hc (idx := 16)
    cmd16Argument (hasPayload_other _ (by decide) (by decide))
  refine ⟨k, ?_, h1, h2⟩
  rw [h, andThen_done]
  rfl

theorem configuring_second {x : Exchange} (hf : x.fits s.params) (hq : s.env.arrivals = []) (hs : s.cs = false)
    (hc : s.env.cardIn = x.bytes ++ rest) :
    ∃ k, ((command 59 cmd59Argument s).andThen fun r s => .done (configResult r) s) = .done (configResult x.result)
          { play x.bytes.length (x.events 59 cmd59Argument) s with work := k } ∧
      k.idx = 59 ∧ k.arg = cmd59Argument := by
  obtain ⟨k, h, h1, h2⟩ := command_played hf hq hs hc (idx := 59) cmd59Argument (hasPayload_other _ (by decide) (by decide))
  refine ⟨k, ?_, h1, h2⟩
  rw [h, andThen_done]

/-- A configuration command that ends in something other than 0x00 faults (R244). -/
theorem configResult_fault {r : Result} (h : r ≠ .status 0x00#8) :
    ∃ e, configResult r = .fault e r ∧ e.code = commandFault r := by
  cases r with
  | err k => exact ⟨k, rfl, rfl⟩
  | status b =>
    refine ⟨.generic, ?_, rfl⟩
    have : b ≠ 0x00#8 := fun hb => h (by rw [hb])
    simp [configResult, this]

@[simp] theorem thenPhase_pass (u : State) (f : State → Ran Verdict) : thenPhase (.done .pass u) f = f u := rfl

@[simp] theorem thenPhase_fault (k : ErrKind) (r : Result) (u : State) (f : State → Ran Verdict) :
    thenPhase (.done (.fault k r) u) f = .done (.fault k r) u := rfl

/-- Configuring succeeds (R244). -/
theorem configuring_passes {b c : CmdScript} (hb : b.fits s.params) (hb0 : b.status = 0x00#8) (hc0 : c.fits s.params)
    (hc1 : c.status = 0x00#8) (hq : s.env.arrivals = []) (hs : s.cs = false)
    (hc : s.env.cardIn = b.bytes ++ c.bytes ++ rest) :
    ∃ k, configuring s = .done .pass
      { play (b.bytes ++ c.bytes).length (b.events 16 cmd16Argument ++ c.events 59 cmd59Argument) s with
        work := k, session.state := .configuring } := by
  obtain ⟨k, h, -⟩ := configuring_first (x := .answered b) hb hq hs (rest := c.bytes ++ rest) (by simpa using hc)
  obtain ⟨l, h', -⟩ := configuring_second (x := .answered c) (rest := rest)
    (s := { play b.bytes.length (b.events 16 cmd16Argument) s with work := k, session.state := .configuring })
    hc0 hq hs (by simp [hc])
  refine ⟨l, ?_⟩
  simp only [Exchange.result, hb0, hc1, answered_bytes, answered_events] at h h'
  rw [configuring, h, show configResult (.status 0x00#8) = .pass from rfl, thenPhase_pass, h']
  simp [play, configResult, Nat.add_assoc]

/-- From CapacityCheck to the end of Configuring (R241 to R244). -/
theorem config_passes {e : ConfigScript} (hf : e.fits s.params) (hcap : s.session.capClass = .standard)
    (hq : s.env.arrivals = []) (hs : s.cs = false) (hc : s.env.cardIn = e.bytes ++ rest) :
    ∃ k, thenPhase (capacityCheck s) configuring = .done .pass
      { play e.bytes.length (e.readOcr.payloadEvents 58 0 e.ocr ++ e.blockLen.events 16 cmd16Argument ++
          e.crcOn.events 59 cmd59Argument) s with
        work := k
        session := { s.session with state := .configuring, capClass := shownCapacity s.session.cardGen e.ocr } } := by
  obtain ⟨h1, h2, h3, h4, h5, h6, h7⟩ := hf
  obtain ⟨k, h⟩ := capacityCheck_passes (c := e.readOcr) (ocr := e.ocr) ⟨h1, h2, h3⟩ hcap hq hs
    (rest := e.blockLen.bytes ++ e.crcOn.bytes ++ rest) (by simpa [ConfigScript.bytes] using hc)
  obtain ⟨l, h'⟩ := configuring_passes h4 h5 h6 h7 (rest := rest)
    (s := { play (e.readOcr.payloadBytes e.ocr).length (e.readOcr.payloadEvents 58 0 e.ocr) s with
        work := k
        session := { s.session with state := .capacityCheck, capClass := shownCapacity s.session.cardGen e.ocr } })
    hq hs (by simp [hc, ConfigScript.bytes])
  refine ⟨l, ?_⟩
  rw [h, thenPhase_pass, h']
  simp [play, ConfigScript.bytes, Nat.add_assoc]

/-- From CapacityCheck to a fault (R241, R242, R244, R246). -/
theorem config_faults {f : ConfigFault} (hf : f.fits s.params) (hcap : s.session.capClass = .standard)
    (hq : s.env.arrivals = []) (hs : s.cs = false) (hc : s.env.cardIn = f.bytes ++ rest) :
    ∃ k e r st, thenPhase (capacityCheck s) configuring = .done (.fault e r)
        { play f.bytes.length f.events s with
          work := k
          session := { s.session with state := st, capClass := (f.outcome s.session.cardGen).2.1 } } ∧
      e.code = (f.outcome s.session.cardGen).1 ∧
      (⟨k.idx.setWidth 8, r.code, k.arg, 0, 0⟩ : LogRecord) = (f.outcome s.session.cardGen).2.2 := by
  cases f with
  | readOcr x =>
    obtain ⟨hx, hr⟩ := hf
    have hp : hasPayload 58 x.result = false := by
      cases h : x.result with
      | status b => simp [hasPayload, hr b h]
      | err e => rfl
    obtain ⟨k, h, h1, h2⟩ := command_played (s := { s with session.state := .capacityCheck }) hx hq hs hc 0 hp
    refine ⟨k, (match x.result with | .err e => e | .status _ => .generic), x.result, .capacityCheck, ?_, ?_, ?_⟩
    · rw [capacityCheck, h, andThen_done]
      cases hres : x.result with
      | err e => simp [ConfigFault.outcome, ← hcap, play, ConfigFault.bytes, ConfigFault.events]
      | status b => simp [hr b hres, ConfigFault.outcome, ← hcap, play, ConfigFault.bytes, ConfigFault.events]
    · cases hres : x.result <;> simp [ConfigFault.outcome, commandFault, hres]; rfl
    · simp [h1, h2, ConfigFault.outcome]
  | voltage c ocr =>
    obtain ⟨hx, hb, hv⟩ := hf
    obtain ⟨k, h, h1, h2, h3⟩ := command_payload (s := { s with session.state := .capacityCheck }) hx hb hq hs hc 0
      (.inr rfl)
    have hv' : voltageOk k.payload = false := by rw [h3]; simpa [voltageOk, ocrVoltageMask] using hv
    refine ⟨k, .voltageNotSupported, .status c.status, .capacityCheck, ?_, rfl,
      by simp [h1, h2, ConfigFault.outcome, Result.code]⟩
    rw [capacityCheck, h, andThen_done]
    simp only [hb, hv', Bool.false_eq_true, if_false]
    simp [ConfigFault.outcome, ← hcap, play, ConfigFault.bytes, ConfigFault.events]
  | blockLen c ocr x =>
    obtain ⟨ho, hx, hr⟩ := hf
    obtain ⟨k, h⟩ := capacityCheck_passes ho hcap hq hs (rest := x.bytes ++ rest) (by simpa [ConfigFault.bytes] using hc)
    obtain ⟨l, h', h1, h2⟩ := configuring_first (rest := rest)
      (s := { play (c.payloadBytes ocr).length (c.payloadEvents 58 0 ocr) s with
        work := k
        session := { s.session with state := .capacityCheck, capClass := shownCapacity s.session.cardGen ocr } })
      hx hq hs (by simp [hc, ConfigFault.bytes])
    obtain ⟨e, he, hcode⟩ := configResult_fault hr
    refine ⟨l, e, x.result, .configuring, ?_, hcode, by simp [h1, h2, ConfigFault.outcome, cmd16Argument]⟩
    rw [h, thenPhase_pass, configuring, h', he, thenPhase_fault]
    simp [play, ConfigFault.bytes, ConfigFault.events, ConfigFault.outcome, Nat.add_assoc]
  | crcOn c ocr b x =>
    obtain ⟨ho, hb, hb0, hx, hr⟩ := hf
    obtain ⟨k, h⟩ := capacityCheck_passes ho hcap hq hs (rest := b.bytes ++ x.bytes ++ rest)
      (by simpa [ConfigFault.bytes] using hc)
    set u : State := { play (c.payloadBytes ocr).length (c.payloadEvents 58 0 ocr) s with
        work := k
        session := { s.session with state := .capacityCheck, capClass := shownCapacity s.session.cardGen ocr } } with hu
    obtain ⟨l, h', -⟩ := configuring_first (x := .answered b) (s := u) (rest := x.bytes ++ rest) hb hq hs
      (by simp [hu, hc, ConfigFault.bytes])
    obtain ⟨m, h'', h1, h2⟩ := configuring_second (rest := rest) (x := x)
      (s := { play b.bytes.length (b.events 16 cmd16Argument) u with work := l, session.state := .configuring })
      hx hq hs (by simp [hu, hc, ConfigFault.bytes])
    obtain ⟨e, he, hcode⟩ := configResult_fault hr
    refine ⟨m, e, x.result, .configuring, ?_, hcode, by simp [h1, h2, ConfigFault.outcome, cmd59Argument]⟩
    simp only [Exchange.result, hb0, answered_bytes, answered_events] at h'
    rw [h, thenPhase_pass, configuring, h', show configResult (.status 0x00#8) = .pass from rfl, thenPhase_pass, h'', he]
    simp [hu, play, ConfigFault.bytes, ConfigFault.events, ConfigFault.outcome, Nat.add_assoc]

/-- Probing and VoltageCheck succeed (R232 to R236). -/
theorem probe_passes {q : ProbeScript} (hf : q.fits s.params) (hq : s.env.arrivals = [])
    (hc : s.env.cardIn = q.bytes ++ rest) :
    ∃ k, thenPhase (probing s) voltageCheck = .done .pass { play q.bytes.length q.events s with
      cs := false, work := k, session := ⟨.voltageCheck, s.session.faultCode, .standard, q.gen, .slow⟩ } := by
  obtain ⟨h1, h2, h3⟩ := hf
  obtain ⟨k, h⟩ := probing_passes h1 hq (rest := q.ifCond.fullBytes q.echo ++ rest)
    (by simpa [ProbeScript.bytes] using hc)
  obtain ⟨l, h'⟩ := voltageCheck_passes (q := q) (rest := rest) (s := { play q.power.bytes.length q.power.events s with
      cs := false, work := k, session := ⟨.probing, s.session.faultCode, .standard, s.session.cardGen, .slow⟩ })
    h2 h3 hq rfl (by simp [hc, ProbeScript.bytes])
  refine ⟨l, ?_⟩
  rw [h, thenPhase_pass, h']
  simp [play, ProbeScript.bytes, ProbeScript.events, Nat.add_assoc]

theorem hcsOf_gen (q : ProbeScript) : hcsOf q.gen = q.hcs := by
  unfold ProbeScript.gen ProbeScript.hcs
  cases illegal q.ifCond.status <;> rfl

/-- From Probing to the end of IdleWait: the card is ready, or the bound is reached (R232 to R240). -/
theorem idleWait_reached {q : ProbeScript} {is : List Iteration} {last : Iteration} (hf : q.fits s.params)
    (hi : iterationsFit s.params q.gen (is ++ [last])) (hr : ∀ i ∈ is, i.result ≠ .status 0x00#8)
    (hn : is.length < s.params.nIdleWait) (hl : last.result = .status 0x00#8 ∨ is.length + 1 = s.params.nIdleWait)
    (hq : s.env.arrivals = []) (hc : s.env.cardIn = q.bytes ++ (is ++ [last]).flatMap Iteration.bytes ++ rest) :
    ∃ k, thenPhase (thenPhase (probing s) voltageCheck) idleWait = .done
        (if last.result = .status 0x00#8 then .pass else .fault .idleWaitTimeout last.result)
        { play (q.bytes ++ (is ++ [last]).flatMap Iteration.bytes).length
            (q.events ++ (is ++ [last]).flatMap (Iteration.events q.hcs)) s with
          cs := false, work := k
          session := ⟨.idleWait, s.session.faultCode, .standard, genAfter q.gen (is ++ [last]), .slow⟩ } ∧
      (⟨k.idx.setWidth 8, last.result.code, k.arg, 0, 0⟩ : LogRecord) = last.record q.hcs := by
  obtain ⟨k, h⟩ := probe_passes hf hq (rest := (is ++ [last]).flatMap Iteration.bytes ++ rest) (by simpa using hc)
  obtain ⟨l, h', h2⟩ := idleWaitLoop_ends (hcs := q.hcs) (n := s.params.nIdleWait) (rest := rest) (is := is)
    (last := last) (s := { play q.bytes.length q.events s with
      cs := false, work := { k with iter := 0 }
      session := ⟨.idleWait, s.session.faultCode, .standard, q.gen, .slow⟩ })
    hq rfl (fun _ => hcsOf_gen q) hi hr hn hl (by simp [hc])
  refine ⟨l, ?_, h2⟩
  rw [h, thenPhase_pass, idleWait]
  refine h'.trans ?_
  simp [play, Nat.add_assoc]

/-- A ready iteration leaves the card generation. -/
theorem genAfter_ready {g : CardGen} {is : List Iteration} {last : Iteration} (h : last.result = .status 0x00#8) :
    genAfter g (is ++ [last]) = genAfter g is := by
  have : illegal 0x00#8 = false := by decide
  simp [genAfter, nextGen, h, Result.isIllegal, this]

/-! ### The request -/

/-- A negotiation that faults in Probing. -/
theorem negotiation_probing {u : State} {k : ErrKind} {r : Result} (h : probing s = .done (.fault k r) u) :
    negotiation s = .done (.fault k r) u := by
  simp [negotiation, h]

/-- One that faults in VoltageCheck. -/
theorem negotiation_voltageCheck {u v : State} {k : ErrKind} {r : Result} (h : probing s = .done .pass u)
    (h' : voltageCheck u = .done (.fault k r) v) : negotiation s = .done (.fault k r) v := by
  simp [negotiation, h, h']

/-- One that faults in IdleWait. -/
theorem negotiation_idleWait {u : State} {k : ErrKind} {r : Result}
    (h : thenPhase (thenPhase (probing s) voltageCheck) idleWait = .done (.fault k r) u) :
    negotiation s = .done (.fault k r) u := by
  simp [negotiation, h]

/-- One that passes IdleWait ends as CapacityCheck and Configuring do. -/
theorem negotiation_config {u : State} {w : Ran Verdict}
    (h : thenPhase (thenPhase (probing s) voltageCheck) idleWait = .done .pass u)
    (h' : thenPhase (capacityCheck u) configuring = w) : negotiation s = w := by
  rw [negotiation, h, thenPhase_pass, h']

/-- STARTUP whose negotiation passes (R245). -/
theorem startup_ready {u : State} (hl : s.sync.lock = none) (hs : s.session.state = .uninitialized)
    (hn : negotiation (acquire .startup s) = .done .pass u) (hq : u.env.arrivals = []) :
    exec .startup s = .next (respond u.sync.caller (resultReply 0) (release
      { play 0 [.setClock .fast] u with
        session := { u.session with state := .ready, clkMode := .fast }, work.result := 0 })) := by
  refine serveRequest_done (r := resultReply 0) (t := { play 0 [.setClock .fast] u with
    session := { u.session with state := .ready, clkMode := .fast } }) hl ?_ hq
  unfold startupBody
  rw [show (acquire .startup s).session.state = .uninitialized from hs]
  simp [hn, concludeStartup, setClock_quiet hq]

/-- STARTUP whose negotiation faults (R246). -/
theorem startup_faulted {u : State} {k : ErrKind} {r : Result} (hl : s.sync.lock = none)
    (hs : s.session.state = .uninitialized) (hn : negotiation (acquire .startup s) = .done (.fault k r) u)
    (hq : u.env.arrivals = []) :
    exec .startup s = .next (respond u.sync.caller (resultReply k.code) (release
      { takeFault k r u with work.result := k.code })) := by
  have ht := serveRequest_done (i := .startup) (body := startupBody) (r := resultReply k.code) (t := takeFault k r u) hl (by
    unfold startupBody
    rw [show (acquire .startup s).session.state = .uninitialized from hs]
    simp [hn, concludeStartup]) (by simpa using hq)
  rw [show (takeFault k r u).sync.caller = u.sync.caller by simp] at ht
  exact ht

end Sys2Proof.Machine
end

