-- ==== Sys2Proof/Machine/Assembly.lean ====
section
/-!
DEFINITION. The text forms of 30_encoding.md section 8: host requests one per line (R106), command frames (R107), and
the expansion of the three pseudo-forms (R107). Text is a list of characters. The step does not read it.
-/

namespace Sys2Proof.Machine

open Sys2Proof

/-- A hexadecimal digit's value. -/
def hexDigit (c : Char) : Option Nat :=
  if '0'.toNat ≤ c.toNat ∧ c.toNat ≤ '9'.toNat then some (c.toNat - '0'.toNat)
  else if 'a'.toNat ≤ c.toNat ∧ c.toNat ≤ 'f'.toNat then some (c.toNat - 'a'.toNat + 10)
  else if 'A'.toNat ≤ c.toNat ∧ c.toNat ≤ 'F'.toNat then some (c.toNat - 'A'.toNat + 10)
  else none

/-- A decimal digit's value. -/
def decDigit (c : Char) : Option Nat :=
  if '0'.toNat ≤ c.toNat ∧ c.toNat ≤ '9'.toNat then some (c.toNat - '0'.toNat) else none

/-- Digits in a base, most significant first, onto the value read so far. -/
def readDigits (base : Nat) (digit : Char → Option Nat) : List Char → Nat → Option Nat
  | [], acc => some acc
  | c :: rest, acc => (digit c).bind fun d => readDigits base digit rest (acc * base + d)

/-- A number in decimal or `0x` hexadecimal (R106). -/
def readNumber : List Char → Option Nat
  | [] => none
  | ['0', 'x'] => none
  | '0' :: 'x' :: rest => readDigits 16 hexDigit rest 0
  | cs => readDigits 10 decDigit cs 0

/-- A number that fits 32 bits. -/
def readWord (cs : List Char) : Option Word :=
  (readNumber cs).bind fun n => if n < 2 ^ 32 then some (BitVec.ofNat 32 n) else none

/-- A line without its comment (R106). -/
def withoutComment (cs : List Char) : List Char := cs.takeWhile (fun c => c != ';')

/-- The mnemonic, and the operands: what follows the first blank, cut at commas, blanks dropped. -/
def lineParts (cs : List Char) : List Char × List (List Char) :=
  let line := (withoutComment cs).dropWhile (fun c => c == ' ')
  let operands := (line.dropWhile (fun c => c != ' ')).filter (fun c => c != ' ')
  (line.takeWhile (fun c => c != ' '), if operands.isEmpty then [] else operands.splitOn ',')

/-- The nine mnemonics of R106 in the order of their request codes. -/
def mnemonics : List (List Char) :=
  ["initialize".toList, "startup".toList, "is_ready".toList, "read_sector".toList, "read_range".toList,
   "write_sector".toList, "write_range".toList, "dump_diagnostics".toList, "clear_diagnostics".toList]

/-- The request a line of text names (R106); none where the line is no request. -/
def assembleRequest (cs : List Char) : Option Request :=
  let op := mnemonics.idxOf (lineParts cs).1
  match (lineParts cs).2 with
  | [] => if op ∈ [0, 1, 2, 7, 8] then some ⟨BitVec.ofNat 4 op, 0, 0, 0⟩ else none
  | [b, s] =>
    if op ∈ [3, 5] then
      (readNumber b).bind fun b => (readWord s).bind fun s => some ⟨BitVec.ofNat 4 op, b, s, 0⟩
    else none
  | [b, s, n] =>
    if op ∈ [4, 6] then
      (readNumber b).bind fun b => (readWord s).bind fun s => (readWord n).bind fun n =>
        some ⟨BitVec.ofNat 4 op, b, s, n⟩
    else none
  | _ => none

/-- A hexadecimal digit as text. -/
def hexChar (d : BitVec 4) : Char :=
  "0123456789ABCDEF".toList.getD d.toNat '0'

/-- A byte as two hexadecimal digits. -/
def byteText (b : Byte) : List Char := [hexChar (b.extractLsb' 4 4), hexChar (b.extractLsb' 0 4)]

/-- A command frame as text with its bytes: `CMD17 0x00000600 => 51 00 00 06 00 21` (R107). -/
def frameText (idx : BitVec 6) (arg : Word) : List Char :=
  "CMD".toList ++ (toString idx.toNat).toList ++ " 0x".toList ++ (argBytes arg).flatMap byteText ++ " =>".toList ++
    (commandBytes idx arg).flatMap (fun b => ' ' :: byteText b)

/-- `ACMD41 a` as the two frames it stands for (R107, R103). -/
def expandAppCommand (arg : Word) : List (BitVec 6 × Word) := [(55, 0), (41, arg)]

/-- `read_range buf, s, n` as sector reads (R107); the range itself holds the lock throughout. -/
def expandReadRange (buf : Nat) (sector count : Word) : List Instr :=
  (List.range count.toNat).map fun i => .readSector (buf + 512 * i) (sector + BitVec.ofNat 32 i)

/-- `write_range buf, s, n` as sector writes (R107). -/
def expandWriteRange (buf : Nat) (sector count : Word) : List Instr :=
  (List.range count.toNat).map fun i => .writeSector (buf + 512 * i) (sector + BitVec.ofNat 32 i)

end Sys2Proof.Machine
end

