-- ==== Sys2Proof/Tests/Slice0.lean ====
section
/-!
SUPPORT. Tests of the model against 95_test_vectors.md and the rules (expected values are the spec's, written out), and
for every obligation with hypotheses a state and operands that meet them.
-/

namespace Sys2Proof.Tests

set_option maxRecDepth 10000
set_option Elab.async false

open Sys2Proof Sys2Proof.Machine

/-! ### Helpers -/

/-- The answers of one transaction: idle at once, clean echoes, these response bytes, the trailing byte. -/
def txn (r : List Byte) : List Byte := List.replicate 7 0xFF#8 ++ r ++ [0xFF#8]

/-- Power-up answers. -/
def pu : List Byte := List.replicate 10 0xFF#8

/-- A freshly reset block and a card with these answers. -/
def fresh (card : List Byte) : State := { State.reset with env.cardIn := card }

/-- A block in Ready with this capacity class. -/
def readyWith (c : CapClass) (card : List Byte) : State :=
  { fresh card with session := ⟨.ready, 0, c, .sdv2, .fast⟩ }

/-- A block in Ready whose buffer 0x200 to 0x3FF holds 512 bytes 0xA5. -/
def readyA5 (card : List Byte) : State :=
  { readyWith .standard card with mem := (List.range 512).map fun j => (0x200 + j, 0xA5#8) }

/-- The state an instruction ends in. -/
def ends (i : Instr) (s : State) : State :=
  match exec i s with
  | .next t => t
  | .fault _ => s
  | .refused _ => s

/-- The result of the last response delivered. -/
def lastResult (t : State) : Option Code := t.responses.head?.map fun r => r.reply.result

/-- The machine takes a step. -/
def moves (o : Host.Outcome State Fault Refusal) : Bool :=
  match o with
  | .next _ => true
  | .fault _ => false
  | .refused _ => false

/-! ### WellFormed: a term each check refuses -/

theorem test_ok_testValues : Params.testValues.ok = true := by decide
theorem test_ok_powerup : ({ Params.testValues with nPowerup := 9 }).ok = false := by decide
theorem test_ok_resetAttempts : ({ Params.testValues with nResetAttempts := 0 }).ok = false := by decide
theorem test_ok_idleWait : ({ Params.testValues with nIdleWait := 0 }).ok = false := by decide
theorem test_ok_readyPoll : ({ Params.testValues with nReadyPoll := 0 }).ok = false := by decide
theorem test_ok_respPoll : ({ Params.testValues with nRespPoll := 0 }).ok = false := by decide
theorem test_ok_tokenPoll : ({ Params.testValues with nTokenPoll := 0 }).ok = false := by decide
theorem test_ok_busyPoll : ({ Params.testValues with nBusyPoll := 0 }).ok = false := by decide
theorem test_ok_writeBudget : ({ Params.testValues with writeBudget := 0 }).ok = false := by decide
theorem test_ok_logCap : ({ Params.testValues with logCap := 0 }).ok = false := by decide
theorem test_ok_logCap_unused : ({ Params.testValues with logEnabled := false, logCap := 0 }).ok = true := by decide
theorem test_ok_slow : ({ Params.testValues with fSlow := 400001 }).ok = false := by decide
theorem test_ok_fast : ({ Params.testValues with fFast := 0 }).ok = false := by decide
theorem test_ok_bufAddrW : ({ Params.testValues with bufAddrW := 9 }).ok = false := by decide
theorem test_wf_base : (Instr.readRange 1024 0 0).wellFormed 10 = false := by decide
theorem test_wf_end : (Instr.readSector 513 0).wellFormed 10 = false := by decide
theorem test_wf_cmd17 : (Instr.cmd17 0 513).wellFormed 10 = false := by decide
theorem test_wf_cmd18 : (Instr.cmd18 0 513).wellFormed 10 = false := by decide
theorem test_wf_cmd24 : (Instr.cmd24 0 513).wellFormed 10 = false := by decide
theorem test_wf_write : (Instr.writeSector 513 0).wellFormed 10 = false := by decide
theorem test_wf_range : (Instr.readRange 0 0 3).wellFormed 10 = false := by decide
theorem test_wf_writeRange : (Instr.writeRange 0 0 3).wellFormed 10 = false := by decide
theorem test_wf_last : (Instr.readRange 0 0 2).wellFormed 10 = true := by decide

/-! ### Decoding (30_encoding.md R90, R92, R100; frames F1 to F13 of the vectors) -/

theorem test_decode_cmd0 : decode (.frame [0x40, 0, 0, 0, 0, 0x95] 0) = .ok .cmd0 := by rfl
theorem test_decode_cmd1 : decode (.frame [0x41, 0, 0, 0, 0, 0xF9] 0) = .ok .cmd1 := by rfl
theorem test_decode_cmd8 : decode (.frame [0x48, 0, 0, 1, 0xAA, 0x87] 0) = .ok .cmd8 := by rfl
theorem test_decode_cmd16 : decode (.frame [0x50, 0, 0, 2, 0, 0x15] 0) = .ok .cmd16 := by rfl
theorem test_decode_cmd17 : decode (.frame [0x51, 0xFF, 0xFF, 0xFE, 0, 0x9B] 9) = .ok (.cmd17 0xFFFFFE00 9) := by rfl
theorem test_decode_cmd18 : decode (.frame [0x52, 0, 0, 0, 0, 0xE1] 9) = .ok (.cmd18 0 9) := by rfl
theorem test_decode_cmd24 : decode (.frame [0x58, 0x12, 0x34, 0x56, 0x78, 0x67] 9) = .ok (.cmd24 0x12345678 9) := by
  rfl
theorem test_decode_cmd55 : decode (.frame [0x77, 0, 0, 0, 0, 0x65] 0) = .ok .cmd55 := by rfl
theorem test_decode_acmd41_1 : decode (.frame [0x69, 0x40, 0, 0, 0, 0x77] 0) = .ok .acmd41Hcs1 := by rfl
theorem test_decode_acmd41_0 : decode (.frame [0x69, 0, 0, 0, 0, 0xE5] 0) = .ok .acmd41Hcs0 := by rfl
theorem test_decode_cmd58 : decode (.frame [0x7A, 0, 0, 0, 0, 0xFD] 0) = .ok .cmd58 := by rfl
theorem test_decode_cmd59 : decode (.frame [0x7B, 0, 0, 0, 1, 0x83] 0) = .ok .cmd59 := by rfl
theorem test_decode_initialize : decode (.request ⟨0b0000, 1, 2, 3⟩) = .ok .initSession := by rfl
theorem test_decode_startup : decode (.request ⟨0b0001, 1, 2, 3⟩) = .ok .startup := by rfl
theorem test_decode_isReady : decode (.request ⟨0b0010, 1, 2, 3⟩) = .ok .isReady := by rfl
theorem test_decode_readSector : decode (.request ⟨0b0011, 1, 2, 3⟩) = .ok (.readSector 1 2) := by rfl
theorem test_decode_readRange : decode (.request ⟨0b0100, 1, 2, 3⟩) = .ok (.readRange 1 2 3) := by rfl
theorem test_decode_writeSector : decode (.request ⟨0b0101, 1, 2, 3⟩) = .ok (.writeSector 1 2) := by rfl
theorem test_decode_writeRange : decode (.request ⟨0b0110, 1, 2, 3⟩) = .ok (.writeRange 1 2 3) := by rfl
theorem test_decode_dump : decode (.request ⟨0b0111, 1, 2, 3⟩) = .ok .dumpDiagnostics := by rfl
theorem test_decode_clear : decode (.request ⟨0b1000, 1, 2, 3⟩) = .ok .clearDiagnostics := by rfl
theorem test_decode_reserved9 : decode (.request ⟨0b1001, 1, 2, 3⟩) = .ok .reserved9 := by rfl
theorem test_decode_reservedA : decode (.request ⟨0b1010, 1, 2, 3⟩) = .ok .reservedA := by rfl
theorem test_decode_reservedB : decode (.request ⟨0b1011, 1, 2, 3⟩) = .ok .reservedB := by rfl
theorem test_decode_reservedC : decode (.request ⟨0b1100, 1, 2, 3⟩) = .ok .reservedC := by rfl
theorem test_decode_reservedD : decode (.request ⟨0b1101, 1, 2, 3⟩) = .ok .reservedD := by rfl
theorem test_decode_reservedE : decode (.request ⟨0b1110, 1, 2, 3⟩) = .ok .reservedE := by rfl
theorem test_decode_reservedF : decode (.request ⟨0b1111, 1, 2, 3⟩) = .ok .reservedF := by rfl
theorem test_decode_short : decode (.frame [0x40, 0, 0, 0, 0] 0) = .error .badLength := by rfl
theorem test_encode_f8d : encode (.cmd24 0x12345678 9) = .frame [0x58, 0x12, 0x34, 0x56, 0x78, 0x67] 9 := by decide
theorem test_encode_f18 : commandBytes 63 0xFFFFFFFF = [0x7F, 0xFF, 0xFF, 0xFF, 0xFF, 0x19] := by decide
theorem test_table_cmd8 : decodeTableWord 48 0x48000001AA87 = some .cmd8 := by rfl
theorem test_table_readRange : decodeTableWord 8 4 = some (.readRange 0 0 0) := by rfl

/-! ### Text (R106, R107) -/

theorem test_text_range :
    assembleRequest "read_range 0x1000, 5, 3 ; c".toList = some ⟨4, 0x1000, 5, 3⟩ := by decide +kernel
theorem test_text_no_operand : assembleRequest "read_sector 0".toList = none := by decide +kernel
theorem test_text_frame : frameText 17 0x600 = "CMD17 0x00000600 => 51 00 00 06 00 21".toList := by decide +kernel

/-! ### Checksums and decodes (vectors C2, C6, D1, D4, D5, D7; R1-8; P-4, P-9; K2, K4, K6, K9, K10) -/

theorem test_crc7_c2 : crc7 [0x31, 0x32, 0x33, 0x34, 0x35, 0x36, 0x37, 0x38, 0x39] = 0x75 := by decide
theorem test_crc7_c6 : crc7 [0x7F, 0xFF, 0xFF, 0xFF, 0xFF] = 0x0C := by decide
theorem test_crc16_d1 : crc16 [0x31, 0x32, 0x33, 0x34, 0x35, 0x36, 0x37, 0x38, 0x39] = 0x31C3 := by decide
theorem test_crc16_d4 : crc16 ((List.range 512).map (BitVec.ofNat 8)) = 0x40DA := by decide +kernel
theorem test_crc16_d5 : crc16 (List.replicate 512 0xA5) = 0x42BE := by decide +kernel
theorem test_crc16_d7 : crc16 (List.replicate 511 0 ++ [1]) = 0x1021 := by decide +kernel
theorem test_r1_all : decodeR1 0x7F = ⟨true, true, true, true, true, true, true, false⟩ := by decide
theorem test_r1_start : isReadyStatus 0x80 = false ∧ isIdleStatus 0x80 = false ∧ illegal 0x80 = false := by decide
theorem test_echo : echoMatches 0x200001AA = true ∧ echoMatches 0x2AA = false := by decide
theorem test_ocr : voltageOk 0x4000 = false ∧ voltageOk 0x40008000 = true ∧ capacityBit 0x40008000 = true := by decide
theorem test_token_write : writeTokenResult 0xE5 = none ∧ writeTokenResult 0xEB = some .checksumFailed ∧
    writeTokenResult 0xFF = some .generic := by decide
theorem test_token_read : decodeToken 0xFF = .again ∧ decodeToken 0x08 = .failed ∧ decodeToken 0xFE = .data := by decide
theorem test_translate : translateSector .standard 0x00800000 = 0 ∧ translateSector .standard 0x007FFFFF = 0xFFFFFE00 ∧
    translateSector .high 3 = 3 := by decide

/-! ### Frame rows (vectors B1 to B11) -/

theorem test_cmd0 : (ends .cmd0 (fresh (txn [1]))).work.result = 1 ∧ (ends .cmd0 (fresh (txn [1]))).env.drawn = 9 := by
  decide +kernel
theorem test_cmd1_wait :
    (ends .cmd1 (fresh ([0, 0] ++ txn [0]))).env.drawn = 11 ∧ (ends .cmd1 (fresh ([0, 0] ++ txn [0]))).work.result = 0 := by
  decide +kernel
theorem test_cmd8_payload : (ends .cmd8 (fresh (txn [1, 0, 0, 1, 0xAA]))).work.payload = 0x1AA ∧
    (ends .cmd8 (fresh (txn [1, 0, 0, 1, 0xAA]))).env.drawn = 13 := by decide +kernel
theorem test_cmd8_illegal : (ends .cmd8 (fresh (txn [5]))).env.drawn = 9 ∧
    (ends .cmd8 (fresh (txn [5]))).work.result = 5 := by decide +kernel
theorem test_cmd16_busy : (ends .cmd16 (fresh [0, 0, 0, 0, 0xFF])).work.result = -8 ∧
    (ends .cmd16 (fresh [0, 0, 0, 0, 0xFF])).env.drawn = 5 := by decide +kernel
theorem test_cmd55_echo : (ends .cmd55 (fresh [0xFF, 0xFF, 0xFF, 0, 0xFF, 0xFF, 0xFF, 0xFF])).work.result = -1 ∧
    (ends .cmd55 (fresh [0xFF, 0xFF, 0xFF, 0, 0xFF, 0xFF, 0xFF, 0xFF])).env.drawn = 8 := by decide +kernel
theorem test_cmd58_ocr : (ends .cmd58 (fresh (txn [0, 0xC0, 0xFF, 0x80, 0]))).work.payload = 0xC0FF8000 := by
  decide +kernel
theorem test_cmd59_timeout : (ends .cmd59 (fresh (List.replicate 16 0xFF))).work.result = -8 ∧
    (ends .cmd59 (fresh (List.replicate 16 0xFF))).env.drawn = 16 := by decide +kernel
theorem test_cmd59_bytes : (ends .cmd59 (fresh (txn [0]))).trace.reverse.filterMap
      (fun e => match e with
        | .xfer o _ => some o
        | _ => none) = [0xFF, 0x7B, 0, 0, 0, 1, 0x83, 0xFF, 0xFF] := by decide +kernel
theorem test_acmd41_pair : (ends .acmd41Hcs1 (fresh (txn [1] ++ txn [0]))).env.drawn = 18 ∧
    (ends .acmd41Hcs1 (fresh (txn [1] ++ txn [0]))).work.arg = 0x40000000 := by decide +kernel
theorem test_acmd41_skip : (ends .acmd41Hcs0 (fresh (txn [5]))).env.drawn = 9 ∧
    (ends .acmd41Hcs0 (fresh (txn [5]))).work.idx = 55 := by decide +kernel
theorem test_cmd17_token : (ends (.cmd17 7 0x100) (readyWith .high (txn [0, 0xFF, 8]))).work.result = -8 ∧
    (ends (.cmd17 7 0x100) (readyWith .high (txn [0, 0xFF, 8]))).env.drawn = 11 := by decide +kernel
theorem test_cmd18_status : (ends (.cmd18 7 0x100) (readyWith .high (txn [0x20]))).work.result = 0x20 := by
  decide +kernel
theorem test_cmd24_status : (ends (.cmd24 7 0x100) (readyWith .high (txn [8]))).work.result = 8 := by decide +kernel

/-! ### Requests (vectors S1, S6, RD1, RD2, RD9, G1's second sector, W1, W10, G3's second sector, G5, H1, H3, H4,
H5, H7, H8, H10) -/

/-- The SDHC card of section 2.9. -/
def sdhc : List Byte :=
  pu ++ txn [1] ++ txn [1, 0, 0, 1, 0xAA] ++ txn [1] ++ txn [1] ++ txn [1] ++ txn [0] ++
    txn [0, 0xC0, 0xFF, 0x80, 0] ++ txn [0] ++ txn [0]

theorem test_startup_s1 : (ends .startup (fresh sdhc)).session = ⟨.ready, 0, .high, .sdv2, .fast⟩ ∧
    (ends .startup (fresh sdhc)).env.drawn = 99 ∧ lastResult (ends .startup (fresh sdhc)) = some 0 := by decide +kernel
theorem test_startup_s6 :
    (ends .startup (fresh (pu ++ txn [5] ++ txn [5] ++ txn [5] ++ txn [5]))).log.records = [⟨0, 5, 0, 0, 0⟩] ∧
    lastResult (ends .startup (fresh (pu ++ txn [5] ++ txn [5] ++ txn [5] ++ txn [5]))) = some (-3) := by decide +kernel

/-- The answers of a block read. -/
def block (d : List Byte) (hi lo : Byte) : List Byte := txn ([0, 0xFE] ++ d ++ [hi, lo])

/-- Byte j is j mod 256 (D4). -/
def d4 : List Byte := (List.range 512).map (BitVec.ofNat 8)

theorem test_readSector_rd1 : (let t := ends (.readSector 0x1000 3) (readyWith .high (block d4 0x40 0xDA))
    lastResult t = some 0 ∧ t.env.drawn = 524) := by decide +kernel
theorem test_readSector_rd2 :
    (let t := ends (.readSector 0x100 7) (readyWith .high (txn (0 :: List.replicate 16 0xFF)))
    lastResult t = some (-8) ∧ t.env.drawn = 25 ∧ t.log.records = [⟨17, -8, 7, 0, 0⟩]) := by decide +kernel
theorem test_readRange_rd9 : lastResult (ends (.readRange 0 0 0) (fresh [])) = some (-7) := by decide +kernel
theorem test_readRange_stop :
    (let t := ends (.readRange 0x3000 101 3) (readyWith .high (txn [0x20]))
    lastResult t = some 32 ∧ t.log.records = [⟨17, 32, 101, 0, 0⟩] ∧ t.work.arg = 101 ∧ t.env.drawn = 9) := by
  decide +kernel

/-- The answers of a block write: token, busy bytes. -/
def written (token : Byte) (busy : List Byte) : List Byte :=
  txn ([0] ++ List.replicate 516 0x33 ++ [token] ++ busy ++ [0xFF])

theorem test_writeSector_w1 : (let t := ends (.writeSector 0x200 10) (readyA5 (written 5 [0]))
    lastResult t = some 0) := by decide +kernel
theorem test_writeSector_w10 : (let t := ends (.writeSector 0x200 10) (readyA5 (txn [8]))
    lastResult t = some 8 ∧ t.env.drawn = 9 ∧ t.log.records = [⟨24, 8, 10, 0, 0⟩]) := by decide +kernel
theorem test_writeRange_stop : (let t := ends (.writeRange 0x400 8 2) (readyWith .high (txn [0x40]))
    lastResult t = some 64 ∧ t.log.records = [⟨24, 64, 8, 0, 0⟩] ∧ t.env.drawn = 9) := by decide +kernel
theorem test_writeRange_g5 :
    (let t := ends (.writeRange 0x400 5 0) (readyWith .high [])
    lastResult t = some 0 ∧ t.env.drawn = 0) := by decide +kernel
theorem test_initialize_h1 :
    (let t := ends .initSession
      { fresh [] with session := ⟨.faulted, -4, .high, .sdv2, .slow⟩, log := ⟨[⟨41, 1, 0x40000000, 0, 0⟩], 0⟩, trace := [] }
    t.session = ⟨.uninitialized, 0, .standard, .sdv2, .slow⟩ ∧ t.trace = [.deassertCS, .setClock .slow] ∧
      t.log.records.length = 1) := by decide +kernel
theorem test_isReady_h3 : (ends .isReady (readyWith .high [])).responses = [⟨0, ⟨0, true, [], 0⟩⟩] := by decide +kernel
theorem test_isReady_h4 : (ends .isReady State.reset).responses = [⟨0, ⟨0, false, [], 0⟩⟩] := by decide +kernel
theorem test_dump_h5 :
    (let t := ends .dumpDiagnostics { fresh [] with log := ⟨[⟨17, 64, 1, 0, 0⟩, ⟨17, 64, 2, 0, 0⟩], 0⟩ }
    t.responses = [⟨0, ⟨0, false, [⟨17, 64, 1, 0, 0⟩, ⟨17, 64, 2, 0, 0⟩], 0⟩⟩] ∧ t.log = ⟨[], 0⟩) := by decide +kernel
theorem test_clear_h7 :
    (let t := ends .clearDiagnostics { fresh [] with log := ⟨[⟨17, 64, 1, 0, 0⟩], 3⟩ }
    t.responses = [⟨0, ⟨0, false, [], 0⟩⟩] ∧ t.log = ⟨[], 0⟩) := by decide +kernel
theorem test_reserved_h8 : (ends .reservedC State.reset).responses = [⟨0, ⟨-8, false, [], 0⟩⟩] := by decide +kernel
theorem test_log_saturates :
    (logAppend ⟨17, 64, 5, 0, 0⟩
      { fresh [] with log := ⟨List.replicate 4 ⟨17, 64, 1, 0, 0⟩, 0xFFFFFFFF⟩ }).log.drops = 0xFFFFFFFF := by
  decide +kernel

/-! ### The step -/

theorem test_step_frame : moves (step (State.reset.withFetchWord 48 0x400000000095)) = true := by decide +kernel
theorem test_step_request : moves (step (State.reset.withFetchWord 8 8)) = true := by decide +kernel
theorem test_step_reads_range : moves (step (State.reset.withFetchWord 8 4)) = true := by decide +kernel
theorem test_step_idle : step State.reset = .next State.reset := by rfl
/-- R147, U15: a presented CMD18 is not issued. -/
theorem test_step_cmd18 : step (State.reset.withFetchWord 48 0x5200000000E1) = .refused .neverIssued := by rfl
/-- R301: agent 0 has a request waiting, so that a second one of it does not arrive; one of agent 1 does. -/
theorem test_second_request : (let s := State.reset.withItem (encode .startup)
    receive ⟨0, encode .isReady⟩ s = s ∧ receive ⟨0, encode .startup⟩ s = s ∧
    (receive ⟨1, encode .startup⟩ s).sync.requests.length = 2 ∧
    (receive ⟨1, encode .isReady⟩ s).responses.length = 1) := by decide +kernel
/-- R301: agent 7 owns the lock. -/
theorem test_owner_request : (let s := { fresh [] with sync := ⟨some 7, some .startup, [], 7⟩ }
    receive ⟨7, encode .startup⟩ s = s ∧ (receive ⟨8, encode .startup⟩ s).sync.requests.length = 1) := by
  decide +kernel

/-! ### Witnesses: states and operands that meet the hypotheses of each obligation together -/

/-- A transaction answered at once with this status. -/
def quick (status : Byte) : CmdScript := ⟨[], 0, status, 0xFF⟩

/-- One that uses the idle poll and the response poll to their last byte. -/
def slow (status : Byte) : CmdScript := ⟨[0, 1, 2], 7, status, 0⟩

/-- A block of one byte repeated, with this CRC, its token at the last poll. -/
def readOf (b : Byte) (crc : Half) : ReadScript := ⟨quick 0, 15, List.replicate 512 b, crc⟩

/-- A block write answered with this token and the longest busy period. -/
def writeOf (token : Byte) : WriteScript := ⟨quick 0, List.replicate 516 0x33, token, List.replicate 15 0, true⟩

/-- One after which the card never lets the bus go. -/
def busyOf (token : Byte) : WriteScript := ⟨quick 0, List.replicate 516 0x33, token, List.replicate 16 0, false⟩

/-- A transaction refused in each of the four ways. -/
def refusals : List Exchange :=
  [.answered (slow 0x60), .neverIdle [0, 0, 0, 0xFE] 9, .badEcho [0, 0, 0] [0xFF, 0xFF, 0xFF, 0xFF, 0xFF, 0] 9,
    .silent [0] 8 9]

theorem refusals_fit : ∀ x ∈ refusals, x.fits Params.testValues ∧ x.result ≠ .status 0x00#8 := by
  simp only [refusals, List.forall_mem_cons, List.not_mem_nil, false_imp_iff, implies_true, and_true,
    Exchange.fits, Exchange.result]
  decide +kernel

/-- A block in service with a waiting reset. -/
def resetDue (n : Nat) : State := { State.reset with env.arrivals := [(n, .reset)] }

theorem reset_admits (card : List Byte) (c : CapClass) : ∀ j < 2 ^ 32, admits (readyWith c card) j = true := by
  intro j hj
  simp [admits, readyWith, fresh, State.reset, Params.testValues, show j < 4294967296 from hj]

theorem readyA5_admits (card : List Byte) : ∀ j < 2 ^ 32, admits (readyA5 card) j = true := by
  intro j hj
  simp [admits, readyA5, readyWith, fresh, State.reset, Params.testValues, show j < 4294967296 from hj]

theorem reset_admitsBlock (card : List Byte) (c : CapClass) : admitsBlock (readyWith c card) 0x200 :=
  fun j hj => reset_admits card c _ (by simp only [sectorSize] at hj; omega)

theorem witness_ResetInMidRequestGivesNoResponse :
    ∃ (i : Instr) (s t : State) (n : Nat), s.env.arrivals = [(n, .reset)] ∧ exec i s = .next t ∧ t.env.arrivals = [] :=
  ⟨.startup, resetDue 3, ends .startup (resetDue 3), 3, rfl, rfl, by decide +kernel⟩

theorem witness_ChecksumsAreLinearWithTheirCheckValues : ∃ a b : List Byte, a.length = b.length ∧ a ≠ b :=
  ⟨[1, 2], [3, 4], by decide⟩

theorem witness_EncodeOfDecodeIsIdentity_frame :
    ∃ (p : PortItem) (i : Instr), p.canonical = true ∧ decode p = .ok i :=
  ⟨.frame [0x58, 0x12, 0x34, 0x56, 0x78, 0x67] 9, .cmd24 0x12345678 9, by decide +kernel, rfl⟩

theorem witness_EncodeOfDecodeIsIdentity_request :
    ∃ (p : PortItem) (i : Instr), p.canonical = true ∧ decode p = .ok i :=
  ⟨.request ⟨3, 1, 2, 0⟩, .readSector 1 2, by decide, rfl⟩

theorem witness_TranslateGivesOffsetOrIndex : ∃ a b : Word, a.toNat < 2 ^ 23 ∧ b.toNat < 2 ^ 23 ∧
    translateSector .standard a = translateSector .standard b :=
  ⟨0x7FFFFF, 0x7FFFFF, by decide, by decide, rfl⟩

theorem witness_StepRunsTheDecodedInstruction : ∃ (s s' : State) (p : Presented) (i : Instr),
    s.params.ok = true ∧ nextChoice s = .serve p s' ∧ decode p.item = .ok i :=
  ⟨State.reset.withItem (encode .clearDiagnostics), _, ⟨0, encode .clearDiagnostics⟩, .clearDiagnostics,
    by decide, rfl, rfl⟩

theorem witness_SinglePresentedItemIsServed : ∃ (s : State) (p : Presented) (i : Instr), s.params.ok = true ∧
    undisturbed s ∧ s.sync.requests = [p] ∧ s.env.order = [] ∧ decode p.item = .ok i :=
  ⟨{ State.reset with sync.requests := [⟨4, encode .cmd0⟩] }, ⟨4, encode .cmd0⟩, .cmd0, by decide, by decide, rfl, rfl,
    rfl⟩

theorem witness_EveryWaitingItemCanBeNext : ∃ (s : State) (p : Presented), s.sync.lock = none ∧ p ∈ s.sync.requests :=
  ⟨{ State.reset with sync.requests := [⟨4, encode .cmd0⟩, ⟨5, encode .cmd1⟩] }, ⟨5, encode .cmd1⟩, rfl, by decide⟩

theorem witness_HeldLockMakesARequestWait : ∃ (i : Instr) (s : State) (owner : Nat), takesLock i = true ∧
    i.wellFormed s.params.bufAddrW = true ∧ s.sync.lock = some owner :=
  ⟨.readSector 0 0, acquire .startup State.reset, 0, by decide, by decide, rfl⟩

theorem witness_ReservedCodesGiveGeneric :
    ∃ i, i ∈ [Instr.reserved9, .reservedA, .reservedB, .reservedC, .reservedD, .reservedE, .reservedF] :=
  ⟨.reservedF, by decide⟩

theorem witness_undisturbed : undisturbed State.reset := by decide

theorem witness_ClearDiscardsTheLog_withoutLog : ∃ s : State, undisturbed s ∧ s.params.logEnabled = false ∧
    logInv s.params s.log :=
  ⟨{ State.reset with params.logEnabled := false }, by decide, rfl, by simp [logInv, State.reset]⟩

theorem witness_FullLogKeepsTheEarliestRecords :
    State.reset.params.logEnabled = true ∧ State.reset.log = ⟨[], 0⟩ ∧
    ({ State.reset with params.logEnabled := false }).params.logEnabled = false := by decide

theorem witness_OneByteCommandsReturnTheirStatus : ∃ (i : Instr) (idx : BitVec 6) (arg : Word),
    (i, idx, arg) ∈ r1Commands ∧ ∃ (s : State) (c : CmdScript) (rest : List Byte), undisturbed s ∧ c.fits s.params ∧
      s.env.cardIn = c.bytes ++ rest :=
  ⟨.cmd16, 16, cmd16Argument, by decide, fresh ((slow 0x80).bytes ++ []), slow 0x80, [], by decide, by decide +kernel,
    rfl⟩

theorem witness_PayloadCommandsReceiveFourBytes : ∃ (i : Instr) (idx : BitVec 6) (arg : Word),
    (i, idx, arg) ∈ payloadCommands ∧ ∃ (s : State) (c : CmdScript) (b3 b2 b1 b0 : Byte) (rest : List Byte),
      undisturbed s ∧ c.fits s.params ∧ illegal c.status = false ∧
      s.env.cardIn = c.opening ++ [b3, b2, b1, b0] ++ [c.trail] ++ rest :=
  ⟨.cmd58, 58, 0, by decide, fresh ((slow 0).opening ++ [0xC0, 0xFF, 0x80, 0] ++ [(slow 0).trail] ++ [7]), slow 0,
    0xC0, 0xFF, 0x80, 0, [7], by decide, by decide +kernel, by decide, rfl⟩

theorem witness_IllegalStatusSkipsThePayload : ∃ (i : Instr) (idx : BitVec 6) (arg : Word),
    (i, idx, arg) ∈ payloadCommands ∧ ∃ (s : State) (c : CmdScript) (rest : List Byte), undisturbed s ∧
      c.fits s.params ∧ illegal c.status = true ∧ s.env.cardIn = c.bytes ++ rest :=
  ⟨.cmd8, 8, cmd8Argument, by decide, fresh ((quick 5).bytes ++ []), quick 5, [], by decide, by decide +kernel,
    by decide, rfl⟩

theorem witness_BusNeverIdleSendsNoFrame : ∃ (addr : Word) (buf : Nat) (i : Instr) (idx : BitVec 6) (arg : Word),
    (i, idx, arg) ∈ frameCommands addr buf ∧ ∃ (s : State) (w : List Byte) (z : Byte) (rest : List Byte),
      undisturbed s ∧ i.wellFormed s.params.bufAddrW = true ∧ (∀ b ∈ w, b ≠ idleByte) ∧
      w.length = s.params.nReadyPoll ∧ s.env.cardIn = w ++ z :: rest :=
  ⟨5, 0x200, .cmd24 5 0x200, 24, 5, by decide, fresh [0, 0, 0, 0xFE, 9], [0, 0, 0, 0xFE], 9, [], by decide, by decide,
    by decide, by decide, rfl⟩

theorem witness_EchoMismatchInterruptsAfterSixBytes : ∃ (addr : Word) (buf : Nat) (i : Instr) (idx : BitVec 6)
    (arg : Word), (i, idx, arg) ∈ frameCommands addr buf ∧ ∃ (s : State) (w e : List Byte) (z : Byte)
      (rest : List Byte), undisturbed s ∧ i.wellFormed s.params.bufAddrW = true ∧ (∀ b ∈ w, b ≠ idleByte) ∧
      w.length < s.params.nReadyPoll ∧ e.length = 6 ∧ (∃ b ∈ e, b ≠ idleByte) ∧
      s.env.cardIn = w ++ [idleByte] ++ e ++ z :: rest :=
  ⟨0, 0, .acmd41Hcs1, 55, 0, by decide, fresh ([0, 0, 0] ++ [idleByte] ++ [0xFF, 0xFF, 0xFF, 0xFF, 0xFF, 0] ++ 9 :: []),
    [0, 0, 0], [0xFF, 0xFF, 0xFF, 0xFF, 0xFF, 0], 9, [], by decide, by decide, by decide, by decide, rfl, by decide, rfl⟩

theorem witness_NoResponseGivesGeneric : ∃ (addr : Word) (buf : Nat) (i : Instr) (idx : BitVec 6) (arg : Word),
    (i, idx, arg) ∈ frameCommands addr buf ∧ ∃ (s : State) (w : List Byte) (z : Byte) (rest : List Byte),
      undisturbed s ∧ i.wellFormed s.params.bufAddrW = true ∧ (∀ b ∈ w, b ≠ idleByte) ∧
      w.length < s.params.nReadyPoll ∧
      s.env.cardIn = w ++ List.replicate (7 + s.params.nRespPoll) idleByte ++ z :: rest :=
  ⟨5, 0x200, .cmd17 5 0x200, 17, 5, by decide, fresh ([0] ++ List.replicate (7 + 8) idleByte ++ 9 :: []), [0], 9, [],
    by decide, by decide, by decide, by decide, rfl⟩

theorem witness_AppCommandSendsTwoFrames : ∃ (i : Instr) (hcs : Bool),
    (i, hcs) ∈ [(Instr.acmd41Hcs1, true), (Instr.acmd41Hcs0, false)] ∧ ∀ x ∈ refusals, ∃ (s : State) (c : CmdScript)
      (rest : List Byte), undisturbed s ∧ c.fits s.params ∧ illegal c.status = false ∧ x.fits s.params ∧
        s.env.cardIn = c.bytes ++ x.bytes ++ rest :=
  ⟨.acmd41Hcs0, false, by decide, fun x hx => ⟨fresh ((slow 1).bytes ++ x.bytes ++ []), slow 1, [], ⟨rfl, rfl⟩,
    show (slow 1).fits Params.testValues by decide +kernel, rfl, (refusals_fit x hx).1, rfl⟩⟩

theorem witness_IllegalAnnouncementEndsTheAppCommand : ∃ i, i ∈ [Instr.acmd41Hcs1, Instr.acmd41Hcs0] ∧
    ∃ (s : State) (c : CmdScript) (rest : List Byte), undisturbed s ∧ c.fits s.params ∧ illegal c.status = true ∧
      s.env.cardIn = c.bytes ++ rest :=
  ⟨.acmd41Hcs1, by decide, fresh ((quick 5).bytes ++ []), quick 5, [], by decide, by decide +kernel, by decide, rfl⟩

theorem witness_SectorRequestsNeedReady : ∃ (i : Instr) (s : State), isSectorRequest i = true ∧
    i.wellFormed s.params.bufAddrW = true ∧ undisturbed s ∧ s.session.state ≠ .ready :=
  ⟨.writeRange 0 0 0, State.reset, by decide, by decide, by decide, by decide⟩

theorem witness_RangeBeyondTheBufferSpaceIsRefused : ∃ (s : State) (buf : Nat) (count : Word),
    2 ^ s.params.bufAddrW < buf + 512 ∧ 2 ^ s.params.bufAddrW < buf + 512 * count.toNat :=
  ⟨State.reset, 2 ^ 32 - 511, 1, by decide, by decide⟩

/-- Byte 0x203 is not admitted. -/
def holed (card : List Byte) : State := { readyWith .high card with noAccess := [⟨0x203, 1⟩] }

/-- Byte 0x403, the fourth of the second block from 0x200, is not admitted. -/
def holedLater (card : List Byte) : State := { readyWith .high card with noAccess := [⟨0x403, 1⟩] }

theorem holed_admits (card : List Byte) (n : Nat) (hn : n ≤ 0x203) :
    ∀ a < n, admits (holed card) a = true := by
  intro a ha
  have h : a < 2 ^ 32 := by omega
  have h' : ¬ 0x203 ≤ a := by omega
  exact Bool.and_eq_true _ _ |>.mpr ⟨decide_eq_true h, by simp [holed, h']⟩

theorem holedLater_admits (card : List Byte) (n : Nat) (hn : n ≤ 0x403) :
    ∀ a < n, admits (holedLater card) a = true := by
  intro a ha
  have h : a < 2 ^ 32 := by omega
  have h' : ¬ 0x403 ≤ a := by omega
  exact Bool.and_eq_true _ _ |>.mpr ⟨decide_eq_true h, by simp [holedLater, h']⟩

theorem witness_UnadmittedBufferLeavesTheRequestStuck_read : ∃ (s : State) (i : Instr) (buf j : Nat)
    (sector count : Word) (rest : List Byte) (rs : List ReadAttempt) (r : ReadScript), undisturbed s ∧
      i.wellFormed s.params.bufAddrW = true ∧ memWf s.mem = true ∧ j < sectorSize ∧ s.session.state = .ready ∧
      (i = .readSector buf sector ∧ rs = [] ∨ i = .readRange buf sector count ∧ rs.length < count.toNat) ∧
      (∀ k < sectorSize * rs.length + j, admits s (buf + k) = true) ∧
      admits s (buf + (sectorSize * rs.length + j)) = false ∧ (∀ x ∈ rs, x.fits s.params ∧ x.code = 0) ∧
      r.fits s.params ∧ s.env.cardIn = rs.flatMap ReadAttempt.bytes ++ r.bytes ++ rest ∧ s.params.ok = true ∧
      s.sync.requests = [] :=
  ⟨holedLater ([ReadAttempt.block (readOf 0xFF 0x7FA1)].flatMap ReadAttempt.bytes ++ (readOf 7 0).bytes ++ []),
    .readRange 0x200 5 2, 0x200, 3, 5, 2, [], [.block (readOf 0xFF 0x7FA1)], readOf 7 0, ⟨rfl, rfl⟩, by decide, rfl,
    by decide, rfl, .inr ⟨rfl, by decide⟩,
    fun k hk => holedLater_admits _ 0x403 (by decide) _ (by
      simp only [sectorSize, List.length_singleton] at hk
      omega), by decide, by
      simp only [List.forall_mem_cons, List.not_mem_nil, false_imp_iff, implies_true, and_true, ReadAttempt.fits,
        ReadAttempt.code]
      exact show (readOf 0xFF 0x7FA1).fits Params.testValues ∧ _ by decide +kernel,
    show (readOf 7 0).fits Params.testValues by decide +kernel, rfl, by decide, rfl⟩

theorem witness_UnadmittedBufferLeavesTheRequestStuck_write : ∃ (s : State) (i : Instr) (buf j : Nat)
    (sector count : Word) (rest : List Byte) (ws : List SectorWrite) (w : WriteScript), undisturbed s ∧
      i.wellFormed s.params.bufAddrW = true ∧ memWf s.mem = true ∧ j < sectorSize ∧ s.session.state = .ready ∧
      1 ≤ s.params.writeBudget ∧
      (i = .writeSector buf sector ∧ ws = [] ∨ i = .writeRange buf sector count ∧ ws.length < count.toNat) ∧
      (∀ k < sectorSize * ws.length + j, admits s (buf + k) = true) ∧
      admits s (buf + (sectorSize * ws.length + j)) = false ∧ (∀ x ∈ ws, x.fits s.params ∧ x.last.code = 0) ∧
      w.fits s.params ∧ s.env.cardIn = ws.flatMap SectorWrite.bytes ++ w.bytes ++ rest ∧ s.params.ok = true ∧
      s.sync.requests = [] :=
  ⟨holed (([] : List SectorWrite).flatMap SectorWrite.bytes ++ (writeOf 5).bytes ++ []), .writeSector 4 5, 4, 0x1FF, 5, 0,
    [], [], writeOf 5, ⟨rfl, rfl⟩, by decide, rfl, by decide, rfl, by decide, .inl ⟨rfl, rfl⟩,
    fun k hk => holed_admits _ 0x203 (by decide) _ (by
      simp only [sectorSize, List.length_nil] at hk
      omega), by decide, by simp, show (writeOf 5).fits Params.testValues by decide +kernel, rfl, by decide, rfl⟩

theorem witness_UnadmittedBufferLeavesTheRequestStuck_frames : ∃ (s u : State) (buf j : Nat) (sector : Word)
    (rest : List Byte) (r : ReadScript) (w : WriteScript), undisturbed s ∧ undisturbed u ∧
      (Instr.cmd18 sector buf).wellFormed s.params.bufAddrW = true ∧
      (Instr.cmd24 sector buf).wellFormed u.params.bufAddrW = true ∧ memWf s.mem = true ∧ memWf u.mem = true ∧
      j < sectorSize ∧ (∀ k < j, admits s (buf + k) = true ∧ admits u (buf + k) = true) ∧
      admits s (buf + j) = false ∧ admits u (buf + j) = false ∧ r.fits s.params ∧ w.fits u.params ∧
      s.env.cardIn = r.bytes ++ rest ∧ u.env.cardIn = w.bytes ++ rest :=
  ⟨holed ((readOf 7 0).bytes ++ []), holed ((writeOf 5).bytes ++ []), 0x200, 3, 9, [], readOf 7 0, writeOf 5, ⟨rfl, rfl⟩,
    ⟨rfl, rfl⟩, by decide, by decide, rfl, rfl, by decide,
    fun k hk => ⟨holed_admits _ 0x203 (by decide) _ (by omega), holed_admits _ 0x203 (by decide) _ (by omega)⟩,
    by decide, by decide, show (readOf 7 0).fits Params.testValues by decide +kernel,
    show (writeOf 5).fits Params.testValues by decide +kernel, rfl, rfl⟩

theorem witness_ReadSectorDeliversTheBlock_intact : ∃ (s : State) (buf : Nat) (sector : Word) (r : ReadScript)
    (rest : List Byte), undisturbed s ∧ s.session.state = .ready ∧
      (Instr.readSector buf sector).wellFormed s.params.bufAddrW = true ∧ admitsBlock s buf ∧ memWf s.mem = true ∧
      r.fits s.params ∧ s.env.cardIn = r.bytes ++ rest ∧ r.crc = crc16 r.data :=
  ⟨readyWith .standard ((readOf 0xFF 0x7FA1).bytes ++ []), 0x200, 3, readOf 0xFF 0x7FA1, [], by decide, rfl, by decide,
    reset_admitsBlock _ _, rfl, by decide +kernel, rfl, by decide +kernel⟩

theorem witness_ReadSectorDeliversTheBlock_damaged : ∃ (s : State) (buf : Nat) (sector : Word) (r : ReadScript)
    (rest : List Byte), undisturbed s ∧ s.session.state = .ready ∧
      (Instr.readSector buf sector).wellFormed s.params.bufAddrW = true ∧ admitsBlock s buf ∧ memWf s.mem = true ∧
      r.fits s.params ∧ s.env.cardIn = r.bytes ++ rest ∧ r.crc ≠ crc16 r.data :=
  ⟨readyWith .standard ((readOf 0 1).bytes ++ []), 0x200, 3, readOf 0 1, [], by decide, rfl, by decide,
    reset_admitsBlock _ _, rfl, by decide +kernel, rfl, by decide +kernel⟩

theorem witness_ReadSectorReturnsTheCardStatus : ∀ x ∈ refusals, ∃ (s : State) (buf : Nat) (sector : Word)
    (rest : List Byte), undisturbed s ∧ s.session.state = .ready ∧
      (Instr.readSector buf sector).wellFormed s.params.bufAddrW = true ∧ x.fits s.params ∧
      x.result ≠ .status 0x00#8 ∧ s.env.cardIn = x.bytes ++ rest :=
  fun x hx => ⟨readyWith .standard (x.bytes ++ []), 0x200, 3, [], ⟨rfl, rfl⟩, rfl, rfl, (refusals_fit x hx).1,
    (refusals_fit x hx).2, rfl⟩

theorem witness_ReadSectorWithoutTokenIsGeneric_timeout : ∃ (s : State) (buf : Nat) (sector : Word) (c : CmdScript)
    (l rest : List Byte), undisturbed s ∧ s.session.state = .ready ∧
      (Instr.readSector buf sector).wellFormed s.params.bufAddrW = true ∧ c.fits s.params ∧ c.status = 0x00#8 ∧
      tokenFailure s.params l ∧ s.env.cardIn = c.opening ++ l ++ c.trail :: rest :=
  ⟨readyWith .standard ((slow 0).opening ++ List.replicate 16 idleByte ++ (slow 0).trail :: []), 0x200, 3, slow 0,
    List.replicate 16 idleByte, [], by decide, rfl, by decide, by decide +kernel, rfl, .inl rfl, rfl⟩

theorem witness_ReadSectorWithoutTokenIsGeneric_token : ∃ (s : State) (buf : Nat) (sector : Word) (c : CmdScript)
    (l rest : List Byte), undisturbed s ∧ s.session.state = .ready ∧
      (Instr.readSector buf sector).wellFormed s.params.bufAddrW = true ∧ c.fits s.params ∧ c.status = 0x00#8 ∧
      tokenFailure s.params l ∧ s.env.cardIn = c.opening ++ l ++ c.trail :: rest :=
  ⟨readyWith .standard ((slow 0).opening ++ (List.replicate 15 idleByte ++ [8]) ++ (slow 0).trail :: []), 0x200, 3,
    slow 0, List.replicate 15 idleByte ++ [8], [], by decide, rfl, by decide, by decide +kernel, rfl,
    .inr ⟨15, 8, by decide, by decide, by decide, rfl⟩, rfl⟩

theorem witness_ReadRangeDeliversEverySector : ∃ (s : State) (buf : Nat) (sector count : Word) (rs : List ReadAttempt)
    (rest : List Byte), undisturbed s ∧ s.session.state = .ready ∧
      (Instr.readRange buf sector count).wellFormed s.params.bufAddrW = true ∧
      (∀ j < sectorSize * count.toNat, admits s (buf + j) = true) ∧ memWf s.mem = true ∧ rs.length = count.toNat ∧
      (∀ r ∈ rs, r.fits s.params ∧ r.code = 0) ∧ s.cs = false ∧
      s.env.cardIn = rs.flatMap ReadAttempt.bytes ++ rest :=
  ⟨readyWith .standard ([.block (readOf 0xFF 0x7FA1), .block (readOf 0 0)].flatMap ReadAttempt.bytes ++ []), 0x200,
    0xFFFFFFFF, 2, [.block (readOf 0xFF 0x7FA1), .block (readOf 0 0)], [], by decide, rfl, by decide,
    fun j hj => reset_admits _ _ _ (by rw [sectorSize] at hj; change j < 512 * 2 at hj; omega), rfl, rfl,
    by
      simp only [List.forall_mem_cons, List.not_mem_nil, false_imp_iff, implies_true, and_true, ReadAttempt.fits, ReadAttempt.code]
      decide +kernel, rfl, rfl⟩

/-- A failing sector read of each kind. -/
def failedReads : List ReadAttempt :=
  [.noToken (slow 0) (List.replicate 16 idleByte), .noToken (quick 0) [0xFF, 8], .block (readOf 0 1)] ++
    refusals.map ReadAttempt.refused

theorem refused_code {x : Exchange} (h : x.result ≠ .status 0x00#8) : x.result.code ≠ 0 := by
  revert h
  generalize x.result = r
  cases r with
  | status b =>
    intro h hb
    apply h
    have : b.setWidth 16 = 0#16 := hb
    rw [show b = 0#8 by bv_omega]
  | err k => cases k <;> decide

theorem failedReads_fit : ∀ x ∈ failedReads, x.fits Params.testValues ∧ x.code ≠ 0 := by
  intro x hx
  rcases List.mem_append.mp hx with h | hx
  · clear hx
    revert x
    simp only [List.forall_mem_cons, List.not_mem_nil, false_imp_iff, implies_true, and_true, ReadAttempt.fits, ReadAttempt.code, tokenFailure]
    refine ⟨⟨⟨by decide +kernel, rfl, .inl rfl⟩, by decide⟩, ⟨⟨by decide +kernel, rfl, .inr ⟨1, 8, ?_⟩⟩, by decide⟩,
      ⟨by decide +kernel, by decide +kernel⟩⟩
    decide
  · obtain ⟨y, hy, rfl⟩ := List.mem_map.mp hx
    exact ⟨refusals_fit y hy, refused_code (refusals_fit y hy).2⟩

theorem witness_BlockReadFramesFillTheBuffer : ∀ x ∈ failedReads, ∃ (addr : Word) (buf : Nat) (i : Instr)
    (idx : BitVec 6), (i, idx) ∈ [(Instr.cmd17 addr buf, (17 : BitVec 6)), (Instr.cmd18 addr buf, (18 : BitVec 6))] ∧
    ∃ (s : State) (rest : List Byte), undisturbed s ∧ i.wellFormed s.params.bufAddrW = true ∧
      (x.data = [] ∨ admitsBlock s buf) ∧ memWf s.mem = true ∧ x.fits s.params ∧ s.env.cardIn = x.bytes ++ rest :=
  fun x hx => ⟨3, 0x200, .cmd18 3 0x200, 18, by decide, readyWith .high (x.bytes ++ []), [], ⟨rfl, rfl⟩, rfl,
    .inr (reset_admitsBlock _ _), rfl, (failedReads_fit x hx).1, rfl⟩

theorem witness_BlockReadFramesFillTheBuffer_unadmitted : ∃ (s : State) (x : ReadAttempt) (buf : Nat),
    x ∈ failedReads ∧ x.data = [] ∧ ¬ admitsBlock s buf ∧ s.env.cardIn = x.bytes ++ [] :=
  ⟨holed ((ReadAttempt.refused (.neverIdle [0, 0, 0, 0xFE] 9)).bytes ++ []), .refused (.neverIdle [0, 0, 0, 0xFE] 9), 0x200,
    by simp [failedReads, refusals], rfl, fun h => absurd (h 3 (by decide)) (by decide), rfl⟩

theorem witness_ReadRangeStopsAtTheFirstFailure : ∀ x ∈ failedReads, ∃ (s : State) (buf : Nat) (sector count : Word)
    (rs : List ReadAttempt) (rest : List Byte), undisturbed s ∧ s.session.state = .ready ∧
      (Instr.readRange buf sector count).wellFormed s.params.bufAddrW = true ∧
      (∀ j < sectorSize * count.toNat, admits s (buf + j) = true) ∧ memWf s.mem = true ∧ rs.length < count.toNat ∧
      (∀ r ∈ rs, r.fits s.params ∧ r.code = 0) ∧ x.fits s.params ∧ x.code ≠ 0 ∧
      s.env.cardIn = (rs ++ [x]).flatMap ReadAttempt.bytes ++ rest :=
  fun x hx => ⟨readyWith .high (([ReadAttempt.block (readOf 0xFF 0x7FA1)] ++ [x]).flatMap ReadAttempt.bytes ++ []), 0x200, 100, 3,
    [.block (readOf 0xFF 0x7FA1)], [], ⟨rfl, rfl⟩, rfl, rfl,
    fun j hj => reset_admits _ _ _ (by rw [sectorSize] at hj; change j < 512 * 3 at hj; omega), rfl,
    show 1 < 3 by decide, by
      simp only [List.forall_mem_cons, List.not_mem_nil, false_imp_iff, implies_true, and_true, ReadAttempt.fits, ReadAttempt.code]
      exact show (readOf 0xFF 0x7FA1).fits Params.testValues ∧ _ by decide +kernel, (failedReads_fit x hx).1, (failedReads_fit x hx).2, rfl⟩

theorem witness_WriteSectorReturnsTheCardStatus : ∀ x ∈ refusals, ∃ (s : State) (buf : Nat) (sector : Word)
    (rest : List Byte), undisturbed s ∧ s.session.state = .ready ∧
      (Instr.writeSector buf sector).wellFormed s.params.bufAddrW = true ∧ 1 ≤ s.params.writeBudget ∧
      x.fits s.params ∧ x.result ≠ .status 0x00#8 ∧ s.env.cardIn = x.bytes ++ rest :=
  fun x hx => ⟨readyWith .standard (x.bytes ++ []), 0x200, 10, [], ⟨rfl, rfl⟩, rfl, rfl, show 1 ≤ 3 by decide,
    (refusals_fit x hx).1, (refusals_fit x hx).2, rfl⟩

theorem witness_RejectedWriteUsesTheWholeBudget : ∃ (s : State) (buf : Nat) (sector : Word) (ws : List WriteScript)
    (rest : List Byte), undisturbed s ∧ s.session.state = .ready ∧
      (Instr.writeSector buf sector).wellFormed s.params.bufAddrW = true ∧ 1 ≤ s.params.writeBudget ∧
      admitsBlock s buf ∧ ws.length = s.params.writeBudget ∧ (∀ w ∈ ws, w.fits s.params ∧ rejects w) ∧
      s.env.cardIn = ws.flatMap WriteScript.bytes ++ rest :=
  ⟨readyWith .standard ((List.replicate 3 (writeOf 0x0B)).flatMap WriteScript.bytes ++ []), 0x200, 10,
    List.replicate 3 (writeOf 0x0B), [], by decide, rfl, by decide, by decide, reset_admitsBlock _ _, rfl,
    by decide +kernel, rfl⟩

/-- A sector accepted at once, and one accepted at the last attempt. -/
def goodWrites : List SectorWrite := [⟨[], .sent (writeOf 5)⟩, ⟨[writeOf 0x0B, busyOf 0xEB], .sent (writeOf 0xE5)⟩]

theorem goodWrites_fit : ∀ w ∈ goodWrites, w.fits Params.testValues ∧ w.last.code = 0 := by
  simp only [goodWrites, List.forall_mem_cons, List.not_mem_nil, false_imp_iff, implies_true, and_true,
    SectorWrite.fits, WriteEnd.fits, WriteEnd.code]
  refine ⟨⟨⟨?_, ?_⟩, ?_⟩, ⟨⟨?_, ?_⟩, ?_⟩⟩ <;> decide +kernel

theorem witness_WriteRangeSendsEverySector : ∃ (s : State) (buf : Nat) (sector count : Word) (ws : List SectorWrite)
    (rest : List Byte), undisturbed s ∧ s.session.state = .ready ∧
      (Instr.writeRange buf sector count).wellFormed s.params.bufAddrW = true ∧
      (∀ j < sectorSize * count.toNat, admits s (buf + j) = true) ∧ ws.length = count.toNat ∧
      (∀ w ∈ ws, w.fits s.params ∧ w.last.code = 0) ∧ s.cs = false ∧
      s.env.cardIn = ws.flatMap SectorWrite.bytes ++ rest :=
  ⟨readyWith .high (goodWrites.flatMap SectorWrite.bytes ++ []), 0x400, 0xFFFFFFFF, 2, goodWrites, [], by decide, rfl,
    by decide, fun j hj => reset_admits _ _ _ (by rw [sectorSize] at hj; change j < 512 * 2 at hj; omega), rfl,
    goodWrites_fit, rfl, rfl⟩

/-- A sector write whose budget is used up, one with a refused token after a retry, one whose busy poll runs out, and
two that end in an error or a card status after rejections. -/
def failedWrites : List SectorWrite :=
  [⟨[writeOf 0x0B, writeOf 0x0B], .sent (busyOf 0x0B)⟩, ⟨[writeOf 0x0B], .sent (writeOf 0x0D)⟩, ⟨[], .sent (busyOf 5)⟩,
    ⟨[writeOf 0x0B], .refused (.neverIdle [0, 0, 0, 0xFE] 9)⟩,
    ⟨[writeOf 0x0B, busyOf 0xEB], .refused (.answered (quick 0x40))⟩]

theorem failedWrites_fit : ∀ w ∈ failedWrites, w.fits Params.testValues ∧ w.last.code ≠ 0 := by
  simp only [failedWrites, List.forall_mem_cons, List.not_mem_nil, false_imp_iff, implies_true, and_true,
    SectorWrite.fits, WriteEnd.fits, WriteEnd.code, Exchange.fits,
    Exchange.result]
  refine ⟨⟨⟨?_, ?_⟩, ?_⟩, ⟨⟨?_, ?_⟩, ?_⟩, ⟨⟨?_, ?_⟩, ?_⟩, ⟨⟨?_, ?_⟩, ?_⟩,
    ⟨⟨?_, ⟨?_, ?_⟩, ?_⟩, ?_⟩⟩ <;> decide +kernel

theorem witness_WriteStopsAtTheFirstOtherResult : ∀ x ∈ failedWrites ++ goodWrites, ∃ (s : State) (buf : Nat)
    (sector : Word) (rest : List Byte), undisturbed s ∧ s.session.state = .ready ∧
      (Instr.writeSector buf sector).wellFormed s.params.bufAddrW = true ∧
      (admitsBlock s buf ∨ x.rejected = [] ∧ ∃ y, x.last = .refused y) ∧ x.fits s.params ∧
      s.env.cardIn = x.bytes ++ rest :=
  fun x hx => ⟨readyWith .standard (x.bytes ++ []), 0x200, 3, [], ⟨rfl, rfl⟩, rfl, rfl, .inl (reset_admitsBlock _ _),
    by
      rcases List.mem_append.mp hx with h | h
      · exact (failedWrites_fit x h).1
      · exact (goodWrites_fit x h).1, rfl⟩

theorem witness_WriteStopsAtTheFirstOtherResult_unread : ∃ (s : State) (buf : Nat) (sector : Word) (x : SectorWrite)
    (rest : List Byte), undisturbed s ∧ s.session.state = .ready ∧
      (Instr.writeSector buf sector).wellFormed s.params.bufAddrW = true ∧ ¬ admitsBlock s buf ∧
      (x.rejected = [] ∧ ∃ y, x.last = .refused y) ∧ x.fits s.params ∧ s.env.cardIn = x.bytes ++ rest :=
  ⟨holed ((SectorWrite.mk [] (.refused (.answered (slow 0x60)))).bytes ++ []), 0x200, 3,
    ⟨[], .refused (.answered (slow 0x60))⟩, [], ⟨rfl, rfl⟩, rfl, rfl, fun h => absurd (h 3 (by decide)) (by decide),
    ⟨rfl, _, rfl⟩,
    ⟨by simp, (refusals_fit (.answered (slow 0x60)) (by decide)), by decide, by decide⟩, rfl⟩

theorem witness_BlockWriteFrameSendsTheBuffer : ∀ x ∈ failedWrites ++ goodWrites, ∃ (addr : Word) (buf : Nat)
    (s : State) (rest : List Byte), undisturbed s ∧ (Instr.cmd24 addr buf).wellFormed s.params.bufAddrW = true ∧
      (∀ w, x.last = .sent w → admitsBlock s buf) ∧ x.last.fits s.params ∧ s.env.cardIn = x.last.bytes ++ rest :=
  fun x hx => ⟨3, 0x200, readyWith .high (x.last.bytes ++ []), [], ⟨rfl, rfl⟩, rfl, fun _ _ => reset_admitsBlock _ _,
    by
      rcases List.mem_append.mp hx with h | h
      · exact (failedWrites_fit x h).1.2.1
      · exact (goodWrites_fit x h).1.2.1, rfl⟩

theorem witness_WriteRangeStopsAtTheFirstFailure : ∀ x ∈ failedWrites, ∃ (s : State) (buf : Nat)
    (sector count : Word) (ws : List SectorWrite) (rest : List Byte), undisturbed s ∧ s.session.state = .ready ∧
      (Instr.writeRange buf sector count).wellFormed s.params.bufAddrW = true ∧
      (∀ j < sectorSize * count.toNat, admits s (buf + j) = true) ∧ ws.length < count.toNat ∧
      (∀ w ∈ ws, w.fits s.params ∧ w.last.code = 0) ∧ x.fits s.params ∧ x.last.code ≠ 0 ∧
      s.env.cardIn = (ws ++ [x]).flatMap SectorWrite.bytes ++ rest :=
  fun x hx => ⟨readyWith .high ((goodWrites ++ [x]).flatMap SectorWrite.bytes ++ []), 0x400, 7, 3, goodWrites, [],
    ⟨rfl, rfl⟩, rfl, rfl, fun j hj => reset_admits _ _ _ (by rw [sectorSize] at hj; change j < 512 * 3 at hj; omega),
    show 2 < 3 by decide, goodWrites_fit, (failedWrites_fit x hx).1, (failedWrites_fit x hx).2, rfl⟩

theorem witness_SectorRequestsKeepTheSession : ∃ (i : Instr) (s t : State), isSectorRequest i = true ∧ noReset s ∧
    exec i s = .next t :=
  ⟨.readSector 0x200 3, readyWith .high (block d4 0x40 0xDA), _, by decide, by decide, rfl⟩

/-- A block of the bytes of `readyA5`, with its CRC. -/
def a5Read : ReadScript := ⟨quick 0, 15, blockAt (readyA5 []) 0x200, crc16 (blockAt (readyA5 []) 0x200)⟩

theorem witness_WrittenBlockReadBackIsTheSame : ∃ (s : State) (buf out : Nat) (sector : Word) (w : WriteScript)
    (r : ReadScript) (rest : List Byte), undisturbed s ∧ s.session.state = .ready ∧
      (Instr.writeSector buf sector).wellFormed s.params.bufAddrW = true ∧
      (Instr.readSector out sector).wellFormed s.params.bufAddrW = true ∧ 1 ≤ s.params.writeBudget ∧
      admitsBlock s buf ∧ admitsBlock s out ∧ memWf s.mem = true ∧ w.fits s.params ∧ accepts w ∧ r.fits s.params ∧
      r.data = blockAt s buf ∧ r.crc = crc16 r.data ∧ s.env.cardIn = w.bytes ++ r.bytes ++ rest :=
  ⟨readyA5 ((writeOf 5).bytes ++ a5Read.bytes ++ []), 0x200, 0x800, 3, writeOf 5, a5Read, [], by decide, rfl, by decide,
    by decide, by decide, fun j hj => readyA5_admits _ _ (by simp only [sectorSize] at hj; omega),
    fun j hj => readyA5_admits _ _ (by simp only [sectorSize] at hj; omega), by decide +kernel, by decide +kernel,
    by decide, ⟨by decide +kernel, rfl, by decide, by simp [a5Read, blockAt]⟩, by simp [a5Read, blockAt, readyA5], by simp [a5Read], rfl⟩

theorem witness_StartupIsTerminalInReadyAndFaulted : ∃ s u : State, undisturbed s ∧ s.session.state = .ready ∧
    undisturbed u ∧ u.session.state = .faulted :=
  ⟨readyWith .high [], { State.reset with session := ⟨.faulted, -4, .standard, .sdv2, .slow⟩ }, by decide, rfl,
    by decide, rfl⟩

/-- A first CMD0 with a bad echo, a second answered without the idle bit, a third answered with idle. -/
def power : PowerScript := ⟨pu, [.badEcho [0] [0xFF, 0xFF, 0, 0xFF, 0xFF, 0xFF] 9, .answered (slow 0)], quick 1⟩

theorem power_fits : power.fits Params.testValues := by
  simp only [PowerScript.fits, power, List.forall_mem_cons, List.not_mem_nil, false_imp_iff, implies_true, and_true,
    Exchange.fits, Exchange.result, retried]
  refine ⟨rfl, ⟨⟨by decide, by simp, ?_⟩, by decide +kernel, by decide, by simp⟩, by decide, by decide +kernel, rfl⟩
  intro k hk
  injection hk with hk
  exact hk.symm

/-- The SDHC card's answers up to the negotiation. -/
def probe : ProbeScript := ⟨power, quick 1, 0x200001AA⟩

/-- Its answers after the negotiation. -/
def config : ConfigScript := ⟨quick 0, 0xC0FF8000, slow 0, quick 0⟩

/-- An SD v1 card's answers up to the negotiation: CMD8 is illegal. -/
def probeV1 : ProbeScript := ⟨power, slow 5, 0⟩

theorem probes_fit : ∀ q ∈ [probe, probeV1], q.fits Params.testValues := by
  simp only [List.forall_mem_cons, List.not_mem_nil, false_imp_iff, implies_true, and_true, ProbeScript.fits]
  exact ⟨⟨power_fits, by decide +kernel⟩, power_fits, by decide +kernel⟩

/-- Iterations of an SD card that end in none of the ready and illegal results: an error of CMD55, one of CMD41, and a
card still idle. -/
def sdWaits : List Iteration :=
  [.stopped (.neverIdle [0, 0, 0, 0] 9), .app (quick 1) (.silent [0] 8 9), .app (slow 1) (.answered (quick 1))]

/-- The illegal bit, from CMD55 and from CMD41. -/
def turns : List Iteration := [.stopped (.answered (quick 5)), .app (quick 1) (.answered (slow 5))]

theorem iteration_ends {x : Iteration} : (∀ b, x.result = .status b → b ≠ 0x00#8) → x.result ≠ .status 0x00#8 :=
  fun h he => h _ he rfl

theorem sdWaits_fit : ∀ q ∈ [probe, probeV1], ∀ i ∈ sdWaits,
    i.fits Params.testValues q.gen ∧ i.result ≠ .status 0x00#8 ∧ i.result.isIllegal = false := by
  simp only [sdWaits, List.forall_mem_cons, List.not_mem_nil, false_imp_iff, implies_true, and_true, Iteration.fits,
    Exchange.fits, Iteration.result, Exchange.result]
  refine ⟨⟨⟨⟨?_, ?_, ?_⟩, ?_⟩, ?_⟩, ⟨⟨?_, ?_, ?_⟩, ?_⟩, ?_⟩
  all_goals decide +kernel

theorem turns_fit : ∀ q ∈ [probe, probeV1], ∀ i ∈ turns,
    i.fits Params.testValues q.gen ∧ i.result.isIllegal = true := by
  simp only [turns, List.forall_mem_cons, List.not_mem_nil, false_imp_iff, implies_true, and_true, Iteration.fits,
    Exchange.fits, Iteration.result, Exchange.result]
  have h : ∀ b, Result.status (quick 5).status = .status b → illegal b = true := by
    intro b hb
    injection hb with hb
    rw [← hb]
    decide
  refine ⟨⟨⟨⟨?_, ?_, h⟩, ?_⟩, ?_⟩, ⟨⟨?_, ?_, h⟩, ?_⟩, ?_⟩ <;> decide +kernel

/-- The same in one negotiation: an error, an illegal CMD41, CMD1 unanswered. -/
def mixed : List Iteration :=
  [.stopped (.neverIdle [0, 0, 0, 0] 9), .app (quick 1) (.answered (slow 5)), .legacy (.silent [0] 8 9)]

theorem mixed_fit (last : CmdScript) (h : last.fits Params.testValues) : ∀ q ∈ [probe, probeV1],
    iterationsFit Params.testValues q.gen (mixed ++ [.legacy (.answered last)]) := by
  have hm : ∀ q ∈ [probe, probeV1], q.gen ≠ .mmc := by decide
  have hi : illegal (slow 5).status = true := by decide
  intro q hq
  simp only [mixed, List.cons_append, List.nil_append, iterationsFit, Iteration.fits, Exchange.fits, nextGen,
    Iteration.result, Exchange.result, Result.isIllegal, hi, if_true, Bool.false_eq_true, if_false, and_true]
  exact ⟨⟨hm q hq, by decide, by simp⟩, ⟨hm q hq, by decide +kernel, by decide, by decide +kernel⟩,
    ⟨by trivial, by decide⟩, by simp, h⟩

theorem mixed_waits : ∀ i ∈ mixed, i.result ≠ .status 0x00#8 := by
  simp only [mixed, List.forall_mem_cons, List.not_mem_nil, false_imp_iff, implies_true, and_true, Iteration.result,
    Exchange.result]
  decide

theorem witness_StartupOfReadyCardReachesReady : ∀ q ∈ [probe, probeV1], ∃ (s : State) (is : List Iteration)
    (last : Iteration) (e : ConfigScript) (rest : List Byte), undisturbed s ∧ s.session.state = .uninitialized ∧
      q.fits s.params ∧ iterationsFit s.params q.gen (is ++ [last]) ∧ (∀ i ∈ is, i.result ≠ .status 0x00#8) ∧
      last.result = .status 0x00#8 ∧ is.length < s.params.nIdleWait ∧ e.fits s.params ∧
      s.env.cardIn = q.bytes ++ (is ++ [last]).flatMap Iteration.bytes ++ e.bytes ++ rest :=
  fun q hq => ⟨fresh (q.bytes ++ (mixed ++ [Iteration.legacy (.answered (slow 0))]).flatMap Iteration.bytes ++
      config.bytes ++ []),
    mixed, .legacy (.answered (slow 0)), config, [], ⟨rfl, rfl⟩, rfl, probes_fit q hq,
    mixed_fit (slow 0) (by decide +kernel) q hq, mixed_waits, rfl, show 3 < 5 by decide,
    show config.fits Params.testValues by decide +kernel, rfl⟩

theorem witness_StartupOfReadyCardReachesReady_sd : ∀ q ∈ [probe, probeV1], ∃ (is : List Iteration)
    (last : Iteration), iterationsFit Params.testValues q.gen (is ++ [last]) ∧ last.result = .status 0x00#8 ∧
      genAfter q.gen is = q.gen :=
  fun q hq => ⟨[], .app (quick 1) (.answered (quick 0)),
    ⟨⟨(by decide : ∀ q ∈ [probe, probeV1], q.gen ≠ .mmc) q hq, by decide +kernel, by decide, show (quick 0).fits _ by
      decide +kernel⟩, trivial⟩, rfl, rfl⟩

theorem witness_IllegalAppCommandFallsBackToMmc : ∀ q ∈ [probe, probeV1], ∀ turn ∈ turns, ∃ (s : State)
    (is : List Iteration) (waits : List Exchange) (last : CmdScript) (e : ConfigScript) (rest : List Byte),
      undisturbed s ∧ s.session.state = .uninitialized ∧ q.fits s.params ∧
      (∀ i ∈ is ++ [turn], i.fits s.params q.gen) ∧
      (∀ i ∈ is, i.result ≠ .status 0x00#8 ∧ i.result.isIllegal = false) ∧ turn.result.isIllegal = true ∧
      (∀ w ∈ waits, w.fits s.params ∧ w.result ≠ .status 0x00#8) ∧
      is.length + 1 + waits.length < s.params.nIdleWait ∧
      last.fits s.params ∧ last.status = 0x00#8 ∧ e.fits s.params ∧
      s.env.cardIn = q.bytes ++ (is ++ [turn]).flatMap Iteration.bytes ++ waits.flatMap Exchange.bytes ++ last.bytes ++
        e.bytes ++ rest :=
  fun q hq turn ht => ⟨fresh (q.bytes ++ (sdWaits ++ [turn]).flatMap Iteration.bytes ++
      ([] : List Exchange).flatMap Exchange.bytes ++ (slow 0).bytes ++ config.bytes ++ []), sdWaits, [], slow 0, config, [],
    ⟨rfl, rfl⟩, rfl, probes_fit q hq,
    fun i hi => by
      rcases List.mem_append.mp hi with h | h
      · exact (sdWaits_fit q hq i h).1
      · rw [List.mem_singleton.mp h]; exact (turns_fit q hq turn ht).1,
    fun i hi => (sdWaits_fit q hq i hi).2, (turns_fit q hq turn ht).2, by simp, show 3 + 1 + 0 < 5 by decide,
    show (slow 0).fits Params.testValues by decide +kernel, rfl, show config.fits Params.testValues by decide +kernel, rfl⟩

theorem witness_IllegalAppCommandFallsBackToMmc_waits : ∀ w ∈ refusals, w.fits Params.testValues ∧
    w.result ≠ .status 0x00#8 := refusals_fit

theorem witness_IdleWaitMakesExactlyItsIterations : ∀ q ∈ [probe, probeV1], ∃ (s : State) (is : List Iteration)
    (last : Iteration) (rest : List Byte), undisturbed s ∧ s.session.state = .uninitialized ∧ q.fits s.params ∧
      iterationsFit s.params q.gen (is ++ [last]) ∧ (∀ i ∈ is ++ [last], i.result ≠ .status 0x00#8) ∧
      is.length + 1 = s.params.nIdleWait ∧
      s.env.cardIn = q.bytes ++ (is ++ [last]).flatMap Iteration.bytes ++ rest :=
  fun q hq => ⟨{ fresh (q.bytes ++ (mixed ++ [Iteration.legacy (.answered (slow 1))]).flatMap Iteration.bytes ++ []) with
      params.nIdleWait := 4 }, mixed, .legacy (.answered (slow 1)), [], ⟨rfl, rfl⟩, rfl,
    probes_fit q hq, mixed_fit (slow 1) (by decide +kernel) q hq,
    fun i hi => by
      rcases List.mem_append.mp hi with h | h
      · exact mixed_waits i h
      · rw [List.mem_singleton.mp h]
        exact show Result.status (slow 1).status ≠ .status 0x00#8 by decide, rfl, rfl⟩

theorem witness_ProbingRetriesOrFaults : ∃ (s : State) (pu : List Byte) (tries : List Exchange) (last : Exchange)
    (rest : List Byte), undisturbed s ∧ s.session.state = .uninitialized ∧ pu.length = s.params.nPowerup ∧
      (∀ x ∈ tries, x.fits s.params ∧ retried x.result) ∧ last.fits s.params ∧
      tries.length < s.params.nResetAttempts ∧ retried last.result ∧ tries.length + 1 = s.params.nResetAttempts ∧
      s.env.cardIn = pu ++ (tries ++ [last]).flatMap Exchange.bytes ++ rest :=
  ⟨{ fresh (pu ++ (power.tries ++ [Exchange.answered (quick 5)]).flatMap Exchange.bytes ++ []) with params.nResetAttempts := 3 },
    pu, power.tries, .answered (quick 5), [], ⟨rfl, rfl⟩, rfl, rfl, power_fits.2.1,
    show (quick 5).fits Params.testValues by decide +kernel, by decide, ⟨by decide, by simp [Exchange.result]⟩, rfl, rfl⟩

theorem witness_ProbingRetriesOrFaults_generic : ∃ (s : State) (pu : List Byte) (tries : List Exchange)
    (last : Exchange) (rest : List Byte), undisturbed s ∧ s.session.state = .uninitialized ∧
      pu.length = s.params.nPowerup ∧ (∀ x ∈ tries, x.fits s.params ∧ retried x.result) ∧ last.fits s.params ∧
      tries.length < s.params.nResetAttempts ∧ last.result = .err .generic ∧
      s.env.cardIn = pu ++ (tries ++ [last]).flatMap Exchange.bytes ++ rest :=
  ⟨fresh (pu ++ (power.tries ++ [Exchange.neverIdle [0, 0, 0, 0] 0]).flatMap Exchange.bytes ++ []), pu, power.tries,
    .neverIdle [0, 0, 0, 0] 0, [], ⟨rfl, rfl⟩, rfl, rfl, power_fits.2.1, ⟨by decide, rfl⟩, by decide, rfl, rfl⟩

/-- A VoltageCheck that faults, in each way. -/
def voltageFaults : List VoltageFault :=
  [.echo (quick 1) 0x2AA, .failed (.neverIdle [0, 0, 0, 0xFE] 9), .failed (.silent [] 8 9)]

theorem voltageFaults_fit : ∀ f ∈ voltageFaults, f.fits Params.testValues := by
  simp only [voltageFaults, List.forall_mem_cons, List.not_mem_nil, false_imp_iff, implies_true, and_true,
    VoltageFault.fits, Exchange.fits, Exchange.result]
  exact ⟨by decide +kernel, ⟨by decide, by simp⟩, ⟨by decide, by simp⟩⟩

theorem witness_LaterPhasesFaultWithTheirCodes_voltageCheck : ∀ f ∈ voltageFaults, ∃ (s : State) (q : PowerScript)
    (rest : List Byte), undisturbed s ∧ s.session.state = .uninitialized ∧ q.fits s.params ∧ f.fits s.params ∧
      s.env.cardIn = q.bytes ++ f.bytes ++ rest :=
  fun f hf => ⟨fresh (power.bytes ++ f.bytes ++ []), power, [], ⟨rfl, rfl⟩, rfl, power_fits, voltageFaults_fit f hf, rfl⟩

/-- A fault of each kind from CapacityCheck on. -/
def configFaults : List ConfigFault :=
  [.readOcr (.answered (quick 4)), .readOcr (.silent [] 8 9), .voltage (quick 0) 0xC0000000,
    .blockLen (quick 0) 0xC0FF8000 (.answered (slow 0x40)), .crcOn (quick 0) 0x80FF8000 (quick 0) (.neverIdle [0, 0, 0, 0] 9)]

theorem configFaults_fit : ∀ f ∈ configFaults, f.fits Params.testValues := by
  simp only [configFaults, List.forall_mem_cons, List.not_mem_nil, false_imp_iff, implies_true, and_true,
    ConfigFault.fits, Exchange.fits, Exchange.result]
  refine ⟨⟨by decide +kernel, fun b hb => ?_⟩, ⟨by decide, by simp⟩, by decide +kernel, by decide +kernel,
    by decide +kernel⟩
  injection hb with hb
  rw [← hb]
  decide

theorem witness_LaterPhasesFaultWithTheirCodes_configuring : ∀ f ∈ configFaults, ∃ (s : State) (q : ProbeScript)
    (is : List Iteration) (last : Iteration) (rest : List Byte), undisturbed s ∧
      s.session.state = .uninitialized ∧ q.fits s.params ∧ iterationsFit s.params q.gen (is ++ [last]) ∧
      (∀ i ∈ is, i.result ≠ .status 0x00#8) ∧ last.result = .status 0x00#8 ∧ is.length < s.params.nIdleWait ∧
      f.fits s.params ∧ s.env.cardIn = q.bytes ++ (is ++ [last]).flatMap Iteration.bytes ++ f.bytes ++ rest :=
  fun f hf => ⟨fresh (probeV1.bytes ++ (mixed ++ [Iteration.legacy (.answered (quick 0))]).flatMap Iteration.bytes ++
      f.bytes ++ []),
    probeV1, mixed, .legacy (.answered (quick 0)), [], ⟨rfl, rfl⟩, rfl, probes_fit probeV1 (by simp),
    mixed_fit (quick 0) (by decide +kernel) probeV1 (by simp), mixed_waits, rfl, show 3 < 5 by decide,
    configFaults_fit f hf, rfl⟩

theorem witness_StartupEndsReadyOrFaulted : undisturbed State.reset ∧ State.reset.session.state = .uninitialized := by
  decide

theorem witness_StartupIsBounded : ∃ s t : State, exec .startup s = .next t := ⟨fresh sdhc, _, rfl⟩

theorem witness_EveryRequestCompletesOnce : ∃ (i : Instr) (s : State), isLockedRequest i = true ∧
    i.wellFormed s.params.bufAddrW = true ∧ undisturbed s ∧
    (∀ j < sectorSize * (bufferOf i).2, admits s ((bufferOf i).1 + j) = true) ∧ s.cs = false ∧ s.noAccess ≠ [] :=
  ⟨.writeRange 3 5 1, holed [], by decide, by decide, by decide,
    fun j hj => holed_admits _ 0x203 (by decide) _ (by
      change j < 512 * 1 at hj
      change 3 + j < 0x203
      omega), rfl, by decide⟩

theorem witness_EveryRequestCompletesOnce_noBuffer : ∃ (i : Instr) (s : State), isLockedRequest i = true ∧
    i.wellFormed s.params.bufAddrW = true ∧ undisturbed s ∧
    (∀ j < sectorSize * (bufferOf i).2, admits s ((bufferOf i).1 + j) = true) ∧ s.cs = false :=
  ⟨.startup, { State.reset with noAccess := [⟨0, 2 ^ 32⟩] }, by decide, by decide, by decide, by decide, rfl⟩

theorem witness_StateChangesOnlyByTheTable : ∃ (i : Instr) (s t : State), exec i s = .next t ∧
    t.session.state ≠ s.session.state :=
  ⟨.startup, fresh sdhc, ends .startup (fresh sdhc), rfl, by decide +kernel⟩

theorem witness_OnlyErrorPathsAndDiagnosticsTouchTheLog : ∃ (i : Instr) (s t : State), noReset s ∧ i ≠ .startup ∧
    isSectorRequest i = false ∧ i ≠ .dumpDiagnostics ∧ i ≠ .clearDiagnostics ∧ exec i s = .next t :=
  ⟨.cmd16, fresh (txn [4]), _, by decide, by decide, by decide, by decide, by decide, rfl⟩

theorem witness_TheLogNeverGatesTheProtocol : ∃ (i : Instr) (s t : State), i ≠ .dumpDiagnostics ∧ exec i s = .next t :=
  ⟨.startup, fresh sdhc, _, by decide, rfl⟩

/-- R92, R93, R147: another fixed argument, an unlisted index and CMD18 are not issued. -/
theorem test_issues_bounds : ¬ issues 0 1 ∧ ¬ issues 8 0x1AB ∧ ¬ issues 16 0x400 ∧ ¬ issues 41 0x40000001 ∧
    ¬ issues 59 0 ∧ ¬ issues 12 0 ∧ ¬ issues 18 0 ∧ issues 24 0xFFFFFFFF := by
  decide

theorem witness_RequestsNeverIssueCmdEighteen : ∃ (i : Instr) (s t u v : State), neverIssued i = false ∧
    exec i s = .next t ∧ step u = .next v :=
  ⟨.startup, fresh sdhc, _, State.reset, State.reset, rfl, rfl, rfl⟩

theorem witness_StepRunsTheDecodedInstruction_neverIssued : ∃ (s s' : State) (p : Presented) (i : Instr),
    s.params.ok = true ∧ nextChoice s = .serve p s' ∧ decode p.item = .ok i ∧ neverIssued i = true :=
  ⟨State.reset.withItem (encode (.cmd18 5 0)), _, ⟨0, encode (.cmd18 5 0)⟩, .cmd18 5 0, by decide, rfl, rfl, rfl⟩

theorem witness_EveryStepKeepsTheMachineInvariant : ∃ s t : State, machineInv s ∧ step s = .next t ∧ t ≠ s := by
  refine ⟨State.reset.withItem (encode .isReady), _, ?_, rfl, by decide +kernel⟩
  simp [machineInv, sessionInv, logInv, lockInv, portInv, memInv, memWf, State.withItem, State.reset, Session.reset,
    Params.testValues]

end Sys2Proof.Tests
end

section
/-!
PROOFS. The scope: the parameter table decides whether a configuration is refused (R8), a frame run by itself receives
its payload (R163), and every fault of the later negotiation phases ends STARTUP (R246).
-/

namespace Sys2Proof.Machine

open Sys2Proof

variable {s : State}

/-! ### The outcome of an instruction and of a step -/

/-- A parameter record meets the constraint column of the table (R8). -/
theorem params_ok_iff (p : Params) : p.ok = true ↔
    10 ≤ p.nPowerup ∧ 1 ≤ p.nResetAttempts ∧ 1 ≤ p.nIdleWait ∧ 1 ≤ p.nReadyPoll ∧ 1 ≤ p.nRespPoll ∧
      1 ≤ p.nTokenPoll ∧ 1 ≤ p.nBusyPoll ∧ 1 ≤ p.writeBudget ∧ (p.logEnabled = true → 1 ≤ p.logCap) ∧
      p.fSlow ≤ 400000 ∧ 0 < p.fFast ∧ 10 ≤ p.bufAddrW := by
  cases hl : p.logEnabled <;> simp [Params.ok, hl, and_assoc]

/-- A critical section always has a next state: it waits for the lock or runs to its end. -/
theorem underLock_next (i : Instr) (work : State → Ran Unit) (s : State) : ∃ t, underLock i work s = .next t := by
  unfold underLock
  split <;> exact ⟨_, rfl⟩

/-- A host request that takes the lock always has a next state. -/
theorem serveRequest_next (i : Instr) (body : State → Ran Reply) (s : State) :
    ∃ t, serveRequest i body s = .next t := underLock_next _ _ _

/-- So does a frame run by itself. -/
theorem serveFrame_next (i : Instr) (body : State → Ran Result) (s : State) :
    ∃ t, serveFrame i body s = .next t := underLock_next _ _ _

/-- The range check adds the refusal of R60 and no other. -/
theorem withBuffer_next_or_bufferRange {run : State → Host.Outcome State Fault Refusal}
    (h : ∀ s, ∃ t, run s = .next t) (buf n : Nat) (s : State) :
    (∃ t, withBuffer buf n run s = .next t) ∨ withBuffer buf n run s = .refused .bufferRange := by
  unfold withBuffer
  split_ifs
  · exact .inl (h s)
  · exact .inr rfl

/-- Every instruction has a next state, unless its buffer range is outside the address space (R60). -/
theorem exec_next_or_bufferRange (i : Instr) (s : State) :
    (∃ t, exec i s = .next t) ∨ exec i s = .refused .bufferRange := by
  cases i with
  | cmd17 | cmd18 | cmd24 | readSector | readRange | writeSector | writeRange =>
    exact withBuffer_next_or_bufferRange (underLock_next _ _) _ _ s
  | cmd0 | cmd1 | cmd8 | cmd16 | cmd55 | acmd41Hcs1 | acmd41Hcs0 | cmd58 | cmd59 =>
    exact .inl (serveFrame_next _ _ s)
  | initSession | startup | dumpDiagnostics => exact .inl (serveRequest_next _ _ s)
  | clearDiagnostics =>
    exact .inl (serveRequest_next .clearDiagnostics (fun s => .done (resultReply 0) (logClear s)) s)
  | isReady | reserved9 | reservedA | reservedB | reservedC | reservedD | reservedE | reservedF =>
    exact .inl ⟨_, rfl⟩

/-- Serving an item never refuses the configuration. -/
theorem serve_ne_badConfiguration (p : Presented) (s : State) : serve p s ≠ .refused .badConfiguration := by
  unfold serve
  cases decode p.item with
  | error e => simp
  | ok i =>
    dsimp only
    unfold issue
    split_ifs
    · simp
    · rcases exec_next_or_bufferRange i s with ⟨t, h⟩ | h <;> simp [h]

/-- A step refuses the configuration exactly when it is not a good one (R8). -/
theorem step_badConfiguration_iff (s : State) : step s = .refused .badConfiguration ↔ ¬ s.params.ok = true := by
  unfold step
  by_cases h : s.params.ok = true
  · rw [if_pos h]
    cases nextChoice s with
    | serve p t => simpa [h] using serve_ne_badConfiguration p t
    | arrived t => simp [h]
    | idle => simp [h]
    | stuck => simp [h]
  · simp [h]

/-! ### A frame run by itself -/

/-- What is left of listed answers after those before `rest` were drawn. -/
theorem drop_listed {l rest : List Byte} (hc : s.env.cardIn = l ++ rest) : s.env.cardIn.drop l.length = rest := by
  rw [hc, List.drop_left]

/-- The four bytes of a word put together from four bytes (R63). -/
theorem argBytes_wordOfBytes (b3 b2 b1 b0 : Byte) : argBytes (wordOfBytes b3 b2 b1 b0) = [b3, b2, b1, b0] := by
  simp only [argBytes, wordOfBytes, List.cons.injEq, and_true]
  refine ⟨?_, ?_, ?_, ?_⟩ <;>
  · apply BitVec.eq_of_getLsbD_eq
    intro i hi
    simp only [BitVec.getLsbD_extractLsb', BitVec.getLsbD_append]
    interval_cases i <;> simp

/-- A frame run by itself whose transaction plays `evs` and leaves the working registers `k`: the lock is free again,
the result is in `RESULT`, and everything outside the transport is as it was. -/
theorem serveFrame_played {i : Instr} {body : State → Ran Result} {r : Result} {n : Nat} {evs : List BusEvent}
    {k : Work} (hu : undisturbed s)
    (hb : body (acquire i s) = .done r { play n evs (acquire i s) with cs := false, work := k }) :
    ∃ t, serveFrame i body s = .next t ∧ busMoved s t n (s.env.cardIn.drop n) evs ∧
      t.work = { k with result := r.code } ∧ commandDone s t k.idx k.arg r :=
  ⟨_, serveFrame_done hu.1 hb hu.2, ⟨rfl, rfl, rfl, rfl⟩, rfl, rfl, rfl, rfl, ⟨rfl, rfl, rfl, rfl, rfl, rfl, rfl⟩, rfl,
    rfl, rfl⟩

/-- CMD8 and CMD58 are commands run by themselves, and their R1 is followed by a payload unless it is illegal. -/
theorem payloadCommands_exec {i : Instr} {idx : BitVec 6} {arg : Word} (hi : (i, idx, arg) ∈ payloadCommands) :
    (∀ s, exec i s = serveFrame i (command idx arg) s) ∧ (idx = 8 ∨ idx = 58) := by
  simp only [payloadCommands, List.mem_cons, Prod.mk.injEq, List.not_mem_nil, or_false] at hi
  rcases hi with ⟨rfl, rfl, rfl⟩ | ⟨rfl, rfl, rfl⟩
  · exact ⟨fun _ => rfl, .inl rfl⟩
  · exact ⟨fun _ => rfl, .inr rfl⟩

/-- The payload of CMD8 and CMD58 comes when the illegal bit is clear (R95). -/
theorem hasPayload_of_legal {idx : BitVec 6} {b : Byte} (hi : idx = 8 ∨ idx = 58) (hb : illegal b = false) :
    hasPayload idx (.status b) = true := by
  rcases hi with rfl | rfl <;> simp [hasPayload, hb]

/-! ### STARTUP whose negotiation faults -/

/-- The log after an append depends on the configuration and the log alone. -/
theorem logAppend_log_congr {u : State} (hp : u.params = s.params) (hl : u.log = s.log) (r : LogRecord) :
    (logAppend r u).log = (logAppend r s).log := by
  rw [logAppend_log, logAppend_log, hp, hl]

/-- STARTUP whose negotiation plays `evs` and ends in `Fault(e, r)`: Faulted with the error's code, one log record of the
last transaction, one response, nothing sent after the negotiation (R246). -/
theorem startup_fault_played {n : Nat} {evs : List BusEvent} {e : ErrKind} {r : Result} {k : Work} {q : Session}
    (hu : undisturbed s) (hs : s.session.state = .uninitialized)
    (hn : negotiation (acquire .startup s) =
      .done (.fault e r) { play n evs (acquire .startup s) with cs := false, work := k, session := q }) :
    ∃ t, exec .startup s = .next t ∧ startupDone s t e.code ∧
      t.session = ⟨.faulted, e.code, q.capClass, q.cardGen, q.clkMode⟩ ∧
      busMoved s t n (s.env.cardIn.drop n) evs ∧
      t.log = (logAppend ⟨k.idx.setWidth 8, r.code, k.arg, 0, 0⟩ s).log := by
  refine ⟨_, startup_faulted hu.1 hs hn hu.2, ?_, ?_, ?_, ?_⟩
  · simp [startupDone, resultReply]
  · simp
  · simp [busMoved]
  · simp only [respond_log, release_log, takeFault_log]
    refine logAppend_log_congr ?_ ?_ _ <;> rfl

/-- Probing succeeds and VoltageCheck faults (R235, R236). -/
theorem negotiation_voltageFault {q : PowerScript} {f : VoltageFault} {rest : List Byte} (hq : q.fits s.params)
    (hf : f.fits s.params) (ha : s.env.arrivals = []) (hc : s.env.cardIn = q.bytes ++ f.bytes ++ rest) :
    ∃ k e r, negotiation s = .done (.fault e r)
        { play (q.bytes ++ f.bytes).length (q.events ++ f.events) s with
          cs := false, work := k
          session := ⟨.voltageCheck, s.session.faultCode, .standard, s.session.cardGen, .slow⟩ } ∧
      k.idx = 8 ∧ k.arg = cmd8Argument ∧ (e.code, r.code) = f.codes := by
  obtain ⟨k, h⟩ := probing_passes hq ha (rest := f.bytes ++ rest) (by simpa using hc)
  obtain ⟨l, e, r, h', hidx, harg, hcodes⟩ := voltageCheck_faults (f := f) (rest := rest)
    (s := { play q.bytes.length q.events s with
      cs := false, work := k, session := ⟨.probing, s.session.faultCode, .standard, s.session.cardGen, .slow⟩ })
    hf ha rfl (by simp [hc])
  refine ⟨l, e, r, ?_, hidx, harg, hcodes⟩
  rw [negotiation_voltageCheck h h']
  simp [play, Nat.add_assoc]

/-- The card becomes ready in IdleWait, and CapacityCheck or Configuring faults (R241, R242, R244). -/
theorem negotiation_configFault {q : ProbeScript} {is : List Iteration} {last : Iteration} {f : ConfigFault}
    {rest : List Byte} (hq : q.fits s.params) (hi : iterationsFit s.params q.gen (is ++ [last]))
    (hr : ∀ i ∈ is, i.result ≠ .status 0x00#8) (hl : last.result = .status 0x00#8)
    (hn : is.length < s.params.nIdleWait) (hf : f.fits s.params) (ha : s.env.arrivals = [])
    (hc : s.env.cardIn = q.bytes ++ (is ++ [last]).flatMap Iteration.bytes ++ f.bytes ++ rest) :
    ∃ k e r st, negotiation s = .done (.fault e r)
        { play (q.bytes ++ (is ++ [last]).flatMap Iteration.bytes ++ f.bytes).length
            (q.events ++ (is ++ [last]).flatMap (Iteration.events q.hcs) ++ f.events) s with
          cs := false, work := k
          session := ⟨st, s.session.faultCode, (f.outcome (genAfter q.gen is)).2.1, genAfter q.gen is, .slow⟩ } ∧
      e.code = (f.outcome (genAfter q.gen is)).1 ∧
      (⟨k.idx.setWidth 8, r.code, k.arg, 0, 0⟩ : LogRecord) = (f.outcome (genAfter q.gen is)).2.2 := by
  obtain ⟨k, h, -⟩ := idleWait_reached hq hi hr hn (.inl hl) ha (rest := f.bytes ++ rest) (by simpa using hc)
  rw [if_pos hl, genAfter_ready hl] at h
  obtain ⟨m, e, r, st, h', hcode, hrec⟩ := config_faults (f := f) (rest := rest)
    (s := { play (q.bytes ++ (is ++ [last]).flatMap Iteration.bytes).length
        (q.events ++ (is ++ [last]).flatMap (Iteration.events q.hcs)) s with
      cs := false, work := k, session := ⟨.idleWait, s.session.faultCode, .standard, genAfter q.gen is, .slow⟩ })
    hf rfl ha rfl (by rw [play_cardIn, hc, List.append_assoc, List.drop_left])
  refine ⟨m, e, r, st, ?_, hcode, hrec⟩
  rw [negotiation_config h h']
  simp [play, Nat.add_assoc]

end Sys2Proof.Machine

open Sys2Proof Sys2Proof.Machine

/-- Settles O4: a step refuses the configuration exactly when `Params.ok` fails, and that is the table of R8. -/
theorem badConfigurationIsRefused : Obligations.BadConfigurationIsRefused := by
  unfold Obligations.BadConfigurationIsRefused
  refine ⟨fun s => ?_, rfl, rfl, rfl⟩
  rw [step_badConfiguration_iff, params_ok_iff]

/-- Settles O22: the payload phase on the four listed bytes, run as one frame. -/
theorem payloadCommandsReceiveFourBytes : Obligations.PayloadCommandsReceiveFourBytes := by
  unfold Obligations.PayloadCommandsReceiveFourBytes
  intro i idx arg hi s c b3 b2 b1 b0 rest hu hf hb hc
  obtain ⟨hexec, hidx⟩ := payloadCommands_exec hi
  have hc' : s.env.cardIn = c.payloadBytes (wordOfBytes b3 b2 b1 b0) ++ rest := by
    rw [hc, CmdScript.payloadBytes, argBytes_wordOfBytes]
  have hlen : (c.payloadBytes (wordOfBytes b3 b2 b1 b0)).length = c.opening.length + 5 := by
    simp [CmdScript.payloadBytes]
  obtain ⟨p, h⟩ := command_payload_listed (s := acquire i s) hf hu.2 hc' arg (hasPayload_of_legal hidx hb)
  obtain ⟨t, ht, hbus, hwork, hdone⟩ := serveFrame_played hu h
  rw [drop_listed hc', hlen, CmdScript.payloadEvents, argBytes_wordOfBytes] at hbus
  exact ⟨t, (hexec s).trans ht, hbus, by rw [hwork]; rfl, by rw [hwork]; rfl, hdone⟩

/-- Settles O51: each phase's fault on its script, then the fault path of R246. -/
theorem laterPhasesFaultWithTheirCodes : Obligations.LaterPhasesFaultWithTheirCodes := by
  unfold Obligations.LaterPhasesFaultWithTheirCodes
  constructor
  · intro s q f rest hu hs hq hf hc
    obtain ⟨k, e, r, hn, hidx, harg, hcodes⟩ := negotiation_voltageFault (s := acquire .startup s) hq hf hu.2 hc
    obtain ⟨t, ht, hdone, hsession, hbus, hlog⟩ := startup_fault_played hu hs hn
    rw [drop_listed hc] at hbus
    rw [hidx, harg] at hlog
    rw [← hcodes]
    exact ⟨t, ht, hdone, hsession, hbus, hlog⟩
  · intro s q is last f rest hu hs hq hi hr hl hn hf hc
    obtain ⟨k, e, r, st, hneg, hcode, hrec⟩ :=
      negotiation_configFault (s := acquire .startup s) hq hi hr hl hn hf hu.2 hc
    obtain ⟨t, ht, hdone, hsession, hbus, hlog⟩ := startup_fault_played hu hs hneg
    rw [drop_listed hc] at hbus
    rw [hrec] at hlog
    rw [← hcode]
    exact ⟨t, ht, hdone, hsession, hbus, hlog⟩
end

section
/-!
PROOFS. The reset table of R50.
-/

open Sys2Proof Sys2Proof.Machine

/-- Settles O1: `State.reset` is a literal, so each row of the table is one of its fields as written; the `ready` output
is the test of a `STATE` that is Uninitialized. -/
theorem resetSetsTheTable : Obligations.ResetSetsTheTable := by
  unfold Obligations.ResetSetsTheTable
  have hstate : State.reset.session.state = .uninitialized := rfl
  have hready : State.reset.session.state.isReady = false := by rw [hstate]; rfl
  exact ⟨hstate, rfl, rfl, rfl, rfl, rfl, rfl, rfl, rfl, rfl, hready⟩
end

section
/-!
PROOFS. The fields of a command frame and their order on the wire (R90, R63, R64), and the reserved request codes (R102).
-/

namespace Sys2Proof.Machine

open Sys2Proof

/-! ### The two bytes of a frame with fixed bits -/

/-- The first byte is the index under the start bit 0 and the transmission bit 1. -/
theorem frameHead_eq_or (idx : BitVec 6) : frameHead idx = 0x40#8 ||| idx.setWidth 8 := by
  rw [frameHead, BitVec.append_def]
  rfl

/-- The last byte is the CRC-7 over the end bit 1. -/
theorem append_endBit_eq_or (c : BitVec 7) : c ++ 1#1 = c.setWidth 8 <<< 1 ||| 1#8 := by
  rw [BitVec.append_def, BitVec.shiftLeftZeroExtend_eq]
  rfl

/-! ### The fields of a frame -/

section
variable (idx : BitVec 6) (arg : Word)

theorem encodeFrame_startBit : (encodeFrame idx arg).getLsbD 47 = false := by
  simp only [encodeFrame, frameHead, BitVec.getLsbD_append]
  rfl

theorem encodeFrame_transmissionBit : (encodeFrame idx arg).getLsbD 46 = true := by
  simp only [encodeFrame, frameHead, BitVec.getLsbD_append]
  rfl

theorem encodeFrame_index : (encodeFrame idx arg).extractLsb' 40 6 = idx := by
  rw [encodeFrame, frameHead, BitVec.extractLsb'_append_eq_of_le (by decide),
    BitVec.extractLsb'_append_eq_of_le (by decide)]
  exact BitVec.extractLsb'_append_eq_right

theorem encodeFrame_argument : (encodeFrame idx arg).extractLsb' 8 32 = arg := by
  rw [encodeFrame, BitVec.extractLsb'_append_eq_of_le (by decide)]
  exact BitVec.extractLsb'_append_eq_right

theorem encodeFrame_crc : (encodeFrame idx arg).extractLsb' 1 7 = frameCrc idx arg := by
  rw [encodeFrame, BitVec.extractLsb'_append_eq_of_add_le (by decide)]
  exact BitVec.extractLsb'_append_eq_left

theorem encodeFrame_endBit : (encodeFrame idx arg).getLsbD 0 = true := by
  simp only [encodeFrame, BitVec.getLsbD_append]
  rfl

/-- The first five bytes of a frame are the ones its CRC-7 is computed over. -/
theorem encodeFrame_checkedBytes :
    [(encodeFrame idx arg).extractLsb' 40 8, (encodeFrame idx arg).extractLsb' 32 8,
      (encodeFrame idx arg).extractLsb' 24 8, (encodeFrame idx arg).extractLsb' 16 8,
      (encodeFrame idx arg).extractLsb' 8 8] = frameHead idx :: argBytes arg :=
  congrArg (List.take 5) (Laws.Canonical.commandBytes_eq idx arg)

end

/-! ### The order on the wire -/

/-- A byte cut out of a word goes on the wire as the word's bits, from the highest downwards (R64). -/
theorem wireBits_extractLsb' {w : Nat} (f : BitVec w) (n : Nat) :
    wireBits (f.extractLsb' n 8) = (List.range 8).map (fun i => f.getLsbD (n + (7 - i))) := by
  simp [wireBits, List.range_succ]

/-- The six bytes of a frame put its bits on the wire from bit 47 down to bit 0 (R90, R132). -/
theorem frameBytes_flatMap_wireBits (f : BitVec 48) :
    (frameBytes f).flatMap wireBits = (List.range 48).map (fun i => f.getLsbD (47 - i)) := by
  simp only [frameBytes, List.flatMap_cons, List.flatMap_nil, wireBits_extractLsb']
  rfl

/-! ### The reserved request codes -/

/-- Each reserved code is answered at once with -8 (R102). -/
theorem exec_reserved {i : Instr} (s : State)
    (hi : i ∈ [Instr.reserved9, .reservedA, .reservedB, .reservedC, .reservedD, .reservedE, .reservedF]) :
    exec i s = answerReserved s := by
  simp only [List.mem_cons, List.not_mem_nil, or_false] at hi
  rcases hi with rfl | rfl | rfl | rfl | rfl | rfl | rfl <;> rfl

end Sys2Proof.Machine

open Sys2Proof Sys2Proof.Machine

/-- Settles O5: the fields are the four parts the encoder puts together, the CRC-7 is that of the first five bytes, and
each byte goes on the wire from its highest bit. -/
theorem frameHasTheFieldsOfR90 : Obligations.FrameHasTheFieldsOfR90 := by
  unfold Obligations.FrameHasTheFieldsOfR90
  intro idx arg f
  have hcrc : f.extractLsb' 1 7 = crc7 [f.extractLsb' 40 8, f.extractLsb' 32 8, f.extractLsb' 24 8,
      f.extractLsb' 16 8, f.extractLsb' 8 8] := by
    rw [encodeFrame_crc, encodeFrame_checkedBytes, frameCrc]
  have hbytes : commandBytes idx arg = [0x40#8 ||| idx.setWidth 8, arg.extractLsb' 24 8, arg.extractLsb' 16 8,
      arg.extractLsb' 8 8, arg.extractLsb' 0 8, (frameCrc idx arg).setWidth 8 <<< 1 ||| 1#8] := by
    rw [Laws.Canonical.commandBytes_eq, frameHead_eq_or, append_endBit_eq_or]
    rfl
  exact ⟨encodeFrame_startBit idx arg, encodeFrame_transmissionBit idx arg, encodeFrame_index idx arg,
    encodeFrame_argument idx arg, hcrc, encodeFrame_endBit idx arg, hbytes, frameBytes_flatMap_wireBits f⟩

/-- Settles O16: the reserved codes share one answer, a response without the lock and nothing else. -/
theorem reservedCodesGiveGeneric : Obligations.ReservedCodesGiveGeneric := by
  unfold Obligations.ReservedCodesGiveGeneric
  intro i hi s
  rw [exec_reserved s hi]
  rfl
end

section
/-!
PROOFS. The translation of a sector to a CMD17, CMD18 or CMD24 argument (R190, R192).
-/

namespace Sys2Proof.Machine

open Sys2Proof

/-- A high-capacity card is addressed by sector (R190). -/
@[simp] theorem translateSector_high (s : Word) : translateSector .high s = s := rfl

/-- A standard-capacity card is addressed by byte, and the byte offset keeps its low 32 bits (R190, R192). -/
theorem translateSector_standard_toNat (s : Word) :
    (translateSector .standard s).toNat = s.toNat * sectorSize % 2 ^ 32 := by
  rw [translateSector, BitVec.toNat_shiftLeft, Nat.shiftLeft_eq]
  rfl

/-- Below sector 2^23 the byte offset fits in 32 bits. -/
theorem translateSector_standard_toNat_of_lt {s : Word} (hs : s.toNat < 2 ^ 23) :
    (translateSector .standard s).toNat = s.toNat * sectorSize := by
  have hfits : s.toNat * sectorSize < 2 ^ 32 := by rw [sectorSize]; omega
  rw [translateSector_standard_toNat, Nat.mod_eq_of_lt hfits]

/-- Below sector 2^23 no two sectors of a standard-capacity card share an address (R192). -/
theorem translateSector_standard_inj {a b : Word} (ha : a.toNat < 2 ^ 23) (hb : b.toNat < 2 ^ 23)
    (h : translateSector .standard a = translateSector .standard b) : a = b := by
  have hoffset : a.toNat * sectorSize = b.toNat * sectorSize := by
    rw [← translateSector_standard_toNat_of_lt ha, ← translateSector_standard_toNat_of_lt hb, h]
  exact BitVec.eq_of_toNat_eq (Nat.eq_of_mul_eq_mul_right (by decide) hoffset)

/-- 2^23 sectors on, the byte offset has gone round by 2^32 (R192). -/
theorem translateSector_standard_add_alias (a : Word) :
    translateSector .standard (a + 0x00800000#32) = translateSector .standard a := by
  have hwrap : 0x00800000#32 <<< 9 = 0#32 := by decide
  simp only [translateSector]
  rw [BitVec.shiftLeft_add_distrib, hwrap, BitVec.add_zero]

end Sys2Proof.Machine

open Sys2Proof Sys2Proof.Machine

/-- Settles O10: the byte offset is `s * 512` mod 2^32, which does not wrap below sector 2^23 and repeats
every 2^23 sectors. -/
theorem translateGivesOffsetOrIndex : Obligations.TranslateGivesOffsetOrIndex := by
  unfold Obligations.TranslateGivesOffsetOrIndex
  exact ⟨fun s => ⟨translateSector_standard_toNat s, translateSector_high s⟩,
    fun _ _ => translateSector_standard_inj, translateSector_standard_add_alias⟩
end

section
/-!
PROOFS. The bound of R247 on the Xfer events of one STARTUP: what each part of the transport and each phase of the
negotiation draws from the card at most, whatever is answered and whatever arrives.
-/

namespace Sys2Proof.Machine

open Sys2Proof

variable {α β : Type} {p : Params} {m n k : Nat}

/-! ### Answers drawn -/

/-- The parameters are `p`, and at most `d` answers of the card have been drawn: an Xfer draws one (R40, R41). -/
def drawnWithin (p : Params) (d : Nat) (s : State) : Prop := s.params = p ∧ s.env.drawn ≤ d

/-- With the parameters `p`, the run `f` draws at most `n` answers, whether it ends or is halted. -/
def drawsAtMost (p : Params) (n : Nat) (f : State → Ran α) : Prop :=
  ∀ s, s.params = p →
    sat (f s) (fun _ => drawnWithin p (s.env.drawn + n)) (drawnWithin p (s.env.drawn + n))

theorem drawnWithin_mono {d e : Nat} (h : d ≤ e) {s : State} (hs : drawnWithin p d s) : drawnWithin p e s :=
  ⟨hs.1, hs.2.trans h⟩

theorem drawnWithin_self {s : State} (hs : s.params = p) (n : Nat) : drawnWithin p (s.env.drawn + n) s :=
  ⟨hs, Nat.le_add_right _ _⟩

theorem drawsAtMost_mono {f : State → Ran α} (hf : drawsAtMost p m f) (h : m ≤ n) : drawsAtMost p n f :=
  fun s hs => sat_mono (hf s hs) (fun _ _ => drawnWithin_mono (by omega)) fun _ => drawnWithin_mono (by omega)

theorem drawsAtMost_done (a : α) : drawsAtMost p n (Ran.done a) := fun _ hs => drawnWithin_self hs n

/-- The answers drawn by two pieces of work, one after the other, add up. -/
theorem drawsAtMost_andThen {f : State → Ran α} {g : α → State → Ran β} (hf : drawsAtMost p m f)
    (hg : ∀ a, drawsAtMost p n (g a)) (h : m + n ≤ k) : drawsAtMost p k fun s => (f s).andThen g := by
  intro s hs
  have hfirst := sat_mono (hf s hs) (fun _ _ ht => ht) fun _ => drawnWithin_mono (e := s.env.drawn + k) (by omega)
  refine sat_andThen hfirst fun a t ⟨hp, hd⟩ => ?_
  exact sat_mono (hg a t hp) (fun _ _ => drawnWithin_mono (by omega)) fun _ => drawnWithin_mono (by omega)

/-! ### The transport -/

/-- What lands before an event draws nothing, a reset included. -/
theorem tick_draws : drawsAtMost p 0 tick := by
  intro s hs
  refine tick_keeps (I := drawnWithin p (s.env.drawn + 0)) ?_ ?_ ?_ ?_ s (drawnWithin_self hs 0)
  · exact fun t q ht => by simpa [drawnWithin] using ht
  · exact fun t a v ht => by simpa [drawnWithin] using ht
  · exact fun _ _ ht => ht
  · exact fun _ _ ht => ht

@[simp] theorem drawByte_drawn (s : State) : (drawByte s).2.env.drawn = s.env.drawn + 1 := by
  unfold drawByte
  split <;> rfl

@[simp] theorem drawByte_params (s : State) : (drawByte s).2.params = s.params := by
  unfold drawByte
  split <;> rfl

theorem xfer_draws (o : Byte) : drawsAtMost p 1 (xfer o) :=
  drawsAtMost_andThen tick_draws
    (fun _ s hs => ⟨(drawByte_params s).trans hs, (drawByte_drawn s).le⟩) (Nat.zero_add 1).le

theorem assertCS_draws : drawsAtMost p 0 assertCS :=
  drawsAtMost_andThen tick_draws (fun _ _ hs => drawnWithin_self hs 0) le_rfl

theorem deassertCS_draws : drawsAtMost p 0 deassertCS :=
  drawsAtMost_andThen tick_draws (fun _ _ hs => drawnWithin_self hs 0) le_rfl

theorem setClock_draws (r : ClkMode) : drawsAtMost p 0 (setClock r) :=
  drawsAtMost_andThen tick_draws (fun _ _ hs => drawnWithin_self hs 0) le_rfl

theorem clockIdle_draws (n : Nat) : drawsAtMost p n (clockIdle n) := by
  induction n with
  | zero => exact drawsAtMost_done ()
  | succ n ih => exact drawsAtMost_andThen (xfer_draws _) (fun _ => ih) (by omega)

/-! ### One command -/

theorem waitIdleLoop_draws (n : Nat) : drawsAtMost p n (waitIdleLoop n) := by
  induction n with
  | zero => exact drawsAtMost_done _
  | succ n ih =>
    refine drawsAtMost_andThen (n := n) (xfer_draws _) (fun b s hs => ?_) (by omega)
    dsimp only
    split_ifs
    · exact drawnWithin_self hs n
    · exact ih _ hs

theorem waitIdle_draws : drawsAtMost p p.nReadyPoll waitIdle := by
  rintro s rfl
  exact waitIdleLoop_draws _ _ rfl

theorem sendBytes_draws (d : List Byte) : drawsAtMost p d.length (sendBytes d) := by
  induction d with
  | nil => exact drawsAtMost_done ()
  | cons b d ih =>
    refine drawsAtMost_andThen (n := d.length) (xfer_draws _) (fun v s hs => ?_) (by simp [Nat.add_comm])
    dsimp only
    split_ifs
    · exact ih s hs
    · exact ih _ hs

theorem sendFrame_draws (idx : BitVec 6) (arg : Word) : drawsAtMost p 6 (sendFrame idx arg) :=
  fun s hs => sat_andThen (sendBytes_draws (commandBytes idx arg) (loadFrame idx arg s) hs) fun _ _ ht => ht

theorem pollLoop_draws (n : Nat) : drawsAtMost p n (pollLoop n) := by
  induction n with
  | zero => exact drawsAtMost_done _
  | succ n ih =>
    refine drawsAtMost_andThen (n := n) (xfer_draws _) (fun b s hs => ?_) (by omega)
    dsimp only
    split_ifs
    · exact ih _ hs
    · exact drawnWithin_self hs n

theorem pollResponse_draws : drawsAtMost p p.nRespPoll pollResponse := by
  rintro s rfl
  exact pollLoop_draws _ _ rfl

theorem cmdBegin_draws (idx : BitVec 6) (arg : Word) :
    drawsAtMost p (p.nReadyPoll + 6 + p.nRespPoll) (cmdBegin idx arg) := by
  intro s hs
  refine drawsAtMost_andThen (n := p.nReadyPoll + 6 + p.nRespPoll) assertCS_draws (fun _ =>
    drawsAtMost_andThen waitIdle_draws (fun e => ?_) (Nat.add_assoc _ _ _).ge) (Nat.zero_add _).le
    { s with work.idx := idx, work.arg := arg } hs
  cases e with
  | some k => exact drawsAtMost_done _
  | none =>
    refine drawsAtMost_andThen (sendFrame_draws idx arg) (fun e => ?_) le_rfl
    cases e with
    | some k => exact drawsAtMost_done _
    | none => exact pollResponse_draws

theorem cmdEnd_draws : drawsAtMost p 1 cmdEnd :=
  drawsAtMost_andThen deassertCS_draws
    (fun _ => drawsAtMost_andThen (xfer_draws _) (fun _ => drawsAtMost_done (n := 0) ()) le_rfl) le_rfl

theorem readPayload_draws : drawsAtMost p 4 readPayload :=
  drawsAtMost_andThen (xfer_draws _) (fun _ => drawsAtMost_andThen (xfer_draws _) (fun _ =>
    drawsAtMost_andThen (xfer_draws _) (fun _ => drawsAtMost_andThen (n := 0) (xfer_draws _)
      (fun _ _ hs => drawnWithin_self hs 0) le_rfl) le_rfl) le_rfl) le_rfl

/-- One Command draws at most `B_cmd` answers (R139, R247). -/
theorem command_draws (idx : BitVec 6) (arg : Word) : drawsAtMost p (commandBound p) (command idx arg) := by
  refine drawsAtMost_andThen (cmdBegin_draws idx arg) (fun r => drawsAtMost_andThen (m := 4) ?_
    (fun _ => drawsAtMost_andThen cmdEnd_draws (fun _ => drawsAtMost_done (n := 0) r) le_rfl) le_rfl) le_rfl
  intro s hs
  split_ifs
  · exact readPayload_draws s hs
  · exact drawnWithin_self hs 4

/-- An application command is two Commands at most (R138). -/
theorem appCommand_draws (idx : BitVec 6) (arg : Word) :
    drawsAtMost p (2 * commandBound p) (appCommand idx arg) := by
  refine drawsAtMost_andThen (n := commandBound p) (command_draws 55 0) (fun r s hs => ?_) (by omega)
  split_ifs
  · exact command_draws idx arg s hs
  · exact drawnWithin_self hs _

/-! ### The phases of STARTUP -/

/-- One Command in each attempt (R234). -/
theorem probeLoop_draws (n : Nat) : drawsAtMost p (commandBound p * n) (probeLoop n) := by
  induction n with
  | zero => exact drawsAtMost_done _
  | succ n ih =>
    refine drawsAtMost_andThen (n := commandBound p * n) (command_draws 0 0) (fun r s hs => ?_)
      ((Nat.mul_add_one _ n).trans (Nat.add_comm _ _)).ge
    dsimp only
    split_ifs
    · exact drawnWithin_self hs _
    · split <;> exact drawnWithin_self hs _
    · split
      · exact ih _ hs
      · exact ih _ hs
      · exact drawnWithin_self hs _

theorem probing_draws : drawsAtMost p (p.nPowerup + commandBound p * p.nResetAttempts) probing := by
  have hclock : drawsAtMost p p.nPowerup fun s => clockIdle s.params.nPowerup s := by
    rintro s rfl
    exact clockIdle_draws _ _ rfl
  have hprobe : drawsAtMost p (commandBound p * p.nResetAttempts) fun s =>
      probeLoop s.params.nResetAttempts { s with work.attempts := BitVec.ofNat 32 s.params.nResetAttempts } := by
    rintro s rfl
    exact probeLoop_draws _ _ rfl
  have hpower := drawsAtMost_andThen hclock (fun _ => hprobe) le_rfl
  exact fun s hs => drawsAtMost_andThen (setClock_draws .slow)
    (fun _ => drawsAtMost_andThen deassertCS_draws (fun _ => hpower) (Nat.zero_add _).le) (Nat.zero_add _).le
    { s with session.state := .probing, session.capClass := .standard } hs

theorem voltageCheck_draws : drawsAtMost p (commandBound p) voltageCheck := by
  intro s hs
  refine drawsAtMost_andThen (n := 0) (command_draws 8 cmd8Argument) (fun r s hs => ?_) le_rfl
    { s with session.state := .voltageCheck } hs
  dsimp only
  split
  · exact drawnWithin_self hs 0
  · split_ifs <;> exact drawnWithin_self hs 0

theorem negotiate_draws : drawsAtMost p (2 * commandBound p) negotiate := by
  intro s hs
  unfold negotiate
  split
  · exact drawsAtMost_mono (command_draws 1 0) (by omega) s hs
  · refine drawsAtMost_andThen (n := 0) (appCommand_draws 41 _) (fun r s hs => ?_) le_rfl s hs
    rw [sat_done]
    split_ifs <;> exact drawnWithin_self hs 0

/-- Two Commands at most in each iteration (R238). -/
theorem idleWaitLoop_draws (n : Nat) : drawsAtMost p (2 * commandBound p * n) (idleWaitLoop n) := by
  induction n with
  | zero => exact drawsAtMost_done _
  | succ n ih =>
    refine drawsAtMost_andThen (n := 2 * commandBound p * n) negotiate_draws (fun r s hs => ?_)
      ((Nat.mul_add_one _ n).trans (Nat.add_comm _ _)).ge
    dsimp only
    split_ifs
    · exact drawnWithin_self hs _
    · exact drawnWithin_self hs _
    · exact ih _ hs

theorem idleWait_draws : drawsAtMost p (2 * commandBound p * p.nIdleWait) idleWait := by
  rintro s rfl
  exact idleWaitLoop_draws _ _ rfl

theorem capacityCheck_draws : drawsAtMost p (commandBound p) capacityCheck := by
  intro s hs
  refine drawsAtMost_andThen (n := 0) (command_draws 58 0) (fun r s hs => ?_) le_rfl
    { s with session.state := .capacityCheck } hs
  dsimp only
  split
  · exact drawnWithin_self hs 0
  · split_ifs <;> exact drawnWithin_self hs 0

/-- The next phase runs only after one that passed, so two phases draw the sum at most. -/
theorem thenPhase_draws {f g : State → Ran Verdict} (hf : drawsAtMost p m f) (hg : drawsAtMost p n g) :
    drawsAtMost p (m + n) fun s => thenPhase (f s) g := by
  refine drawsAtMost_andThen hf (fun v => ?_) le_rfl
  cases v with
  | pass => exact hg
  | fault k r => exact drawsAtMost_done _

theorem configuring_draws : drawsAtMost p (commandBound p + commandBound p) configuring := by
  have hcommand : ∀ idx arg, drawsAtMost p (commandBound p) fun s =>
      (command idx arg s).andThen fun r s => .done (configResult r) s := fun idx arg =>
    drawsAtMost_andThen (command_draws idx arg) (fun r => drawsAtMost_done (n := 0) _) le_rfl
  exact fun s hs => thenPhase_draws (hcommand 16 cmd16Argument) (hcommand 59 cmd59Argument)
    { s with session.state := .configuring } hs

/-- The five phases together (R231, R247). -/
theorem negotiation_draws : drawsAtMost p (startupBound p) negotiation := by
  have hphases := thenPhase_draws (thenPhase_draws (thenPhase_draws (thenPhase_draws probing_draws
    voltageCheck_draws) idleWait_draws) capacityCheck_draws) (configuring_draws (p := p))
  refine drawsAtMost_mono hphases (le_of_eq ?_)
  unfold startupBound
  ring

/-- Neither end of a negotiation exchanges a byte (R245, R246). -/
theorem concludeStartup_draws (v : Verdict) : drawsAtMost p 0 (concludeStartup v) := by
  cases v with
  | pass => exact drawsAtMost_andThen (n := 0) (setClock_draws .fast) (fun _ _ hs => drawnWithin_self hs 0) le_rfl
  | fault k r => exact fun s hs => ⟨(takeFault_params k r s).trans hs, by simp⟩

theorem startupBody_draws : drawsAtMost p (startupBound p) startupBody := by
  intro s hs
  unfold startupBody
  split
  · exact drawnWithin_self hs _
  · exact drawnWithin_self hs _
  · exact drawsAtMost_andThen negotiation_draws concludeStartup_draws le_rfl s hs

/-! ### A whole request -/

theorem completeRequest_draws (r : Reply) : drawsAtMost p 0 (completeRequest r) :=
  drawsAtMost_andThen tick_draws (fun _ _ hs => drawnWithin_self hs 0) le_rfl

/-- A request draws what its body draws at most; one that waits for the lock draws nothing. -/
theorem serveRequest_drawn {i : Instr} {body : State → Ran Reply} {s t : State}
    (hb : drawsAtMost s.params n body) (h : serveRequest i body s = .next t) :
    t.env.drawn ≤ s.env.drawn + n := by
  unfold serveRequest underLock at h
  split at h
  · obtain rfl := Host.Outcome.next.inj h
    exact Nat.le_add_right _ _
  · obtain rfl := Host.Outcome.next.inj h
    have hrun := drawsAtMost_andThen hb completeRequest_draws le_rfl (acquire i s) rfl
    exact (sat_final hrun).2

end Sys2Proof.Machine

open Sys2Proof Sys2Proof.Machine

/-- Settles O53: the bounds of the phases add up to that of R247, and neither the end of a negotiation nor the end of the
request draws an answer. -/
theorem startupIsBounded : Obligations.StartupIsBounded := by
  unfold Obligations.StartupIsBounded
  exact fun s t h => serveRequest_drawn startupBody_draws h
end

section
/-!
PROOFS. A sector request outside Ready (R270).
-/

namespace Sys2Proof.Machine

open Sys2Proof

variable {i : Instr} {s : State}

/-- A sector request whose buffer is in range is one critical section behind the Ready check (R270, R273, R278, R279,
R281). -/
theorem exec_sectorRequest (hi : isSectorRequest i = true) (hw : i.wellFormed s.params.bufAddrW = true) :
    ∃ body, exec i s = serveRequest i (whenReady body) s := by
  cases i with
  | readSector | readRange | writeSector | writeRange => exact ⟨_, withBuffer_inRange hw⟩
  | _ => exact absurd hi Bool.false_ne_true

/-- Outside Ready the body is not run, and the state is as it was. -/
theorem whenReady_notReady (h : s.session.state ≠ .ready) (body : State → Ran Code) :
    whenReady body s = .done (resultReply (-7)) s := if_neg h

end Sys2Proof.Machine

open Sys2Proof Sys2Proof.Machine

/-- Settles O31: the Ready check ends the request right after the lock is taken, so between the state it was given and
the one it leaves there are only the reply and `RESULT`. -/
theorem sectorRequestsNeedReady : Obligations.SectorRequestsNeedReady := by
  unfold Obligations.SectorRequestsNeedReady
  intro i s hi hw ⟨hlock, hquiet⟩ hstate
  obtain ⟨body, hexec⟩ := exec_sectorRequest hi hw
  have hcheck : whenReady body (acquire i s) = .done (resultReply (-7)) (acquire i s) :=
    whenReady_notReady (s := acquire i s) hstate body
  have hdone : requestDone s (respond s.sync.caller (resultReply (-7))
      (release { acquire i s with work.result := -7 })) (-7) := ⟨rfl, rfl, rfl, rfl, rfl, rfl, rfl, rfl⟩
  exact ⟨_, hexec.trans (serveRequest_done hlock hcheck hquiet), hdone, rfl, rfl, rfl, rfl, rfl, rfl⟩
end

section
/-!
PROOFS. IS_READY (R304) and CLEAR_DIAGNOSTICS (R306).
-/

namespace Sys2Proof.Machine

open Sys2Proof

/-- The `ready` output is the test of `STATE` for Ready (R45). -/
theorem isReady_eq_decide (q : SessionState) : q.isReady = decide (q = .ready) := rfl

/-- IS_READY is its reply and nothing else: neither the lock nor any other register is looked at (R304). -/
theorem exec_isReady (s : State) : exec .isReady s = .next (respond s.sync.caller (readyReply s) s) := rfl

/-- CLEAR_DIAGNOSTICS is one critical section around the emptying of the log (R306). -/
theorem exec_clearDiagnostics (s : State) :
    exec .clearDiagnostics s = serveRequest .clearDiagnostics (fun s => .done (resultReply 0) (logClear s)) s := rfl

/-- Without a log there are no records and no drops (R32, R34). -/
theorem logInv_disabled {p : Params} {l : Log} (hinv : logInv p l) (hoff : p.logEnabled = false) : l = ⟨[], 0⟩ :=
  hinv.2 hoff

end Sys2Proof.Machine

open Sys2Proof Sys2Proof.Machine

/-- Settles O15: the request is answered with the `ready` output before any lock is taken. -/
theorem isReadyReportsTheReadyOutput : Obligations.IsReadyReportsTheReadyOutput := by
  unfold Obligations.IsReadyReportsTheReadyOutput
  intro s
  rw [exec_isReady, readyReply, isReady_eq_decide]
  rfl

/-- Settles O19: with the lock free the body runs at once and empties the log, and the reply carries the result alone;
without a log, what is emptied was empty by `logInv`. -/
theorem clearDiscardsTheLog : Obligations.ClearDiscardsTheLog := by
  unfold Obligations.ClearDiscardsTheLog
  intro s ⟨hlock, hquiet⟩
  have hserved := serveRequest_done (i := .clearDiagnostics)
    (body := fun s => .done (resultReply 0) (logClear s)) hlock rfl hquiet
  have hdone : requestDone s (respond s.sync.caller (resultReply 0)
      (release { logClear (acquire .clearDiagnostics s) with work.result := 0 })) 0 :=
    ⟨rfl, rfl, rfl, rfl, rfl, rfl, rfl, rfl⟩
  exact ⟨_, (exec_clearDiagnostics s).trans hserved, hdone, rfl, rfl, rfl, rfl, rfl,
    fun hoff hinv => (logInv_disabled hinv hoff).symm⟩
end

section
/-!
PROOFS. The encodings: decode and encode are inverse (R92, R100), written-out frames and request codes decode, and the
two checksums are linear and have their check values (R130, R200).
-/

namespace Sys2Proof.Machine

open Sys2Proof

/-! ### Decoding what was encoded -/

/-- The six bytes of a frame decode by the row of its index, its argument and its CRC-7 (R90, R92). -/
theorem decodeFrame_commandBytes (idx : BitVec 6) (arg : Word) (buf : Nat) :
    decodeFrame (commandBytes idx arg) buf = frameRow idx arg (frameCrc idx arg) buf := by
  have hstart : (frameHead idx).extractLsb' 6 2 = 0b01#2 := BitVec.extractLsb'_append_eq_left
  have hindex : (frameHead idx).extractLsb' 0 6 = idx := BitVec.extractLsb'_append_eq_right
  have hcrc : (frameCrc idx arg ++ 1#1).extractLsb' 1 7 = frameCrc idx arg := BitVec.extractLsb'_append_eq_left
  have hend : (frameCrc idx arg ++ 1#1).getLsbD 0 = true := by
    rw [BitVec.getLsbD_append]
    rfl
  rw [Laws.Canonical.commandBytes_eq]
  simp only [argBytes, decodeFrame, List.cons_append, List.nil_append]
  rw [hstart, hend, hindex, hcrc, wordOfBytes_argBytes]
  simp

/-- A fixed row accepts its own frame. -/
theorem fixedFrame_self (idx : BitVec 6) (arg : Word) (i : Instr) :
    fixedFrame idx arg i arg (frameCrc idx arg) = .ok i := by
  simp [fixedFrame]

/-- A fixed row accepts no other argument. -/
theorem fixedFrame_ok {idx : BitVec 6} {fixed arg : Word} {i j : Instr} {crc : BitVec 7}
    (h : fixedFrame idx fixed i arg crc = .ok j) : arg = fixed ∧ j = i := by
  unfold fixedFrame at h
  split_ifs at h with harg hcrc
  · exact ⟨not_not.mp harg, (Except.ok.inj h).symm⟩

/-- A frame's port item decodes to what the row of its index makes of it. -/
theorem decode_frameItem {idx : BitVec 6} {arg : Word} {buf : Nat} {i : Instr}
    (h : frameRow idx arg (frameCrc idx arg) buf = .ok i) : decode (.frame (commandBytes idx arg) buf) = .ok i :=
  (decodeFrame_commandBytes idx arg buf).trans h

/-- The two arguments of ACMD41 differ (R93). -/
theorem acmd41Argument_false_ne_true : acmd41Argument false ≠ acmd41Argument true := by decide

/-! ### Encoding what was decoded -/

/-- A byte is its high part over its low part. -/
theorem byte_split (m n : Nat) (h : m + n = 8) (b : Byte) :
    b.extractLsb' n m ++ b.extractLsb' 0 n = b.cast h.symm := by
  refine BitVec.eq_of_getLsbD_eq fun i hi => ?_
  rw [BitVec.getLsbD_append, BitVec.getLsbD_cast, BitVec.getLsbD_extractLsb', BitVec.getLsbD_extractLsb']
  by_cases hlow : i < n
  · simp [hlow]
  · have hhigh : i - n < m := by omega
    simp [hlow, hhigh, Nat.add_sub_cancel' (Nat.le_of_not_lt hlow)]

/-- A frame with the right CRC-7 that decodes is the frame of some index and argument, decoded by their row. -/
theorem decodeFrame_ok {bytes : List Byte} {buf : Nat} {i : Instr} (hcrc : frameCrcOk bytes = true)
    (h : decodeFrame bytes buf = .ok i) :
    ∃ idx arg, bytes = commandBytes idx arg ∧ frameRow idx arg (frameCrc idx arg) buf = .ok i := by
  unfold decodeFrame at h
  split at h
  · rename_i b0 b1 b2 b3 b4 b5
    split_ifs at h with hstart hend
    have hb0 : frameHead (b0.extractLsb' 0 6) = b0 := by
      rw [frameHead, ← not_not.mp hstart]
      exact byte_split 2 6 rfl b0
    have hend' : b5.extractLsb' 0 1 = 1#1 := by
      refine BitVec.eq_of_getLsbD_eq fun j hj => ?_
      obtain rfl : j = 0 := by omega
      rw [BitVec.getLsbD_extractLsb', Nat.zero_add, Bool.of_not_eq_false hend]
      rfl
    have hargs := argBytes_wordOfBytes b1 b2 b3 b4
    have hb5 : frameCrc (b0.extractLsb' 0 6) (wordOfBytes b1 b2 b3 b4) = b5.extractLsb' 1 7 := by
      rw [frameCrc, hb0, hargs, eq_comm]
      exact beq_iff_eq.mp hcrc
    refine ⟨b0.extractLsb' 0 6, wordOfBytes b1 b2 b3 b4, ?_, hb5 ▸ h⟩
    have hlast : b5.extractLsb' 1 7 ++ 1#1 = b5 := by
      rw [← hend']
      exact byte_split 7 1 rfl b5
    rw [Laws.Canonical.commandBytes_eq, hb0, hargs, hb5, hlast]
    rfl
  · cases h

/-- A fixed row gives an instruction whose port item has its frame and no buffer base. -/
theorem encode_of_fixedFrame {idx : BitVec 6} {fixed arg : Word} {i j : Instr} {crc : BitVec 7} (buf : Nat)
    (he : encode i = plainFrame idx fixed)
    (hu : (frameHead idx == frameHead 17 || frameHead idx == frameHead 18 || frameHead idx == frameHead 24) = false)
    (h : fixedFrame idx fixed i arg crc = .ok j) :
    encode j = .frame (commandBytes idx arg) (if usesBuffer (commandBytes idx arg) then buf else 0) := by
  obtain ⟨rfl, rfl⟩ := fixedFrame_ok h
  rw [he, Laws.Canonical.usesBuffer_commandBytes, hu]
  rfl

/-- A row with a data phase gives an instruction whose port item has its frame and the buffer base. -/
theorem encode_of_bufferRow {idx : BitVec 6} {arg : Word} {buf : Nat} {i j : Instr}
    (he : encode i = .frame (commandBytes idx arg) buf)
    (hu : (frameHead idx == frameHead 17 || frameHead idx == frameHead 18 || frameHead idx == frameHead 24) = true)
    (h : (.ok i : Except DecodeError Instr) = .ok j) :
    encode j = .frame (commandBytes idx arg) (if usesBuffer (commandBytes idx arg) then buf else 0) := by
  obtain rfl := Except.ok.inj h
  rw [he, Laws.Canonical.usesBuffer_commandBytes, hu]
  rfl

/-- The row of a frame gives an instruction whose port item has that frame, with the buffer base where it is an operand
(R92). -/
theorem encode_of_frameRow {idx : BitVec 6} {arg : Word} {crc : BitVec 7} {buf : Nat} {i : Instr}
    (h : frameRow idx arg crc buf = .ok i) :
    encode i = .frame (commandBytes idx arg) (if usesBuffer (commandBytes idx arg) then buf else 0) := by
  simp only [frameRow, ite_eq_iff] at h
  rcases h with ⟨rfl, h⟩ | ⟨-, ⟨rfl, h⟩ | ⟨-, ⟨rfl, h⟩ | ⟨-, ⟨rfl, h⟩ | ⟨-, ⟨rfl, h⟩ | ⟨-, ⟨rfl, h⟩ | ⟨-, ⟨rfl, h⟩ |
    ⟨-, ⟨rfl, ⟨-, h⟩ | ⟨-, h⟩⟩ | ⟨-, ⟨rfl, h⟩ | ⟨-, ⟨rfl, h⟩ | ⟨-, ⟨rfl, h⟩ | ⟨-, h⟩⟩⟩⟩⟩⟩⟩⟩⟩⟩⟩
  · exact encode_of_fixedFrame buf rfl (by decide) h
  · exact encode_of_fixedFrame buf rfl (by decide) h
  · exact encode_of_fixedFrame buf rfl (by decide) h
  · exact encode_of_fixedFrame buf rfl (by decide) h
  · exact encode_of_bufferRow rfl (by decide) h
  · exact encode_of_bufferRow rfl (by decide) h
  · exact encode_of_bufferRow rfl (by decide) h
  · exact encode_of_fixedFrame buf rfl (by decide) h
  · exact encode_of_fixedFrame buf rfl (by decide) h
  · exact encode_of_fixedFrame buf rfl (by decide) h
  · exact encode_of_fixedFrame buf rfl (by decide) h
  · exact encode_of_fixedFrame buf rfl (by decide) h
  · cases h

/-- A canonical frame is the port item of the instruction it decodes to. -/
theorem encode_of_decodeFrame {bytes : List Byte} {buf : Nat} {i : Instr}
    (hc : (PortItem.frame bytes buf).canonical = true) (h : decodeFrame bytes buf = .ok i) :
    encode i = .frame bytes buf := by
  simp only [PortItem.canonical, Bool.and_eq_true, Bool.or_eq_true, beq_iff_eq] at hc
  obtain ⟨hcrc, hbuf⟩ := hc
  obtain ⟨idx, arg, rfl, hrow⟩ := decodeFrame_ok hcrc h
  rw [encode_of_frameRow hrow]
  rcases hbuf with hbuf | rfl
  · rw [if_pos hbuf]
  · rw [ite_self]

/-- A request whose unused fields are 0 is the port item of the instruction it decodes to (R42, R300). -/
theorem encode_decodeRequest {r : Request} (h : unusedFieldsZero r = true) : encode (decodeRequest r) = .request r := by
  obtain ⟨op, buf, sector, count⟩ := r
  obtain ⟨v, rfl⟩ : ∃ v : Fin 16, op = BitVec.ofFin v := ⟨op.toFin, rfl⟩
  fin_cases v <;> simp_all [unusedFieldsZero, decodeRequest, encode, plainRequest]

/-! ### The checksums -/

/-- A register that moves linearly with each byte moves linearly with lists of equal length. -/
theorem foldl_xor_linear {n : Nat} {f : BitVec n → Byte → BitVec n}
    (hf : ∀ c d a b, f (c ^^^ d) (a ^^^ b) = f c a ^^^ f d b) : ∀ (a b : List Byte) (c d : BitVec n),
    a.length = b.length → (List.zipWith (· ^^^ ·) a b).foldl f (c ^^^ d) = a.foldl f c ^^^ b.foldl f d
  | [], [], _, _, _ => rfl
  | x :: a, y :: b, c, d, h => by
    simp only [List.zipWith_cons_cons, List.foldl_cons, hf]
    exact foldl_xor_linear hf a b _ _ (Nat.succ.inj h)

/-- Two registers with feedback `g`: the feedback bits add, since two feedbacks cancel. -/
theorem feedback_xor {n : Nat} (u v g : BitVec n) (p q : Bool) :
    (if (p ^^ q) = true then (u ^^^ v) ^^^ g else u ^^^ v) =
      (if p = true then u ^^^ g else u) ^^^ (if q = true then v ^^^ g else v) := by
  have hcancel : u ^^^ v = u ^^^ g ^^^ (v ^^^ g) := by
    rw [BitVec.xor_comm v g, BitVec.xor_assoc, ← BitVec.xor_assoc g, BitVec.xor_self, BitVec.zero_xor]
  cases p <;> cases q
  · rfl
  · exact BitVec.xor_assoc _ _ _
  · change u ^^^ v ^^^ g = u ^^^ g ^^^ v
    ac_rfl
  · exact hcancel

/-- One bit into the CRC-7 register is linear (R130). -/
theorem crc7Bit_xor (c d : BitVec 7) (x y : Bool) : crc7Bit (c ^^^ d) (x ^^ y) = crc7Bit c x ^^^ crc7Bit d y := by
  have hbits : ((c.getLsbD 6 ^^ d.getLsbD 6) ^^ (x ^^ y)) = ((c.getLsbD 6 ^^ x) ^^ (d.getLsbD 6 ^^ y)) := by
    cases c.getLsbD 6 <;> cases d.getLsbD 6 <;> simp
  unfold crc7Bit
  rw [BitVec.getLsbD_xor, BitVec.shiftLeft_xor_distrib, hbits]
  exact feedback_xor _ _ _ _ _

theorem crc7Byte_xor (c d : BitVec 7) (x y : Byte) : crc7Byte (c ^^^ d) (x ^^^ y) = crc7Byte c x ^^^ crc7Byte d y := by
  simp only [crc7Byte, wireBits, List.foldl_cons, List.foldl_nil, BitVec.getLsbD_xor, crc7Bit_xor]

/-- One shift of the CRC-16 register is linear (R200). -/
theorem crc16Shift_xor (c d : Half) : crc16Shift (c ^^^ d) = crc16Shift c ^^^ crc16Shift d := by
  unfold crc16Shift
  rw [BitVec.getLsbD_xor, BitVec.shiftLeft_xor_distrib]
  exact feedback_xor _ _ _ _ _

theorem crc16Byte_xor (c d : Half) (x y : Byte) : crc16Byte (c ^^^ d) (x ^^^ y) = crc16Byte c x ^^^ crc16Byte d y := by
  have happend : (x ^^^ y) ++ 0x00#8 = (x ++ 0x00#8) ^^^ (y ++ 0x00#8) := by
    rw [BitVec.xor_append, BitVec.xor_self]
  have hin : c ^^^ d ^^^ ((x ^^^ y) ++ 0x00#8) = (c ^^^ (x ++ 0x00#8)) ^^^ (d ^^^ (y ++ 0x00#8)) := by
    rw [happend]
    ac_rfl
  simp only [crc16Byte, hin, crc16Shift_xor]

theorem crc7_xor {a b : List Byte} (h : a.length = b.length) :
    crc7 (List.zipWith (· ^^^ ·) a b) = crc7 a ^^^ crc7 b := foldl_xor_linear crc7Byte_xor a b 0 0 h

theorem crc16_xor {a b : List Byte} (h : a.length = b.length) :
    crc16 (List.zipWith (· ^^^ ·) a b) = crc16 a ^^^ crc16 b := foldl_xor_linear crc16Byte_xor a b 0 0 h

/-- C1 to C6 of 95_test_vectors.md. -/
theorem crc7_checkValues : crc7 [] = 0x00#7 ∧
    crc7 [0x31, 0x32, 0x33, 0x34, 0x35, 0x36, 0x37, 0x38, 0x39] = 0x75#7 ∧
    crc7 [0x40, 0x00, 0x00, 0x00, 0x00] = 0x4A#7 ∧ crc7 [0x48, 0x00, 0x00, 0x01, 0xAA] = 0x43#7 ∧
    crc7 [0x77, 0x00, 0x00, 0x00, 0x00] = 0x32#7 ∧ crc7 [0x7F, 0xFF, 0xFF, 0xFF, 0xFF] = 0x0C#7 := by
  decide +kernel

set_option maxRecDepth 10000 in
/-- D1 to D8 of 95_test_vectors.md, seven of them of 512 bytes. -/
theorem crc16_checkValues : crc16 [0x31, 0x32, 0x33, 0x34, 0x35, 0x36, 0x37, 0x38, 0x39] = 0x31C3#16 ∧
    crc16 (List.replicate 512 0x00#8) = 0x0000#16 ∧ crc16 (List.replicate 512 0xFF#8) = 0x7FA1#16 ∧
    crc16 ((List.range 512).map (BitVec.ofNat 8)) = 0x40DA#16 ∧ crc16 (List.replicate 512 0xA5#8) = 0x42BE#16 ∧
    crc16 (0x01#8 :: List.replicate 511 0x00#8) = 0x8AA0#16 ∧
    crc16 (List.replicate 511 0x00#8 ++ [0x01#8]) = 0x1021#16 ∧ crc16 (List.replicate 512 0x55#8) = 0xDA80#16 := by
  decide +kernel

end Sys2Proof.Machine

open Sys2Proof Sys2Proof.Machine

/-- Settles O8: a frame decodes by the row of its index, which accepts its own frame, and a request by its `op`. -/
theorem decodeOfEncodeIsIdentity : Obligations.DecodeOfEncodeIsIdentity := by
  unfold Obligations.DecodeOfEncodeIsIdentity
  intro i
  cases i with
  | cmd0 => exact decode_frameItem (by simp [frameRow, fixedFrame_self])
  | cmd1 => exact decode_frameItem (by simp [frameRow, fixedFrame_self])
  | cmd8 => exact decode_frameItem (by simp [frameRow, fixedFrame_self])
  | cmd16 => exact decode_frameItem (by simp [frameRow, fixedFrame_self])
  | cmd17 addr buf => exact decode_frameItem (by simp [frameRow])
  | cmd18 addr buf => exact decode_frameItem (by simp [frameRow])
  | cmd24 addr buf => exact decode_frameItem (by simp [frameRow])
  | cmd55 => exact decode_frameItem (by simp [frameRow, fixedFrame_self])
  | acmd41Hcs1 => exact decode_frameItem (by simp [frameRow, fixedFrame_self])
  | acmd41Hcs0 => exact decode_frameItem (by simp [frameRow, fixedFrame_self, acmd41Argument_false_ne_true])
  | cmd58 => exact decode_frameItem (by simp [frameRow, fixedFrame_self])
  | cmd59 => exact decode_frameItem (by simp [frameRow, fixedFrame_self])
  | initSession | startup | isReady | readSector | readRange | writeSector | writeRange | dumpDiagnostics
  | clearDiagnostics | reserved9 | reservedA | reservedB | reservedC | reservedD | reservedE | reservedF => rfl

/-- Settles O9: a canonical frame is the frame of the index and the argument it is decoded by, and a request with zero
unused fields has no other field than its instruction's operands. -/
theorem encodeOfDecodeIsIdentity : Obligations.EncodeOfDecodeIsIdentity := by
  unfold Obligations.EncodeOfDecodeIsIdentity
  intro p i hc h
  cases p with
  | request r =>
    obtain rfl := Except.ok.inj h
    exact encode_decodeRequest hc
  | frame bytes buf => exact encode_of_decodeFrame hc h

/-- Settles O7: each written-out frame is decoded by its row, and each value of `op` by its line of R300. -/
theorem writtenOutWordsDecode : Obligations.WrittenOutWordsDecode := by
  unfold Obligations.WrittenOutWordsDecode
  refine ⟨by decide +kernel, by decide +kernel, by decide +kernel, by decide +kernel, by decide +kernel, by decide +kernel,
    by decide, by decide, by decide +kernel, by decide +kernel, by decide +kernel, fun buf sector count => rfl⟩

/-- Settles O6: each byte moves both registers linearly; the check values are evaluated. -/
theorem checksumsAreLinearWithTheirCheckValues : Obligations.ChecksumsAreLinearWithTheirCheckValues := by
  unfold Obligations.ChecksumsAreLinearWithTheirCheckValues
  obtain ⟨c1, c2, c3, c4, c5, c6⟩ := crc7_checkValues
  exact ⟨fun a b h => ⟨crc7_xor h, crc16_xor h⟩, c1, c2, c3, c4, c5, c6, crc16_checkValues⟩
end

section
/-!
PROOFS. What is served next and how a step serves it (R71, R300, R301), and the instructions whose whole effect is
written out: the reset input, INITIALIZE, DUMP_DIAGNOSTICS, a refused range, STARTUP in Ready and Faulted.
-/

namespace Sys2Proof.Machine

open Sys2Proof

variable {s t : State} {p : Presented} {i : Instr}

/-! ### The choice of what comes next -/

/-- The choice touches nothing but the two fields of the service order (R71). -/
theorem pick_state (n : Nat) (s : State) :
    (pick n s).2 = { s with env.order := (pick n s).2.env.order, env.picks := (pick n s).2.env.picks } := by
  unfold pick
  split
  · rfl
  · split_ifs <;> rfl

/-- What can be served now is presented. -/
theorem mem_requests_of_servable (h : p ∈ servable s) : p ∈ s.sync.requests := by
  unfold servable at h
  split at h
  · exact h
  · exact List.mem_of_mem_filter h

/-- An item chosen to be served is presented, and is handed over after the choice. -/
theorem nextChoice_serve (h : nextChoice s = .serve p t) :
    p ∈ s.sync.requests ∧ t = handOver p (pick (choiceCount s) s).2 := by
  unfold nextChoice at h
  split_ifs at h
  split at h
  · rename_i q hq
    cases h
    exact ⟨mem_requests_of_servable (List.mem_of_getElem? hq), rfl⟩
  · cases h

/-- What arrives between two requests is the next arrival, after the choice. -/
theorem nextChoice_arrived (h : nextChoice s = .arrived t) : t = arriveNext (pick (choiceCount s) s).2 := by
  unfold nextChoice at h
  split_ifs at h
  split at h
  · cases h
  · cases h
    rfl

/-- A choice whose index is that of a servable item serves it. -/
theorem nextChoice_of_getElem? {k : Nat} (hpick : (pick (choiceCount s) s).1 = k) (hp : (servable s)[k]? = some p) :
    nextChoice s = .serve p (handOver p (pick (choiceCount s) s).2) := by
  have hlt : k < (servable s).length := (List.getElem?_eq_some_iff.mp hp).1
  have hcount : choiceCount s ≠ 0 := by
    unfold choiceCount
    omega
  unfold nextChoice
  rw [if_neg hcount, hpick, hp]

/-- With the lock free everything presented is servable. -/
theorem servable_of_free (h : s.sync.lock = none) : servable s = s.sync.requests := by
  unfold servable
  rw [h]

/-! ### The step -/

/-- Under a good configuration, an item chosen that decodes is issued (R300). -/
theorem step_of_serve (hok : s.params.ok = true) (hc : nextChoice s = .serve p t) (hd : decode p.item = .ok i) :
    step s = if neverIssued i then .refused .neverIssued else exec i t := by
  unfold step
  rw [if_pos hok, hc]
  simp only [serve, hd, issue]

/-- The ways a step has a next state: an instruction that may be issued is run, an arrival lands, or nothing is to do. -/
theorem step_next (h : step s = .next t) :
    (∃ p u i, nextChoice s = .serve p u ∧ neverIssued i = false ∧ exec i u = .next t) ∨
      t = arriveNext (pick (choiceCount s) s).2 ∨ t = s := by
  unfold step at h
  split_ifs at h
  split at h
  · rename_i p u hc
    unfold serve at h
    split at h
    · rename_i i hi
      unfold issue at h
      split_ifs at h with hn
      exact .inl ⟨p, u, i, hc, Bool.of_not_eq_true hn, h⟩
    · cases h
  · rename_i u hc
    cases h
    exact .inr (.inl (nextChoice_arrived hc))
  · cases h
    exact .inr (.inr rfl)
  · cases h

/-! ### Instructions under a held lock -/

theorem serveRequest_underLock (i : Instr) (body : State → Ran Reply) (s : State) :
    ∃ work, serveRequest i body s = underLock i work s := ⟨_, rfl⟩

theorem serveFrame_underLock (i : Instr) (body : State → Ran Result) (s : State) :
    ∃ work, serveFrame i body s = underLock i work s := ⟨_, rfl⟩

/-- A well-formed instruction that takes the lock is one critical section (R70). -/
theorem exec_underLock (hi : takesLock i = true) (hw : i.wellFormed s.params.bufAddrW = true) :
    ∃ work, exec i s = underLock i work s := by
  cases i with
  | cmd17 | cmd18 | cmd24 | readSector | readRange | writeSector | writeRange => exact ⟨_, withBuffer_inRange hw⟩
  | cmd0 | cmd1 | cmd8 | cmd16 | cmd55 | acmd41Hcs1 | acmd41Hcs0 | cmd58 | cmd59 =>
    exact serveFrame_underLock _ _ s
  | initSession | startup | dumpDiagnostics => exact serveRequest_underLock _ _ s
  | clearDiagnostics =>
    exact serveRequest_underLock .clearDiagnostics (fun s => .done (resultReply 0) (logClear s)) s
  | isReady | reserved9 | reservedA | reservedB | reservedC | reservedD | reservedE | reservedF =>
    exact absurd hi Bool.false_ne_true

/-! ### INITIALIZE, STARTUP at its two ends, a range outside the space -/

/-- With nothing arriving INITIALIZE makes its two events (R302, R303). -/
theorem initBody_quiet (hq : s.env.arrivals = []) :
    initBody s = .done (resultReply 0) { play 0 [.setClock .slow, .deassertCS] s with
      session := ⟨.uninitialized, 0, .standard, s.session.cardGen, .slow⟩, cs := false } := by
  unfold initBody
  rw [setClock_quiet (s := clearSession s) hq, andThen_done, deassertCS_quiet (by exact hq), andThen_done]
  rfl

/-- In Ready and in Faulted STARTUP does nothing but answer (R230). -/
theorem startupBody_terminal (h : s.session.state = .ready ∨ s.session.state = .faulted) :
    startupBody s = .done (resultReply (if s.session.state = .ready then 0 else s.session.faultCode)) s := by
  unfold startupBody
  rcases h with h | h <;> rw [h] <;> simp

/-- A range that passes the end of the address space is refused before anything else (R60). -/
theorem withBuffer_beyond {buf n : Nat} (h : 2 ^ s.params.bufAddrW < buf + 512 * n)
    (run : State → Host.Outcome State Fault Refusal) : withBuffer buf n run s = .refused .bufferRange := by
  have hrange : ¬ bufferInRange s.params.bufAddrW buf n = true := fun hin => by
    simp only [bufferInRange, Bool.and_eq_true, decide_eq_true_eq] at hin
    omega
  exact if_neg hrange

/-! ### The log -/

/-- Without a log nothing is appended (R34). -/
theorem logAppend_disabled (h : s.params.logEnabled = false) (r : LogRecord) : logAppend r s = s := by
  unfold logAppend
  rw [if_neg (by simp [h])]

/-- The log that keeps the earliest of these records and counts the others, saturating (R34). -/
def keptLog (cap : Nat) (rs : List LogRecord) : Log :=
  ⟨rs.take cap, BitVec.ofNat 32 (min (rs.length - cap) 0xFFFFFFFF)⟩

/-- One more append to such a log (R34). -/
theorem logAppend_keptLog {rs : List LogRecord} (he : s.params.logEnabled = true)
    (hl : s.log = keptLog s.params.logCap rs) (r : LogRecord) :
    (logAppend r s).log = keptLog s.params.logCap (rs ++ [r]) := by
  have hdrops : ∀ n : Nat, (BitVec.ofNat 32 (min n 0xFFFFFFFF)).toNat = min n 0xFFFFFFFF := fun n =>
    Nat.mod_eq_of_lt (by omega)
  unfold keptLog at hl ⊢
  rw [logAppend_log, if_pos he, hl, List.length_take, List.length_append, List.length_singleton]
  by_cases hroom : rs.length < s.params.logCap
  · have hnone : rs.length - s.params.logCap = 0 ∧ rs.length + 1 - s.params.logCap = 0 := by omega
    rw [if_pos (by omega), List.take_of_length_le (by omega), List.take_of_length_le (by simp; omega), hnone.1, hnone.2]
  · rw [if_neg (by omega), List.take_append_of_le_length (by omega)]
    by_cases hfull : rs.length - s.params.logCap < 0xFFFFFFFF
    · rw [if_pos (by rw [BitVec.lt_def, hdrops]; simp; omega)]
      congr 1
      apply BitVec.eq_of_toNat_eq
      rw [BitVec.toNat_add, hdrops, hdrops]
      simp
      omega
    · have hsame : min (rs.length - s.params.logCap) 0xFFFFFFFF = min (rs.length + 1 - s.params.logCap) 0xFFFFFFFF := by
        omega
      rw [if_neg (by rw [BitVec.lt_def, hdrops]; simp; omega), hsame]

/-- Any number of appends to such a log. -/
theorem foldl_logAppend_keptLog (rs : List LogRecord) : ∀ {s : State} {before : List LogRecord},
    s.params.logEnabled = true → s.log = keptLog s.params.logCap before →
    (rs.foldl (fun t r => logAppend r t) s).log = keptLog s.params.logCap (before ++ rs) := by
  induction rs with
  | nil =>
    intro s before _ hl
    rw [List.append_nil]
    exact hl
  | cons r rs ih =>
    intro s before he hl
    have hnext := ih (s := logAppend r s) (before := before ++ [r]) (by simpa using he)
      (by rw [logAppend_params]; exact logAppend_keptLog he hl r)
    rw [logAppend_params, List.append_assoc] at hnext
    exact hnext

end Sys2Proof.Machine

open Sys2Proof Sys2Proof.Machine

/-- Settles O2: `assertReset` is a literal but for what it keeps. -/
theorem resetInputAbandonsEverything : Obligations.ResetInputAbandonsEverything := by
  unfold Obligations.ResetInputAbandonsEverything
  intro s t
  have hsession : t.session = Session.reset := assertReset_session s
  have hlog : t.log = ⟨[], 0⟩ := assertReset_log s
  have hsync : t.sync = ⟨none, none, [], 0⟩ := assertReset_sync s
  rw [hsession, hlog, hsync]
  exact ⟨rfl, rfl, rfl, rfl, rfl, rfl, rfl, rfl, rfl, rfl, rfl, rfl, rfl, rfl⟩

/-- Settles O11: the item chosen is presented and handed over, and the step issues what it decodes to. -/
theorem stepRunsTheDecodedInstruction : Obligations.StepRunsTheDecodedInstruction := by
  unfold Obligations.StepRunsTheDecodedInstruction
  intro s s' p i hok hc hd
  obtain ⟨hp, rfl⟩ := nextChoice_serve hc
  refine ⟨step_of_serve hok hc hd, hp, ?_⟩
  rw [pick_state]
  rfl

/-- Settles O12: with one item and no arrival there is one choice, and it is taken without the service order. -/
theorem singlePresentedItemIsServed : Obligations.SinglePresentedItemIsServed := by
  unfold Obligations.SinglePresentedItemIsServed
  intro s p i hok ⟨hlock, hquiet⟩ hp horder hd
  have hservable : servable s = [p] := (servable_of_free hlock).trans hp
  have hcount : choiceCount s = 1 := by simp [choiceCount, hservable, hquiet]
  have hpick : pick (choiceCount s) s = (0, s) := by
    rw [hcount, pick, horder]
    rfl
  have hc := nextChoice_of_getElem? (p := p) (k := 0) (by rw [hpick]) (by rw [hservable]; rfl)
  rw [hpick] at hc
  exact step_of_serve hok hc hd

/-- Settles O13: the service order that names the item's place in the waiting list serves it. -/
theorem everyWaitingItemCanBeNext : Obligations.EveryWaitingItemCanBeNext := by
  unfold Obligations.EveryWaitingItemCanBeNext
  intro s p hlock hp
  obtain ⟨k, hk, hkp⟩ := List.mem_iff_getElem.mp hp
  obtain ⟨u, hu⟩ : ∃ u : State, u = { s with env.order := k :: s.env.order } := ⟨_, rfl⟩
  have hservable : servable u = s.sync.requests := by rw [servable_of_free (by rw [hu]; exact hlock), hu]
  have hlt : k < choiceCount u := by
    rw [choiceCount, hservable]
    omega
  have hpick : (pick (choiceCount u) u).1 = k := by
    have horder : u.env.order = k :: s.env.order := by rw [hu]
    rw [pick, horder]
    exact Nat.mod_eq_of_lt hlt
  refine ⟨k, _, hu ▸ nextChoice_of_getElem? hpick ?_⟩
  rw [hservable, List.getElem?_eq_getElem hk, hkp]

/-- Settles O14: a critical section under a held lock is a wait for it. -/
theorem heldLockMakesARequestWait : Obligations.HeldLockMakesARequestWait := by
  unfold Obligations.HeldLockMakesARequestWait
  intro i s owner hi hw hl
  obtain ⟨work, hexec⟩ := exec_underLock hi hw
  rw [hexec, underLock_held hl]
  rfl

/-- Settles O17: the two events of INITIALIZE in turn, then the end of the request. -/
theorem initializeClearsTheSession : Obligations.InitializeClearsTheSession := by
  unfold Obligations.InitializeClearsTheSession
  intro s ⟨hlock, hquiet⟩
  have hbody := initBody_quiet (s := acquire .initSession s) hquiet
  exact ⟨_, serveRequest_done hlock hbody hquiet, rfl, ⟨rfl, rfl, rfl, rfl⟩, rfl,
    rfl, rfl, rfl, rfl, rfl, rfl, rfl, rfl⟩

/-- Settles O18: the body reports the log and empties it, and the rest is the end of the request. -/
theorem dumpReportsAndClearsTheLog : Obligations.DumpReportsAndClearsTheLog := by
  unfold Obligations.DumpReportsAndClearsTheLog
  intro s ⟨hlock, hquiet⟩
  exact ⟨_, serveRequest_done (body := dumpBody) hlock rfl hquiet, rfl, rfl, ⟨rfl, rfl, rfl, rfl, rfl, rfl, rfl⟩, rfl,
    rfl, rfl, rfl⟩

/-- Settles O20: the log of any appends is the one that keeps the earliest records, by induction on the appends. -/
theorem fullLogKeepsTheEarliestRecords : Obligations.FullLogKeepsTheEarliestRecords := by
  unfold Obligations.FullLogKeepsTheEarliestRecords
  intro rs s
  constructor
  · intro he hl
    exact foldl_logAppend_keptLog rs (before := []) he (by rw [hl]; simp [keptLog])
  · intro hoff
    induction rs with
    | nil => rfl
    | cons r rs ih => rw [List.foldl_cons, logAppend_disabled hoff, ih]

/-- Settles O32: the range check comes first in all four requests. -/
theorem rangeBeyondTheBufferSpaceIsRefused : Obligations.RangeBeyondTheBufferSpaceIsRefused := by
  unfold Obligations.RangeBeyondTheBufferSpaceIsRefused
  intro s buf sector count
  constructor
  · intro h
    have hone : 2 ^ s.params.bufAddrW < buf + 512 * 1 := h
    exact ⟨withBuffer_beyond hone _, withBuffer_beyond hone _⟩
  · intro h
    exact ⟨withBuffer_beyond h _, withBuffer_beyond h _⟩

/-- Settles O46: the body answers at once in both states, and the rest is the end of the request. -/
theorem startupIsTerminalInReadyAndFaulted : Obligations.StartupIsTerminalInReadyAndFaulted := by
  unfold Obligations.StartupIsTerminalInReadyAndFaulted
  intro s ⟨hlock, hquiet⟩ hstate
  have hbody := startupBody_terminal (s := acquire .startup s) hstate
  exact ⟨_, serveRequest_done hlock hbody hquiet, ⟨rfl, rfl, rfl, rfl, rfl, rfl, rfl, rfl⟩, rfl, rfl, rfl, rfl, rfl, rfl⟩
end

section
/-!
PROOFS. The machine invariant (R24 to R36, R60, R301) and what a whole instruction can do to the session registers, the
log and the frames on the bus, with and without a reset (R231, R280, R35, R370).
-/

namespace Sys2Proof.Machine

open Sys2Proof

variable {α β : Type} {P : BitVec 6 → Word → Prop} {I J H K : State → Prop} {s t : State} {i : Instr}

/-! ### Two properties kept at once -/

theorem keeps_and {f : State → Ran α} (hf : keeps I H f) (hg : keeps J K f) :
    keeps (fun s => I s ∧ J s) (fun s => H s ∧ K s) f :=
  fun s hs => sat_and (hf s hs.1) (hg s hs.2)

theorem keeps_weaken {f : State → Ran α} (hf : keeps I H f) (h : ∀ s, H s → K s) : keeps I K f :=
  fun s hs => sat_mono (hf s hs) (fun _ _ ht => ht) h

theorem EventKept.and (h : EventKept P I H) (k : EventKept P J K) :
    EventKept P (fun s => I s ∧ J s) (fun s => H s ∧ K s) where
  tick := keeps_and h.tick k.tick
  draw s hs := ⟨h.draw s hs.1, k.draw s hs.2⟩
  event s e hs := ⟨h.event s e hs.1, k.event s e hs.2⟩
  select s b hs := ⟨h.select s b hs.1, k.select s b hs.2⟩
  latch s idx arg hp hs := ⟨h.latch s idx arg hp hs.1, k.latch s idx arg hp hs.2⟩
  work s w hw hs := ⟨h.work s w hw hs.1, k.work s w hw hs.2⟩

theorem EventKept.weaken (h : EventKept P I H) (hk : ∀ s, H s → K s) : EventKept P I K :=
  { h with tick := keeps_weaken h.tick hk }

theorem RunKept.and (h : RunKept P I H) (k : RunKept P J K) :
    RunKept P (fun s => I s ∧ J s) (fun s => H s ∧ K s) where
  tick := keeps_and h.tick k.tick
  draw s hs := ⟨h.draw s hs.1, k.draw s hs.2⟩
  sent s o b hs := ⟨h.sent s o b hs.1, k.sent s o b hs.2⟩
  work s w hw hs := ⟨h.work s w hw hs.1, k.work s w hw hs.2⟩
  deselect := keeps_and h.deselect k.deselect
  clocked s m hs := ⟨h.clocked s m hs.1, k.clocked s m hs.2⟩
  command idx arg hp := keeps_and (h.command idx arg hp) (k.command idx arg hp)
  blockRead idx addr buf hp := keeps_and (h.blockRead idx addr buf hp) (k.blockRead idx addr buf hp)
  blockWrite addr buf hp := keeps_and (h.blockWrite addr buf hp) (k.blockWrite addr buf hp)
  log s r hs := ⟨h.log s r hs.1, k.log s r hs.2⟩
  clear s hs := ⟨h.clear s hs.1, k.clear s hs.2⟩
  session s r hs := ⟨h.session s r hs.1, k.session s r hs.2⟩

/-! ### Runs without a reset -/

/-- No reset is to come unless one was to come in `s₀`. -/
def calm (s₀ s : State) : Prop := noReset s₀ → noReset s

theorem calm_refl (s : State) : calm s s := id

theorem calm_congr {s₀ s t : State} (h : t.env = s.env) (hs : calm s₀ s) : calm s₀ t := fun h0 => by
  rw [noReset, h]
  exact hs h0

/-- What lands is taken off the arrivals, so that no new reset comes, and only a reset among them ends the work. -/
theorem landDue_calm (l : List (Nat × Arrival)) : ∀ s,
    sat (landDue l s) (fun _ t => (∀ x ∈ l, x.2 ≠ .reset) → noReset t) fun _ => ¬ ∀ x ∈ l, x.2 ≠ Arrival.reset := by
  induction l with
  | nil => exact fun s _ x hx => absurd hx List.not_mem_nil
  | cons x l ih =>
    intro s
    obtain ⟨n, a⟩ := x
    cases n with
    | succ n =>
      intro h x hx
      rcases List.mem_cons.mp hx with rfl | hx
      · exact h (n + 1, a) List.mem_cons_self
      · exact h x (List.mem_cons_of_mem _ hx)
    | zero =>
      have hnext : ∀ u, sat (landDue l u) (fun _ t => (∀ x ∈ (0, a) :: l, x.2 ≠ .reset) → noReset t)
          fun _ => ¬ ∀ x ∈ (0, a) :: l, x.2 ≠ Arrival.reset := fun u =>
        sat_mono (ih u) (fun _ _ hd h => hd fun x hx => h x (List.mem_cons_of_mem _ hx))
          fun _ hh h => hh fun x hx => h x (List.mem_cons_of_mem _ hx)
      cases a with
      | request p => exact hnext (receive p s)
      | bufWrite b v => exact hnext (callerWrite b v s)
      | reset => exact fun h => h (0, .reset) List.mem_cons_self rfl

/-- The transport neither brings a reset nor is ended by anything else. -/
theorem calm_events (s₀ : State) : EventKept (fun _ _ => True) (calm s₀) (fun _ => ¬ noReset s₀) where
  tick s hs := sat_mono (landDue_calm s.env.arrivals s) (fun _ _ hd h => hd (hs h)) fun _ hh h => hh (hs h)
  draw s hs := by unfold drawByte; split <;> exact hs
  event _ _ hs := hs
  select _ _ hs := hs
  latch _ _ _ _ hs := hs
  work _ _ _ hs := hs

/-- Nor does anything a negotiation does. -/
theorem calm_phase (s₀ : State) : PhaseKept (fun _ _ => True) (calm s₀) (fun _ => ¬ noReset s₀) where
  toBusKept := (calm_events s₀).toBusKept
  session _ _ hs := hs

theorem calm_startupBody (s₀ : State) : keeps (calm s₀) (fun _ => ¬ noReset s₀) startupBody := by
  intro s hs
  unfold startupBody
  split
  · exact hs
  · exact hs
  · refine sat_andThen (negotiation_keeps (calm_phase s₀) (fun _ _ _ => trivial) s hs) fun v u hu => ?_
    cases v with
    | pass => exact sat_andThen (setClock_keeps (calm_phase s₀) .fast u hu) fun _ _ ht => ht
    | fault k r => exact calm_congr (takeFault_env k r u) hu

/-- Session registers equal to `r` while nothing resets: what a run that writes none of them leaves (R280). -/
theorem session_calm (s₀ : State) (r : Session) :
    EventKept (fun _ _ => True) (fun s => s.session = r ∧ calm s₀ s)
      (fun s => s.session = r ∨ s.session = Session.reset ∧ ¬ noReset s₀) :=
  ((session_kept r).and (calm_events s₀)).weaken fun _ h => .inr h

theorem session_calm_log (s₀ : State) (r : Session) :
    LogKept (fun _ _ => True) (fun s => s.session = r ∧ calm s₀ s)
      (fun s => s.session = r ∨ s.session = Session.reset ∧ ¬ noReset s₀) where
  toBufKept := (session_calm s₀ r).toBufKept (fun _ _ _ hs _ => hs) fun _ hs => .inl hs.1
  log s l hs := ⟨(logAppend_session l s).trans hs.1, calm_congr (logAppend_env l s) hs.2⟩

/-! ### The end of a host request -/

/-- A host request in a next state: it waits for the lock, or its body was run under the lock and then ended. -/
theorem serveRequest_inv {body : State → Ran Reply} {D : Reply → State → Prop} {E H : State → Prop}
    (hb : s.sync.lock = none → sat (body (acquire i s)) D H)
    (hd : ∀ r u, D r u → sat (completeRequest r u) (fun _ => E) H) (h : serveRequest i body s = .next t) :
    t = waitForLock i s ∨ s.sync.lock = none ∧ (E t ∨ H t) := by
  unfold serveRequest underLock at h
  split at h
  · exact .inl (Host.Outcome.next.inj h).symm
  · rename_i hl
    obtain rfl := Host.Outcome.next.inj h
    have hrun := sat_andThen (hb hl) hd
    exact .inr ⟨hl, sat_final (I := fun u => E u ∨ H u) (sat_mono hrun (fun _ _ => .inl) fun _ => .inr)⟩

/-- The end of a request keeps what every event keeps and what does not depend on the ports. -/
theorem completeRequest_sat {E : State → Prop} (hk : DataKept I H) (r : Reply)
    (hE : ∀ u, I u → E (respond u.sync.caller r (release { u with work.result := r.result }))) {u : State} (hu : I u) :
    sat (completeRequest r u) (fun _ => E) H :=
  sat_andThen (hk.tick u hu) fun _ v hv => hE v hv

/-! ### What an instruction does to the session registers -/

/-- The session registers after STARTUP negotiated (R245, R246). -/
def negotiated (s : State) (r : Session) : Prop :=
  r.state = .ready ∧ r.clkMode = .fast ∧ r.faultCode = s.session.faultCode ∧ (r.cardGen = .mmc → r.capClass = .standard) ∨
    r.state = .faulted ∧ r.clkMode = .slow ∧ r.faultCode ∈ faultCodes

/-- What an instruction does to the session registers (R231, R280, R302, R370): nothing, a reset, INITIALIZE, or a
negotiation. -/
inductive SessionMove (i : Instr) (s t : State) : Prop
  | kept (h : t.session = s.session)
  | reset (hr : ¬ noReset s) (h : t.session = Session.reset)
  | cleared (hi : i = .initSession) (h : t.session = ⟨.uninitialized, 0, .standard, s.session.cardGen, .slow⟩)
  | negotiated (hi : i = .startup) (h1 : s.session.state ≠ .ready) (h2 : s.session.state ≠ .faulted)
      (h : negotiated s t.session)

/-- A run that writes no session register. -/
theorem sessionMove_of_ends (h : Ends (fun u => u.session = s.session ∧ calm s u)
    (fun u => u.session = s.session ∨ u.session = Session.reset ∧ ¬ noReset s) i s t) : SessionMove i s t := by
  cases h with
  | unlocked r _ ht => exact .kept (by rw [ht, respond_session])
  | waits o _ _ ht => exact .kept (by rw [ht, waitForLock_session])
  | completes u r _ _ hu ht =>
    refine .kept ?_
    rw [ht]
    exact hu.1
  | framed u c _ _ hu ht =>
    refine .kept ?_
    rw [ht]
    exact hu.1
  | halted _ _ ht =>
    rcases ht with ht | ⟨ht, hr⟩
    · exact .kept ht
    · exact .reset hr ht

/-- INITIALIZE puts the registers of R302, unless a reset comes before its end. -/
theorem sessionMove_initSession (h : exec .initSession s = .next t) : SessionMove .initSession s t := by
  obtain ⟨r, hr⟩ : ∃ r : Session, r = ⟨.uninitialized, 0, .standard, s.session.cardGen, .slow⟩ := ⟨_, rfl⟩
  have hk := (session_kept r).and (calm_events s)
  have hclock : sat (setClock .slow (clearSession (acquire .initSession s)))
      (fun _ u => u.session = r ∧ calm s u) (fun u => u.session = Session.reset ∧ ¬ noReset s) :=
    sat_andThen (hk.tick (clearSession (acquire .initSession s)) ⟨by rw [hr]; rfl, calm_refl s⟩) fun _ u hu =>
      ⟨by rw [record_session, hu.1, hr], hu.2⟩
  have hbody : sat (initBody (acquire .initSession s)) (fun _ u => u.session = r ∧ calm s u)
      (fun u => u.session = Session.reset ∧ ¬ noReset s) :=
    sat_andThen hclock fun _ u hu => sat_andThen (deassertCS_keeps hk u hu) fun _ _ ht => ht
  rcases serveRequest_inv (E := fun u => u.session = r) (fun _ => hbody)
    (fun a u hu => completeRequest_sat hk.toDataKept a (fun _ hv => hv.1) hu) h with rfl | ⟨-, ht | ⟨ht, hn⟩⟩
  · exact .kept (waitForLock_session _ s)
  · exact .cleared rfl (ht.trans hr)
  · exact .reset hn ht

/-- STARTUP leaves them in Ready and in Faulted, and else negotiates, unless a reset comes. -/
theorem sessionMove_startup (h : exec .startup s = .next t) : SessionMove .startup s t := by
  by_cases hterm : s.session.state = .ready ∨ s.session.state = .faulted
  · have hk := session_calm s s.session
    have hbody := startupBody_terminal (s := acquire .startup s) hterm
    rcases serveRequest_inv (E := fun u => u.session = s.session)
      (D := fun _ u => u.session = s.session ∧ calm s u) (fun _ => by rw [hbody]; exact ⟨rfl, calm_refl s⟩)
      (fun a u hu => completeRequest_sat hk.toDataKept a (fun _ hv => hv.1) hu) h with rfl | ⟨-, ht | ht | ⟨ht, hn⟩⟩
    · exact .kept (waitForLock_session _ s)
    · exact .kept ht
    · exact .kept ht
    · exact .reset hn ht
  · obtain ⟨h1, h2⟩ := not_or.mp hterm
    have hbody := sat_and (startupBody_session (s := acquire .startup s) h1 h2)
      (calm_startupBody s (acquire .startup s) (calm_refl s))
    have hend : ∀ a u, negotiated s u.session ∧ calm s u → sat (completeRequest a u) (fun _ v => negotiated s v.session)
        (fun u => u.session = Session.reset ∧ ¬ noReset s) := fun a u hu =>
      completeRequest_sat ((session_kept u.session).and (calm_events s)).toDataKept a
        (fun v hv => by
          change negotiated s v.session
          rw [hv.1]
          exact hu.1) ⟨rfl, hu.2⟩
    have hdone : sat (startupBody (acquire .startup s)) (fun _ u => negotiated s u.session ∧ calm s u)
        (fun u => u.session = Session.reset ∧ ¬ noReset s) :=
      sat_mono hbody (fun _ u hu => ⟨hu.1.imp And.right And.right, hu.2⟩) fun _ hu => hu
    rcases serveRequest_inv (fun _ => hdone) hend h with rfl | ⟨-, ht | ⟨ht, hn⟩⟩
    · exact .kept (waitForLock_session _ s)
    · exact .negotiated rfl h1 h2 ht
    · exact .reset hn ht

theorem exec_sessionMove (h : exec i s = .next t) : SessionMove i s t := by
  have hk := session_calm_log s s.session
  have hacq : ∀ j, s.sync.lock = none → (acquire j s).session = s.session ∧ calm s (acquire j s) :=
    fun _ _ => ⟨rfl, calm_refl s⟩
  have hframe : takesLock i = true → isLockedRequest i = false → SessionMove i s t := fun h1 h2 =>
    sessionMove_of_ends (frame_ends hk.toBufKept (fun _ _ _ => trivial) (fun _ _ _ => trivial) h1 h2 (hacq i) h)
  have hsector : isSectorRequest i = true → SessionMove i s t := fun h1 =>
    sessionMove_of_ends (sectorRequest_ends hk ⟨fun _ => trivial, fun _ => trivial⟩ h1 (hacq i) h)
  have hunlocked : ∀ r, exec i s = .next (respond s.sync.caller r s) → SessionMove i s t := fun r h2 =>
    .kept (by rw [Host.Outcome.next.inj (h.symm.trans h2), respond_session])
  cases i with
  | cmd0 | cmd1 | cmd8 | cmd16 | cmd17 | cmd18 | cmd24 | cmd55 | acmd41Hcs1 | acmd41Hcs0 | cmd58 | cmd59 =>
    exact hframe rfl rfl
  | initSession => exact sessionMove_initSession h
  | startup => exact sessionMove_startup h
  | readSector | readRange | writeSector | writeRange => exact hsector rfl
  | dumpDiagnostics =>
    exact sessionMove_of_ends (serveRequest_ends (body := dumpBody) hk.toBusKept (fun _ hs => hs) rfl rfl (hacq _) h)
  | clearDiagnostics =>
    exact sessionMove_of_ends (serveRequest_ends (body := fun s => .done (resultReply 0) (logClear s)) hk.toBusKept
      (fun _ hs => hs) rfl rfl (hacq _) h)
  | isReady | reserved9 | reservedA | reservedB | reservedC | reservedD | reservedE | reservedF => exact hunlocked _ rfl

/-! ### What an instruction does to the log -/

/-- A log equal to `l` while nothing resets: what a run that makes no record leaves (R35). -/
theorem log_calm (s₀ : State) (l : Log) :
    EventKept (fun _ _ => True) (fun s => s.log = l ∧ calm s₀ s) (fun s => s.log = l ∨ ¬ noReset s₀) :=
  EventKept.weaken (h := EventKept.and (I := fun s => s.log = l) (H := fun _ => True)
    { tick := tick_keeps (fun s p hs => (receive_log p s).trans hs) (fun s a v hs => (callerWrite_log a v s).trans hs)
        (fun _ _ hs => hs) fun _ _ _ => trivial
      draw := fun s hs => by unfold drawByte; split <;> exact hs
      event := fun _ _ hs => hs
      select := fun _ _ hs => hs
      latch := fun _ _ _ _ hs => hs
      work := fun _ _ _ hs => hs } (calm_events s₀)) fun _ h => .inr h.2

/-- Without a reset a run that makes no record leaves the log as it was. -/
theorem log_of_ends (hr : noReset s)
    (h : Ends (fun u => u.log = s.log ∧ calm s u) (fun u => u.log = s.log ∨ ¬ noReset s) i s t) : t.log = s.log := by
  cases h with
  | unlocked r _ ht => rw [ht, respond_log]
  | waits o _ _ ht => rw [ht, waitForLock_log]
  | completes u r _ _ hu ht => rw [ht, respond_log, release_log, hu.1]
  | framed u c _ _ hu ht => rw [ht, release_log, hu.1]
  | halted _ _ ht => exact ht.resolve_right (not_not_intro hr)

/-! ### A reset to come -/

/-- The reset input and nothing else is to come, and the responses are those of `s₀`. -/
def resetToCome (s₀ s : State) : Prop := (∃ k, s.env.arrivals = [(k, .reset)]) ∧ s.responses = s₀.responses

/-- The reset has come, and the responses are those of `s₀`; or it is still to come. -/
def resetCame (s₀ s : State) : Prop :=
  (∃ u, s = assertReset u ∧ u.responses = s₀.responses) ∨ ∃ k, s.env.arrivals = [(k, .reset)]

/-- The reset comes before an event or its delay runs. -/
theorem resetToCome_tick (s₀ : State) : keeps (resetToCome s₀) (resetCame s₀) tick := by
  rintro s ⟨⟨k, hk⟩, hres⟩
  unfold tick
  rw [hk]
  cases k with
  | zero => exact .inl ⟨_, rfl, hres⟩
  | succ k => exact ⟨⟨k, rfl⟩, hres⟩

theorem resetToCome_kept (s₀ : State) : RunKept (fun _ _ => True) (resetToCome s₀) (resetCame s₀) where
  toBufKept := EventKept.toBufKept (h :=
    { tick := resetToCome_tick s₀
      draw := fun s hs => by unfold drawByte; split <;> exact hs
      event := fun _ _ hs => hs
      select := fun _ _ hs => hs
      latch := fun _ _ _ _ hs => hs
      work := fun _ _ _ hs => hs }) (fun _ _ _ hs _ => hs) fun _ hs => .inr hs.1
  log s r hs := by
    rw [resetToCome, logAppend_env, logAppend_responses]
    exact hs
  clear _ hs := hs
  session _ _ hs := hs

/-! ### What is next served or arrives -/

/-- An arrival between two requests puts at most the SetClock of a reset on the trace (R370). -/
theorem arriveNext_trace (s : State) :
    (arriveNext s).trace = s.trace ∨ (arriveNext s).trace = .setClock .slow :: s.trace := by
  unfold arriveNext
  split
  · exact .inl rfl
  · exact .inl (present_trace _ _)
  · exact .inl (callerWrite_trace _ _ _)
  · exact .inr rfl

/-- An item handed over after the choice: the trace is as it was. -/
theorem handOver_pick_trace (p : Presented) (n : Nat) (s : State) : (handOver p (pick n s).2).trace = s.trace := by
  rw [handOver_trace, pick_state]

/-! ### Frames -/

/-- Any instruction but CMD18 puts only frames the block issues on the bus (R92, R147). -/
theorem exec_cut (hi : neverIssued i = false) (h : exec i s = .next t) : cut s t := by
  have h18 : ∀ a b, i = .cmd18 a b → issues 18 a := fun a b he => absurd hi (by rw [he]; exact Bool.noConfusion)
  have hrefl := (framed_refl s).cut
  cases exec_ends (framed_kept s) (fun _ _ hp => hp) h18 (fun _ => framed_refl s) h with
  | unlocked r _ ht => exact ht ▸ hrefl
  | waits o _ _ ht => exact ht ▸ hrefl
  | completes u r _ _ hu ht => exact ht ▸ hu.cut
  | framed u c _ _ hu ht => exact ht ▸ hu.cut
  | halted _ _ ht => exact ht

/-! ### The machine invariant -/

/-- What the invariant says beside the session registers is kept while a request is in service, and the card is
deselected between its transactions. -/
theorem served_kept (p : Params) : RunKept (fun _ _ => True) (fun s => inService p s ∧ off s) (atRest p) :=
  let h := (inService_kept p).and off_kept
  { h with
    tick := keeps_weaken h.tick fun _ => And.left
    deselect := keeps_weaken h.deselect fun _ => And.left
    command := fun idx arg hp => keeps_weaken (h.command idx arg hp) fun _ => And.left
    blockRead := fun idx addr buf hp => keeps_weaken (h.blockRead idx addr buf hp) fun _ => And.left
    blockWrite := fun addr buf hp => keeps_weaken (h.blockWrite addr buf hp) fun _ => And.left }

/-- A request or a frame that ends frees the lock in a state at rest. -/
theorem atRest_release {p : Params} (h : inService p s ∧ off s) (w : Work) : atRest p (release { s with work := w }) := by
  obtain ⟨⟨hp, hlog, hmem, hport, -, -⟩, hoff⟩ := h
  exact ⟨hp, hlog, hmem, ⟨hport.1, fun _ ha => nomatch ha⟩, ⟨fun _ => rfl, fun _ => rfl⟩, fun _ => hoff⟩

/-- An instruction of an agent with nothing else outstanding keeps everything but the session registers within the
invariant. -/
theorem exec_atRest {p : Params} (hs : atRest p s) (ho : outstanding s.sync.caller s = false) (h : exec i s = .next t) :
    atRest p t := by
  obtain ⟨hp, hlog, hmem, hport, hlock⟩ := hs
  have hfree : s.sync.requests.any (fun q => q.agent == s.sync.caller) = false := (Bool.or_eq_false_iff.mp ho).2
  have hacq : s.sync.lock = none → inService p (acquire i s) ∧ off (acquire i s) := fun hl => by
    refine ⟨⟨hp, hlog, hmem, ⟨hport.1, fun a ha hm => ?_⟩, rfl, rfl⟩, hlock.2 hl⟩
    obtain rfl : s.sync.caller = a := Option.some.inj ha
    obtain ⟨q, hq, he⟩ := List.mem_map.mp hm
    exact List.any_eq_false.mp hfree q hq (beq_iff_eq.mpr he)
  cases exec_ends (served_kept p) (fun _ _ _ => trivial) (fun _ _ _ => trivial) hacq h with
  | unlocked r _ ht => exact ht ▸ ⟨hp, hlog, hmem, hport, hlock⟩
  | waits o _ hl ht =>
    exact ht ▸ ⟨hp, hlog, hmem, portInv_append (p := ⟨s.sync.caller, encode i⟩) hport ho, hlock⟩
  | completes u r _ _ hu ht => exact ht ▸ atRest_release hu _
  | framed u c _ _ hu ht => exact ht ▸ atRest_release hu _
  | halted _ _ ht => exact ht

/-- Whatever an instruction does to the session registers, they agree with each other afterwards. -/
theorem sessionInv_of_move (hs : sessionInv s.session) (h : SessionMove i s t) : sessionInv t.session := by
  cases h with
  | kept h => exact h ▸ hs
  | reset _ h =>
    rw [h]
    simp [sessionInv, Session.reset]
  | cleared _ h =>
    rw [h]
    simp [sessionInv]
  | negotiated _ h1 h2 h =>
    obtain ⟨hstate, -, -, hcode, -, -⟩ := hs
    rcases h with ⟨hr, hc, hf, hm⟩ | ⟨hr, hc, hf⟩
    · rw [hcode h2] at hf
      simp_all [sessionInv]
    · simp_all [sessionInv]

theorem machineInv_exec (hs : machineInv s) (ho : outstanding s.sync.caller s = false) (h : exec i s = .next t) :
    machineInv t := by
  obtain ⟨hsession, hlog, hlock, hport, hmem⟩ := hs
  obtain ⟨hp, hlog', hmem', hport', hlock'⟩ := exec_atRest ⟨rfl, hlog, hmem, hport, hlock⟩ ho h
  exact ⟨sessionInv_of_move hsession (exec_sessionMove h), hp ▸ hlog', hlock', hport', hmem'⟩

/-- The service order is no part of the invariant. -/
theorem machineInv_pick (n : Nat) (hs : machineInv s) : machineInv (pick n s).2 := by
  rw [pick_state]
  exact hs

/-- An item handed over keeps the invariant, and its agent has nothing else outstanding (R301). -/
theorem machineInv_handOver {p : Presented} (hs : machineInv s) (hp : p ∈ s.sync.requests) :
    machineInv (handOver p s) ∧ outstanding p.agent (handOver p s) = false := by
  obtain ⟨hsession, hlog, hlock, hport, hmem⟩ := hs
  obtain ⟨hport', ho⟩ := portInv_handOver hport hp
  exact ⟨⟨hsession, hlog, hlock, hport', hmem⟩, ho⟩

theorem machineInv_present (p : Presented) (hs : machineInv s) : machineInv (present p s) := by
  obtain ⟨hsession, hlog, hlock, hport, hmem⟩ := hs
  have hport' := portInv_present p hport
  revert hport'
  unfold present
  split_ifs
  · exact fun _ => ⟨hsession, hlog, hlock, hport, hmem⟩
  · exact fun h => ⟨hsession, hlog, hlock, h, hmem⟩

theorem machineInv_callerWrite (a : Nat) (v : Byte) (hs : machineInv s) : machineInv (callerWrite a v s) := by
  obtain ⟨hsession, hlog, hlock, hport, hmem⟩ := hs
  have hmem' := memInv_callerWrite hmem a v
  revert hmem'
  unfold callerWrite
  split_ifs
  · exact fun h => ⟨hsession, hlog, hlock, hport, h⟩
  · exact fun _ => ⟨hsession, hlog, hlock, hport, hmem⟩

/-- The reset input leaves the invariant whatever it found, memory apart (R370). -/
theorem machineInv_assertReset (hm : memInv s) : machineInv (assertReset s) := by
  refine ⟨?_, logInv_empty _, ⟨⟨fun _ => rfl, fun _ => rfl⟩, fun _ => rfl⟩, ⟨List.nodup_nil, fun _ ha => nomatch ha⟩, hm⟩
  rw [assertReset_session]
  simp [sessionInv, Session.reset]

/-- What arrives between two requests keeps the invariant. -/
theorem machineInv_arriveNext (hs : machineInv s) : machineInv (arriveNext s) := by
  unfold arriveNext
  split
  · exact hs
  · exact machineInv_present _ hs
  · exact machineInv_callerWrite _ _ hs
  · obtain ⟨-, -, -, -, hmem⟩ := hs
    exact machineInv_assertReset hmem

end Sys2Proof.Machine

open Sys2Proof Sys2Proof.Machine

/-- Settles O60: the choice, the hand-over, each arrival and each instruction keep the invariant; an instruction writes
the session registers in one of the ways of `SessionMove`, and the rest is kept while a request is in service. -/
theorem everyStepKeepsTheMachineInvariant : Obligations.EveryStepKeepsTheMachineInvariant := by
  unfold Obligations.EveryStepKeepsTheMachineInvariant
  intro s t hs h
  rcases step_next h with ⟨p, u, i, hc, -, hexec⟩ | rfl | rfl
  · obtain ⟨hp, rfl⟩ := nextChoice_serve hc
    have hmem : p ∈ (pick (choiceCount s) s).2.sync.requests := by
      rw [pick_state]
      exact hp
    obtain ⟨hinv, ho⟩ := machineInv_handOver (machineInv_pick _ hs) hmem
    exact machineInv_exec hinv ho hexec
  · exact machineInv_arriveNext (machineInv_pick _ hs)
  · exact hs

/-- Settles O59: the state after reset is what the reset input leaves of a state with empty memory. -/
theorem resetMeetsTheMachineInvariant : Obligations.ResetMeetsTheMachineInvariant := by
  unfold Obligations.ResetMeetsTheMachineInvariant
  have hmem : memInv { State.reset with trace := [] } := ⟨rfl, fun _ hc => nomatch hc⟩
  exact machineInv_assertReset hmem

/-- Settles O3: with one reset to come, only its landing takes it off the arrivals, and it ends the work. -/
theorem resetInMidRequestGivesNoResponse : Obligations.ResetInMidRequestGivesNoResponse := by
  unfold Obligations.ResetInMidRequestGivesNoResponse
  intro i s t n hn h hquiet
  have hne : ∀ {u : State}, (∃ k, u.env.arrivals = [(k, .reset)]) → u.env.arrivals ≠ [] := fun ⟨k, hk⟩ => by simp [hk]
  cases exec_ends (resetToCome_kept s) (fun _ _ _ => trivial) (fun _ _ _ => trivial) (fun _ => ⟨⟨n, hn⟩, rfl⟩) h with
  | unlocked r _ ht =>
    subst ht
    exact absurd hquiet (hne ⟨n, hn⟩)
  | waits o _ _ ht =>
    subst ht
    exact absurd hquiet (hne ⟨n, hn⟩)
  | completes u r _ _ hu ht =>
    subst ht
    exact absurd hquiet (hne hu.1)
  | framed u c _ _ hu ht =>
    subst ht
    exact absurd hquiet (hne hu.1)
  | halted _ _ ht =>
    rcases ht with ⟨u, rfl, hres⟩ | hk
    · exact ⟨hres, rfl, rfl, rfl, rfl, rfl⟩
    · exact absurd hquiet (hne hk)

/-- Settles O44: of the ways of `SessionMove` a sector request has the first alone when nothing resets. -/
theorem sectorRequestsKeepTheSession : Obligations.SectorRequestsKeepTheSession := by
  unfold Obligations.SectorRequestsKeepTheSession
  intro i s t hi hr h
  cases exec_sessionMove h with
  | kept h => exact h
  | reset hn _ => exact absurd hr hn
  | cleared he _ => exact absurd hi (by rw [he]; exact Bool.noConfusion)
  | negotiated he _ _ _ => exact absurd hi (by rw [he]; exact Bool.noConfusion)

/-- Settles O55: each way of `SessionMove` is a line of the table. -/
theorem stateChangesOnlyByTheTable : Obligations.StateChangesOnlyByTheTable := by
  unfold Obligations.StateChangesOnlyByTheTable
  intro i s t h
  cases exec_sessionMove h with
  | kept h => exact .inl (by rw [h])
  | reset hn h => exact .inr (.inr ⟨by rw [h]; rfl, .inr hn⟩)
  | cleared he h => exact .inr (.inr ⟨by rw [h], .inl he⟩)
  | negotiated he h1 h2 h => exact .inr (.inl ⟨he, h1, h2, h.imp And.left And.left⟩)

/-- Settles O56: the frames and INITIALIZE run only work that makes no record, and the rest takes no lock. -/
theorem onlyErrorPathsAndDiagnosticsTouchTheLog : Obligations.OnlyErrorPathsAndDiagnosticsTouchTheLog := by
  unfold Obligations.OnlyErrorPathsAndDiagnosticsTouchTheLog
  intro i s t hr hstart hsector hdump hclear h
  have hk := log_calm s s.log
  have hbuf := hk.toBufKept (fun _ _ _ hs _ => hs) fun _ hs => .inl hs.1
  have hframe : takesLock i = true → isLockedRequest i = false → t.log = s.log := fun h1 h2 =>
    log_of_ends hr (frame_ends hbuf (fun _ _ _ => trivial) (fun _ _ _ => trivial) h1 h2 (fun _ => ⟨rfl, calm_refl s⟩) h)
  have hunlocked : ∀ r, exec i s = .next (respond s.sync.caller r s) → t.log = s.log := fun r h2 => by
    rw [Host.Outcome.next.inj (h.symm.trans h2), respond_log]
  cases i with
  | cmd0 | cmd1 | cmd8 | cmd16 | cmd17 | cmd18 | cmd24 | cmd55 | acmd41Hcs1 | acmd41Hcs0 | cmd58 | cmd59 =>
    exact hframe rfl rfl
  | initSession =>
    exact log_of_ends hr (serveRequest_ends hk.toBusKept
      (initBody_keeps { toBusKept := hk.toBusKept, session := fun _ _ hs => hs }) rfl rfl
      (fun _ => ⟨rfl, calm_refl s⟩) h)
  | isReady | reserved9 | reservedA | reservedB | reservedC | reservedD | reservedE | reservedF => exact hunlocked _ rfl
  | startup => exact absurd rfl hstart
  | dumpDiagnostics => exact absurd rfl hdump
  | clearDiagnostics => exact absurd rfl hclear
  | readSector | readRange | writeSector | writeRange => exact absurd hsector Bool.noConfusion

/-- Settles O58: an instruction's frames by `exec_cut`; between two instructions a step makes no event but a reset's
SetClock. -/
theorem requestsNeverIssueCmdEighteen : Obligations.RequestsNeverIssueCmdEighteen := by
  unfold Obligations.RequestsNeverIssueCmdEighteen
  refine ⟨fun i s t hi h => exec_cut hi h, fun s t h => ?_⟩
  rcases step_next h with ⟨p, u, i, hc, hi, hexec⟩ | rfl | rfl
  · obtain ⟨-, rfl⟩ := nextChoice_serve hc
    obtain ⟨-, evs, htrace, hframes⟩ := exec_cut hi hexec
    exact ⟨evs, by rw [htrace, handOver_pick_trace], hframes⟩
  · have hpick : (pick (choiceCount s) s).2.trace = s.trace := by rw [pick_state]
    rcases arriveNext_trace (pick (choiceCount s) s).2 with htrace | htrace
    · exact ⟨[], by rw [htrace, hpick]; rfl, settled_nil.framesWithin⟩
    · exact ⟨[.setClock .slow], by rw [htrace, hpick]; rfl, (settled_of_not_mem (by simp)).framesWithin⟩
  · exact ⟨[], rfl, settled_nil.framesWithin⟩
end

section
/-!
PROOFS. The frame rows run by themselves, whatever their transactions end in (R134 to R150, R169, R202 to R209).
-/

namespace Sys2Proof.Machine

open Sys2Proof

variable {s : State} {rest : List Byte} {i : Instr}

/-! ### Frames without a data phase -/

/-- The commands answered by R1 alone are run by themselves as one command, and no payload follows their R1 (R104). -/
theorem r1Commands_exec {idx : BitVec 6} {arg : Word} (hi : (i, idx, arg) ∈ r1Commands) :
    (∀ s, exec i s = serveFrame i (command idx arg) s) ∧ ∀ r, hasPayload idx r = false := by
  simp only [r1Commands, List.mem_cons, Prod.mk.injEq, List.not_mem_nil, or_false] at hi
  rcases hi with ⟨rfl, rfl, rfl⟩ | ⟨rfl, rfl, rfl⟩ | ⟨rfl, rfl, rfl⟩ | ⟨rfl, rfl, rfl⟩ | ⟨rfl, rfl, rfl⟩ <;>
    exact ⟨fun _ => rfl, fun r => hasPayload_other r (by decide) (by decide)⟩

/-- With the illegal bit set no payload comes (R95). -/
theorem hasPayload_of_illegal {b : Byte} (idx : BitVec 6) (hb : illegal b = true) :
    hasPayload idx (.status b) = false := by
  simp [hasPayload, hb]

/-- CMD55 that does not let CMD41 go is the whole application command (R138). -/
theorem appCommand_ended {x : Exchange} (hf : x.fits s.params) (hx : announced x.result = false)
    (hq : s.env.arrivals = []) (hc : s.env.cardIn = x.bytes ++ rest) (idx : BitVec 6) (arg : Word) :
    ∃ k, appCommand idx arg s = .done x.result
      { play x.bytes.length (x.events 55 0) s with cs := false, work := k } ∧ k.idx = 55 ∧ k.arg = 0 := by
  obtain ⟨k, h, hidx, harg, -⟩ := command_exchange hf hq hc (idx := 55) 0 (hasPayload_other _ (by decide) (by decide))
  refine ⟨k, ?_, hidx, harg⟩
  rw [appCommand, h, andThen_done, hx]
  rfl

/-- CMD55 and then the target command, whatever that ends in (R138). -/
theorem appCommand_both {c : CmdScript} {x : Exchange} (hc55 : c.fits s.params) (hi : illegal c.status = false)
    (hf : x.fits s.params) (hq : s.env.arrivals = []) (hc : s.env.cardIn = c.bytes ++ x.bytes ++ rest) (arg : Word) :
    ∃ k, appCommand 41 arg s = .done x.result
        { play (c.bytes.length + x.bytes.length) (c.events 55 0 ++ x.events 41 arg) s with cs := false, work := k } ∧
      k.idx = 41 ∧ k.arg = arg ∧ ∀ b, x.result = .status b → k.r1 = b := by
  obtain ⟨k, h, -⟩ := command_exchange (x := .answered c) hc55 hq (rest := x.bytes ++ rest)
    (by rw [hc, List.append_assoc]; rfl) (idx := 55) 0 (hasPayload_other _ (by decide) (by decide))
  obtain ⟨l, h', hl⟩ := command_exchange
    (s := { play c.bytes.length (c.events 55 0) s with cs := false, work := k }) hf hq (rest := rest)
    (by simp [hc]) (idx := 41) arg (hasPayload_other _ (by decide) (by decide))
  refine ⟨l, ?_, hl⟩
  have hgo : announced (Exchange.answered c).result = true := by simp [announced, Exchange.result, hi]
  rw [appCommand, h, andThen_done, if_pos hgo]
  refine h'.trans ?_
  simp [play, Nat.add_assoc]

/-! ### Frames whose first transaction fails -/

/-- Every frame row runs its first transaction first, and an error of it ends the row (R134 to R138, R169). -/
theorem frameCommands_exec {addr : Word} {buf : Nat} {idx : BitVec 6} {arg : Word}
    (hi : (i, idx, arg) ∈ frameCommands addr buf) (hw : i.wellFormed s.params.bufAddrW = true) :
    ∃ body, exec i s = serveFrame i body s ∧ ∀ (u : State) (x : Exchange), x.fits u.params →
      (∀ b, x.result ≠ .status b) → u.env.arrivals = [] → u.env.cardIn = x.bytes ++ rest →
      ∃ k, body u = .done x.result { play x.bytes.length (x.events idx arg) u with cs := false, work := k } ∧
        k.idx = idx ∧ k.arg = arg := by
  have herr : ∀ x : Exchange, (∀ b, x.result ≠ .status b) → (∀ j, hasPayload j x.result = false) ∧
      announced x.result = false := fun x hx => by
    cases hr : x.result with
    | status b => exact absurd hr (hx b)
    | err k => exact ⟨fun _ => rfl, rfl⟩
  simp only [frameCommands, List.mem_append, List.mem_cons, Prod.mk.injEq, List.not_mem_nil, or_false] at hi
  rcases hi with (hi | hi) | ⟨rfl, rfl, rfl⟩ | ⟨rfl, rfl, rfl⟩ | ⟨rfl, rfl, rfl⟩ | ⟨rfl, rfl, rfl⟩ | ⟨rfl, rfl, rfl⟩
  · refine ⟨_, (r1Commands_exec hi).1 s, fun u x hf hx hq hc => ?_⟩
    obtain ⟨k, h, hidx, harg, -⟩ := command_exchange hf hq hc arg ((herr x hx).1 idx)
    exact ⟨k, h, hidx, harg⟩
  · refine ⟨_, (payloadCommands_exec hi).1 s, fun u x hf hx hq hc => ?_⟩
    obtain ⟨k, h, hidx, harg, -⟩ := command_exchange hf hq hc arg ((herr x hx).1 idx)
    exact ⟨k, h, hidx, harg⟩
  · refine ⟨_, withBuffer_inRange hw, fun u x hf hx hq hc => ?_⟩
    obtain ⟨k, h, hidx, harg, -⟩ := blockRead_refused hf (hx _) hq hc 17 arg buf
    exact ⟨k, h, hidx, harg⟩
  · refine ⟨_, withBuffer_inRange hw, fun u x hf hx hq hc => ?_⟩
    obtain ⟨k, h, hidx, harg, -⟩ := blockRead_refused hf (hx _) hq hc 18 arg buf
    exact ⟨k, h, hidx, harg⟩
  · refine ⟨_, withBuffer_inRange hw, fun u x hf hx hq hc => ?_⟩
    obtain ⟨k, h, hidx, harg, -⟩ := blockWrite_refused hf (hx _) hq hc arg buf
    exact ⟨k, by rw [h, andThen_done], hidx, harg⟩
  · exact ⟨_, rfl, fun u x hf hx hq hc => appCommand_ended hf (herr x hx).2 hq hc 41 _⟩
  · exact ⟨_, rfl, fun u x hf hx hq hc => appCommand_ended hf (herr x hx).2 hq hc 41 _⟩

/-- A frame row whose first transaction ends in an error: that transaction and nothing else, the error as its result. -/
theorem frame_fails {addr : Word} {buf : Nat} {idx : BitVec 6} {arg : Word}
    (hi : (i, idx, arg) ∈ frameCommands addr buf) (hw : i.wellFormed s.params.bufAddrW = true) (hu : undisturbed s)
    {x : Exchange} (hf : x.fits s.params) (hx : ∀ b, x.result ≠ .status b) (hc : s.env.cardIn = x.bytes ++ rest) :
    ∃ t, exec i s = .next t ∧ busMoved s t x.bytes.length rest (x.events idx arg) ∧ commandDone s t idx arg x.result := by
  obtain ⟨body, hexec, hbody⟩ := frameCommands_exec (rest := rest) hi hw
  obtain ⟨k, h, rfl, rfl⟩ := hbody (acquire i s) x hf hx hu.2 hc
  obtain ⟨t, ht, hbus, -, hdone⟩ := serveFrame_played hu h
  rw [drop_listed hc] at hbus
  exact ⟨t, hexec.trans ht, hbus, hdone⟩

/-! ### Block reads -/

/-- The token poll on answers that end it without a data-start token (R202). -/
theorem waitDataToken_failure {l : List Byte} (hl : tokenFailure s.params l) (hq : s.env.arrivals = [])
    (hc : s.env.cardIn = l ++ rest) :
    ∃ p t, waitDataToken s = .done (some .generic)
      { play l.length (idleEvents l) s with work.poll := p, work.token := t } := by
  have hq' : ({ s with work.poll := BitVec.ofNat 32 s.params.nTokenPoll } : State).env.arrivals = [] := hq
  rcases hl with rfl | ⟨k, b, hk, hidle, hstart, rfl⟩
  · obtain ⟨p, t, h⟩ := tokenLoop_timeout s.params.nTokenPoll hq' hc
    exact ⟨p, t, by rw [waitDataToken, h, List.length_replicate]; rfl⟩
  · obtain ⟨p, h⟩ := tokenLoop_failed hidle hstart k hq' (rest := rest) (by simpa using hc) hk
    exact ⟨p, b, by rw [waitDataToken, h, List.length_append, List.length_replicate]; rfl⟩

/-- A block read without a data-start token is Generic, and nothing is stored (R202, R204). -/
theorem blockRead_noToken {c : CmdScript} {l : List Byte} (hf : c.fits s.params) (hst : c.status = 0x00#8)
    (hl : tokenFailure s.params l) (hq : s.env.arrivals = []) (hc : s.env.cardIn = c.opening ++ l ++ [c.trail] ++ rest)
    (idx : BitVec 6) (addr : Word) (buf : Nat) :
    ∃ k, blockRead idx addr buf s = .done (.err .generic)
      { play (c.opening ++ l ++ [c.trail]).length (c.openEvents idx addr ++ idleEvents l ++ closeEvents c.trail) s with
        cs := false, work := k } ∧ k.idx = idx ∧ k.arg = addr := by
  obtain ⟨p, hbegin⟩ := cmdBegin_listed hf hq (rest := l ++ ([c.trail] ++ rest)) (by simpa using hc) idx addr
  obtain ⟨s1, hs1⟩ : ∃ s1 : State, s1 = { play c.opening.length (c.openEvents idx addr) s with
    cs := true, work := openWork idx addr c.status p s.work } := ⟨_, rfl⟩
  rw [← hs1, hst] at hbegin
  have hc1 : s1.env.cardIn = l ++ ([c.trail] ++ rest) := by simp [hs1, hc]
  obtain ⟨q, t, htoken⟩ := waitDataToken_failure (s := s1) (by rw [hs1]; exact hl) (by rw [hs1]; exact hq) hc1
  obtain ⟨s2, hs2⟩ : ∃ s2 : State, s2 =
    { play l.length (idleEvents l) s1 with work := { s1.work with poll := q, token := t } } := ⟨_, rfl⟩
  have htoken' : waitDataToken s1 = .done (some .generic) s2 := by rw [hs2]; exact htoken
  have hend := cmdEnd_listed (s := s2) (z := c.trail) (rest := rest) (by rw [hs2, hs1]; exact hq)
    (by simp [hs2, hc1])
  refine ⟨{ s1.work with poll := q, token := t }, ?_, by rw [hs1]; rfl, by rw [hs1]; rfl⟩
  rw [blockRead, hbegin, andThen_done, if_pos rfl, readDataBlock, htoken', andThen_done]
  dsimp only
  rw [andThen_done, hend, andThen_done, hs2, hs1]
  simp [play, Nat.add_assoc]

/-- An attempt that delivers data is a block of 512 bytes. -/
theorem ReadAttempt.data_length {p : Params} {x : ReadAttempt} (hf : x.fits p) :
    x.data = [] ∨ ∃ r, x = .block r ∧ r.data.length = sectorSize := by
  cases x with
  | refused y => exact .inl rfl
  | noToken c l => exact .inl rfl
  | block r =>
    obtain ⟨-, -, -, hlen⟩ := hf
    exact .inr ⟨r, rfl, hlen⟩

/-- The code of a read data phase by its two CRC values (R203, R204). -/
theorem crcVerdict_code (sent computed : Half) :
    (phaseResult (crcVerdict sent computed)).code = if sent = computed then 0 else -2 := by
  unfold crcVerdict
  split_ifs <;> rfl

/-- A block read on any attempt: its events, its data stored, its result (R144, R169, R202, R203). -/
theorem blockRead_attempt {x : ReadAttempt} (hf : x.fits s.params) (hq : s.env.arrivals = [])
    (hc : s.env.cardIn = x.bytes ++ rest) (idx : BitVec 6) (addr : Word) {buf : Nat}
    (ha : x.data = [] ∨ admitsBlock s buf) :
    ∃ r k, blockRead idx addr buf s = .done r
        { play x.bytes.length (x.events idx addr) s with cs := false, mem := memStore s.mem buf x.data, work := k } ∧
      r.code = x.code ∧ k.idx = idx ∧ k.arg = addr ∧ ∀ y, x = .block y → k.crc16 = y.crc := by
  cases x with
  | refused y =>
    obtain ⟨k, h, hidx, harg, -⟩ := blockRead_refused hf.1 hf.2 hq hc idx addr buf
    exact ⟨_, k, h, rfl, hidx, harg, fun _ he => nomatch he⟩
  | noToken c l =>
    obtain ⟨hf, hst, hl⟩ := hf
    obtain ⟨k, h, hidx, harg⟩ := blockRead_noToken hf hst hl hq hc idx addr buf
    exact ⟨_, k, h, rfl, hidx, harg, fun _ he => nomatch he⟩
  | block r =>
    have hfit : r.fits s.params := hf
    obtain ⟨-, -, -, hlen⟩ := hfit
    have hadmits : admitsBlock s buf := ha.resolve_left fun h => by
      have hlen' := congrArg List.length h
      rw [List.length_nil, ReadAttempt.data, hlen] at hlen'
      exact absurd hlen' (by decide)
    obtain ⟨p, h⟩ := blockRead_listed hf hq hc idx addr hadmits
    exact ⟨_, _, h, crcVerdict_code r.crc (crc16 r.data), rfl, rfl, fun _ he => by cases he; rfl⟩

/-- Memory after bytes were stored into memory in its canonical form. -/
theorem storesBlock_of_mem {t : State} {buf : Nat} {d : List Byte} (hm : memWf s.mem = true)
    (h : t.mem = memStore s.mem buf d) : storesBlock s t buf d := fun a => by
  rw [h]
  exact memRead_memStore d s.mem buf a hm

/-- CMD17 and CMD18 are block reads run by themselves, behind the range check. -/
theorem blockReadFrame_exec {addr : Word} {buf : Nat} {idx : BitVec 6}
    (hi : (i, idx) ∈ [(Instr.cmd17 addr buf, (17 : BitVec 6)), (Instr.cmd18 addr buf, (18 : BitVec 6))])
    (hw : i.wellFormed s.params.bufAddrW = true) : exec i s = serveFrame i (blockRead idx addr buf) s := by
  simp only [List.mem_cons, Prod.mk.injEq, List.not_mem_nil, or_false] at hi
  rcases hi with ⟨rfl, rfl⟩ | ⟨rfl, rfl⟩
  · exact withBuffer_inRange hw
  · exact withBuffer_inRange hw

/-! ### Block writes -/

/-- The code of a block that was sent: an accepted token and a released bus, a checksum rejection, or anything else
(R166, R207, R209). -/
theorem WriteScript.verdict_code (w : WriteScript) :
    w.verdict.code = if accepts w then 0 else if rejects w then -2 else -8 := by
  have htoken : writeTokenResult w.token = none ∨ writeTokenResult w.token = some .checksumFailed ∨
      writeTokenResult w.token = some .generic := by
    unfold writeTokenResult
    split_ifs <;> simp
  unfold WriteScript.verdict accepts rejects
  rcases htoken with h | h | h <;> rw [h]
  · cases w.released <;> simp [writeVerdict] <;> rfl
  · simp [writeVerdict]
    rfl
  · simp [writeVerdict]
    rfl

/-- The same in terms of the data-response token's bits (R99, R166). -/
theorem WriteScript.verdict_code_token (w : WriteScript) :
    w.verdict.code = if w.token &&& 0x1F#8 = 0x05#8 then (if w.released then 0 else -8)
      else if w.token &&& 0x1F#8 = 0x0B#8 then -2 else -8 := by
  unfold WriteScript.verdict writeTokenResult dataRespMask
  split_ifs <;> simp [writeVerdict, *] <;> rfl

/-- A block write on any ending: its events, its result, what it leaves for the log (R145, R207, R274). -/
theorem blockWrite_ends {x : WriteEnd} (hf : x.fits s.params) (hq : s.env.arrivals = [])
    (hc : s.env.cardIn = x.bytes ++ rest) (addr : Word) {buf : Nat} (ha : ∀ w, x = .sent w → admitsBlock s buf) :
    ∃ o k, blockWrite addr buf s = .done o
        { play x.bytes.length (x.events addr (blockAt s buf)) s with cs := false, work := k } ∧
      o.result.code = x.code ∧ (∀ sector, ⟨24, o.response, sector, o.crc, 0⟩ = x.record sector (blockAt s buf)) ∧
      k.idx = 24 ∧ k.arg = addr ∧ (∀ y, x = .refused y → o.result = y.result) ∧
      ∀ w, x = .sent w → o.result = w.verdict ∧ k.token = w.token ∧ k.crc16 = crc16 (blockAt s buf) := by
  cases x with
  | refused y =>
    obtain ⟨k, h, hidx, harg, -⟩ := blockWrite_refused hf.1 hf.2 hq hc addr buf
    exact ⟨_, k, h, rfl, fun _ => rfl, hidx, harg, fun _ he => by cases he; rfl, fun _ he => nomatch he⟩
  | sent w =>
    obtain ⟨p, h⟩ := blockWrite_listed hf hq hc addr (ha w rfl)
    exact ⟨_, _, h, w.verdict_code, fun _ => by rw [WriteEnd.record, sentRecord], rfl, rfl, fun _ he => (nomatch he),
      fun _ he => by cases he; exact ⟨rfl, rfl, by dsimp only⟩⟩

end Sys2Proof.Machine

open Sys2Proof Sys2Proof.Machine

/-- Settles O21: a command without a payload on the script, run as one frame. -/
theorem oneByteCommandsReturnTheirStatus : Obligations.OneByteCommandsReturnTheirStatus := by
  unfold Obligations.OneByteCommandsReturnTheirStatus
  intro i idx arg hi s c rest hu hf hc
  obtain ⟨hexec, hpayload⟩ := r1Commands_exec hi
  obtain ⟨p, h⟩ := command_listed (s := acquire i s) hf hu.2 hc arg (hpayload _)
  obtain ⟨t, ht, hbus, hwork, hdone⟩ := serveFrame_played hu h
  rw [drop_listed hc] at hbus
  exact ⟨t, (hexec s).trans ht, hbus, by rw [hwork]; rfl, hdone⟩

/-- Settles O23: the illegal bit makes CMD8 and CMD58 commands without a payload. -/
theorem illegalStatusSkipsThePayload : Obligations.IllegalStatusSkipsThePayload := by
  unfold Obligations.IllegalStatusSkipsThePayload
  intro i idx arg hi s c rest hu hf hb hc
  obtain ⟨hexec, -⟩ := payloadCommands_exec hi
  obtain ⟨p, h⟩ := command_listed (s := acquire i s) hf hu.2 hc arg (hasPayload_of_illegal idx hb)
  obtain ⟨t, ht, hbus, hwork, hdone⟩ := serveFrame_played hu h
  rw [drop_listed hc] at hbus
  exact ⟨t, (hexec s).trans ht, hbus, by rw [hwork]; rfl, by rw [hwork]; rfl, hdone⟩

/-- Settles O24: the first transaction fails as one whose bus is never idle. -/
theorem busNeverIdleSendsNoFrame : Obligations.BusNeverIdleSendsNoFrame := by
  unfold Obligations.BusNeverIdleSendsNoFrame
  intro addr buf i idx arg hi s w z rest hu hw hidle hlen hc
  obtain ⟨t, ht, hbus, hdone⟩ := frame_fails hi hw hu (x := .neverIdle w z) (rest := rest) ⟨hidle, hlen⟩
    (fun _ he => nomatch he) (by simpa [Exchange.bytes, Exchange.opening, Exchange.trail] using hc)
  refine ⟨t, ht, ?_, hdone⟩
  simpa [Exchange.bytes, Exchange.opening, Exchange.events, Exchange.openEvents, Exchange.trail] using hbus

/-- Settles O25: the first transaction fails as one with a bad echo. -/
theorem echoMismatchInterruptsAfterSixBytes : Obligations.EchoMismatchInterruptsAfterSixBytes := by
  unfold Obligations.EchoMismatchInterruptsAfterSixBytes
  intro addr buf i idx arg hi s w e z rest hu hw hidle hlen he hbad hc
  obtain ⟨t, ht, hbus, hdone⟩ := frame_fails hi hw hu (x := .badEcho w e z) (rest := rest) ⟨hidle, hlen, he, hbad⟩
    (fun _ he => nomatch he) (by simpa [Exchange.bytes, Exchange.opening, Exchange.trail] using hc)
  refine ⟨t, ht, ?_, hdone⟩
  simpa [Exchange.bytes, Exchange.opening, Exchange.events, Exchange.openEvents, Exchange.trail, he, Nat.add_assoc]
    using hbus

/-- Settles O26: the first transaction fails as one without a response. -/
theorem noResponseGivesGeneric : Obligations.NoResponseGivesGeneric := by
  unfold Obligations.NoResponseGivesGeneric
  intro addr buf i idx arg hi s w z rest hu hw hidle hlen hc
  obtain ⟨t, ht, hbus, hdone⟩ := frame_fails hi hw hu (x := .silent w s.params.nRespPoll z) (rest := rest)
    ⟨hidle, hlen, rfl⟩ (fun _ he => nomatch he) (by simpa [Exchange.bytes, Exchange.opening, Exchange.trail] using hc)
  have hcount : (Exchange.silent w s.params.nRespPoll z).bytes.length = w.length + 8 + s.params.nRespPoll := by
    simp [Exchange.bytes, Exchange.opening]
    omega
  rw [hcount] at hbus
  exact ⟨t, ht, hbus, hdone⟩

/-- Settles O27: the two transactions in turn, the second on any exchange. -/
theorem appCommandSendsTwoFrames : Obligations.AppCommandSendsTwoFrames := by
  unfold Obligations.AppCommandSendsTwoFrames
  intro i hcs hi s c x rest hu hf hb hx hc
  have harg : acmd41Argument hcs = if hcs then 0x40000000#32 else 0#32 := by cases hcs <;> decide
  have hexec : exec i s = serveFrame i (appCommand 41 (acmd41Argument hcs)) s := by
    simp only [List.mem_cons, Prod.mk.injEq, List.not_mem_nil, or_false] at hi
    rcases hi with ⟨rfl, rfl⟩ | ⟨rfl, rfl⟩ <;> rfl
  rw [harg] at hexec
  obtain ⟨k, h, hidx, hkarg, hr1⟩ := appCommand_both (s := acquire i s) hf hb hx hu.2 hc
    (if hcs then 0x40000000#32 else 0#32)
  obtain ⟨t, ht, hbus, hwork, hdone⟩ := serveFrame_played hu h
  rw [← List.length_append, drop_listed hc, List.length_append] at hbus
  rw [hidx, hkarg] at hdone
  exact ⟨t, hexec.trans ht, hbus, fun b hr => by rw [hwork]; exact hr1 b hr, hdone⟩

/-- Settles O28: an illegal CMD55 ends the application command. -/
theorem illegalAnnouncementEndsTheAppCommand : Obligations.IllegalAnnouncementEndsTheAppCommand := by
  unfold Obligations.IllegalAnnouncementEndsTheAppCommand
  intro i hi s c rest hu hf hb hc
  have hexec : ∃ arg, exec i s = serveFrame i (appCommand 41 arg) s := by
    simp only [List.mem_cons, List.not_mem_nil, or_false] at hi
    rcases hi with rfl | rfl <;> exact ⟨_, rfl⟩
  obtain ⟨arg, hexec⟩ := hexec
  obtain ⟨k, h, hidx, hkarg⟩ := appCommand_ended (s := acquire i s) (x := .answered c) hf
    (by simp [announced, Exchange.result, hb]) hu.2 hc 41 arg
  obtain ⟨t, ht, hbus, -, hdone⟩ := serveFrame_played hu h
  rw [answered_bytes, drop_listed hc] at hbus
  rw [hidx, hkarg] at hdone
  exact ⟨t, hexec.trans ht, hbus, hdone⟩

/-- Settles O29: the block read on the attempt, then the end of the frame. -/
theorem blockReadFramesFillTheBuffer : Obligations.BlockReadFramesFillTheBuffer := by
  unfold Obligations.BlockReadFramesFillTheBuffer
  intro addr buf i idx hi s x rest hu hw ha hm hf hc
  obtain ⟨r, k, h, hcode, hidx, harg, hcrc⟩ := blockRead_attempt (s := acquire i s) hf hu.2 hc idx addr ha
  refine ⟨_, (blockReadFrame_exec hi hw).trans (serveFrame_done hu.1 h hu.2), ⟨?_, rfl, rfl, rfl⟩,
    storesBlock_of_mem hm rfl, hidx, harg, hcode, hcrc, ⟨rfl, rfl, rfl, rfl, rfl, rfl, rfl⟩, rfl, rfl⟩
  exact drop_listed hc

/-- Settles O30: the block write on the ending, then the end of the frame. -/
theorem blockWriteFrameSendsTheBuffer : Obligations.BlockWriteFrameSendsTheBuffer := by
  unfold Obligations.BlockWriteFrameSendsTheBuffer
  intro addr buf s x rest hu hw ha hf hc
  obtain ⟨o, k, h, -, -, hidx, harg, hrefused, hsent⟩ :=
    blockWrite_ends (s := acquire (.cmd24 addr buf) s) hf hu.2 hc addr ha
  have hbody := congrArg (fun r => r.andThen fun w u => Ran.done w.result u) h
  refine ⟨_, (withBuffer_inRange hw).trans (serveFrame_done
    (body := fun s => (blockWrite addr buf s).andThen fun w s => .done w.result s) hu.1 hbody hu.2),
    ⟨drop_listed hc, rfl, rfl, rfl⟩, hidx, harg, ⟨rfl, rfl, rfl, rfl, rfl, rfl, rfl⟩, rfl, rfl, rfl,
    fun y hy => congrArg Result.code (hrefused y hy), fun w hw => ?_⟩
  obtain ⟨hverdict, htoken, hcrc⟩ := hsent w hw
  exact ⟨htoken, hcrc, (congrArg Result.code hverdict).trans w.verdict_code_token⟩
end

section
/-!
PROOFS. The sector requests on listed answers (R271 to R281): one sector read and one sector write, whatever they end
in, and the ranges made of them.
-/

namespace Sys2Proof.Machine

open Sys2Proof

variable {s : State} {rest : List Byte} {i : Instr} {buf : Nat} {sector : Word}

/-! ### Appends to the log -/

/-- An append writes the log alone, by the configuration and the log alone. -/
theorem logAppend_of_congr {u : State} (hp : u.params = s.params) (hl : u.log = s.log) (r : LogRecord) :
    logAppend r u = { u with log := (logAppend r s).log } := by
  rw [← logAppend_log_congr hp hl r]
  unfold logAppend
  split_ifs <;> rfl

/-- The log after appends depends on the configuration and the log alone. -/
theorem logAll_congr (rs : List LogRecord) : ∀ {s u : State}, u.params = s.params → u.log = s.log →
    logAll rs u = logAll rs s := by
  induction rs with
  | nil => exact fun _ hl => hl
  | cons r rs ih =>
    intro s u hp hl
    exact ih (by simpa using hp) (logAppend_log_congr hp hl r)

/-- Appends after appends. -/
theorem logAll_append (a b : List LogRecord) (s : State) : logAll (a ++ b) s = logAll b { s with log := logAll a s } := by
  have hp : ∀ (l : List LogRecord) (u : State), (l.foldl (fun u r => logAppend r u) u).params = u.params := by
    intro l
    induction l with
    | nil => exact fun _ => rfl
    | cons r l ih => exact fun u => (ih _).trans (logAppend_params r u)
  rw [logAll, List.foldl_append]
  exact logAll_congr b (hp a s) rfl

/-- The appends for one attempt: none where it succeeds. -/
theorem logAll_ite (c : Prop) [Decidable c] (r : LogRecord) (s : State) :
    logAll (if c then [] else [r]) s = if c then s.log else (logAppend r s).log := by
  split_ifs <;> rfl

/-! ### Result codes -/

/-- Only the status 0x00 has the code 0 (R168). -/
theorem Result.code_eq_zero {r : Result} (h : r.code = 0) : r = .status 0x00#8 := by
  cases r with
  | status b =>
    have hb := congrArg BitVec.toNat h
    simp only [Result.code, BitVec.toNat_setWidth] at hb
    have hzero : b.toNat = 0 := by
      have := b.isLt
      simp at hb
      omega
    rw [BitVec.eq_of_toNat_eq (y := 0x00#8) hzero]
  | err k => cases k <;> exact absurd h (by decide)

/-- No transaction ends in ChecksumFailed, which is a data phase's alone (R134 to R136). -/
theorem Exchange.code_ne_checksumFailed (x : Exchange) : x.result.code ≠ -2 := by
  cases x with
  | answered c =>
    intro h
    have hb := congrArg BitVec.toNat h
    have := c.status.isLt
    simp [Exchange.result, Result.code] at hb
    omega
  | neverIdle w z => exact (by decide : ErrKind.generic.code ≠ -2)
  | badEcho w e z => exact (by decide : ErrKind.transmissionInterrupted.code ≠ -2)
  | silent w n z => exact (by decide : ErrKind.generic.code ≠ -2)

/-- A rejected block has the code of ChecksumFailed (R99). -/
theorem WriteEnd.code_of_rejects {w : WriteScript} (h : rejects w) : (WriteEnd.sent w).code = -2 := by
  have hnot : ¬ accepts w := fun ha => by
    rw [rejects, ha.1] at h
    cases h
  rw [WriteEnd.code, if_neg hnot, if_pos h]

/-- An attempt whose code is 0 delivers a whole block. -/
theorem ReadAttempt.data_length_of_code {p : Params} {x : ReadAttempt} (hf : x.fits p) (hc : x.code = 0) :
    x.data.length = sectorSize := by
  cases x with
  | refused y => exact absurd (Result.code_eq_zero hc) hf.2
  | noToken c l => exact absurd hc (by decide : (-8 : Code) ≠ 0)
  | block r =>
    obtain ⟨-, -, -, hlen⟩ := hf
    exact hlen

/-! ### One sector request in Ready -/

/-- A sector request in Ready is its body and then its reply (R270). -/
theorem whenReady_done {body : State → Ran Code} {c : Code} {u : State} (hs : s.session.state = .ready)
    (hb : body s = .done c u) : whenReady body s = .done (resultReply c) u := by
  rw [whenReady, if_pos hs, hb, andThen_done]

/-- A sector request whose body plays `evs`, leaves the memory `m` and the log `l` and ends in `c`. -/
theorem sectorRequest_played {body : State → Ran Code} {c : Code} {n : Nat} {evs : List BusEvent}
    {m : List Host.Cell} {l : Log} {k : Work} {t : State} (hexec : exec i s = serveRequest i (whenReady body) s)
    (hu : undisturbed s) (hs : s.session.state = .ready)
    (ht : t = { play n evs (acquire i s) with cs := false, mem := m, work := k, log := l })
    (hb : body (acquire i s) = .done c t) (hc : s.env.cardIn.drop n = rest) :
    ∃ t, exec i s = .next t ∧ requestDone s t c ∧ busMoved s t n rest evs ∧ t.mem = m ∧ t.log = l := by
  subst ht
  exact ⟨_, hexec.trans (serveRequest_done hu.1 (whenReady_done hs hb) hu.2), ⟨rfl, rfl, rfl, rfl, rfl, rfl, rfl, rfl⟩,
    ⟨hc, rfl, rfl, rfl⟩, rfl, rfl⟩

/-! ### One sector read -/

/-- One sector read on any attempt (R271), with its record (R272). -/
theorem readSectorBody_attempt {x : ReadAttempt} (hf : x.fits s.params) (hq : s.env.arrivals = [])
    (hc : s.env.cardIn = x.bytes ++ rest) (sector : Word) (ha : x.data = [] ∨ admitsBlock s buf) :
    ∃ k, readSectorBody buf sector s = .done x.code
      { play x.bytes.length (x.events 17 (translateSector s.session.capClass sector)) s with
        cs := false, mem := memStore s.mem buf x.data, work := k
        log := if x.code = 0 then s.log else (logAppend ⟨17, x.code, sector, 0, 0⟩ s).log } := by
  obtain ⟨r, k, h, hcode, -⟩ := blockRead_attempt hf hq hc 17 (translateSector s.session.capClass sector) ha
  refine ⟨k, ?_⟩
  rw [readSectorBody, h, andThen_done, hcode]
  by_cases hzero : x.code = 0
  · rw [if_pos hzero, if_pos hzero]
    rfl
  · rw [if_neg hzero, if_neg hzero]
    exact congrArg (Ran.done _) (logAppend_of_congr (s := s) (by rfl) (by rfl) _)

/-- READ_SECTOR on any attempt. -/
theorem readSector_attempt {x : ReadAttempt} (hu : undisturbed s) (hs : s.session.state = .ready)
    (hw : (Instr.readSector buf sector).wellFormed s.params.bufAddrW = true) (ha : x.data = [] ∨ admitsBlock s buf)
    (hf : x.fits s.params) (hc : s.env.cardIn = x.bytes ++ rest) :
    ∃ t, exec (.readSector buf sector) s = .next t ∧ requestDone s t x.code ∧
      busMoved s t x.bytes.length rest (x.events 17 (translateSector s.session.capClass sector)) ∧
      t.mem = memStore s.mem buf x.data ∧
      t.log = if x.code = 0 then s.log else (logAppend ⟨17, x.code, sector, 0, 0⟩ s).log := by
  obtain ⟨k, h⟩ := readSectorBody_attempt (s := acquire (.readSector buf sector) s) hf hu.2 hc sector ha
  obtain ⟨t, ht, hdone, hbus, hmem, hlog⟩ :=
    sectorRequest_played (i := .readSector buf sector) (withBuffer_inRange hw) hu hs rfl h (drop_listed hc)
  exact ⟨t, ht, hdone, hbus, hmem,
    hlog.trans (congrArg (fun l => if x.code = 0 then s.log else l) (logAppend_log_congr (by rfl) (by rfl) _))⟩

/-! ### One sector write -/

/-- One write attempt on any ending (R274), with its record (R275). -/
theorem writeOnce_ends {x : WriteEnd} (hf : x.fits s.params) (hq : s.env.arrivals = [])
    (hc : s.env.cardIn = x.bytes ++ rest) (sector : Word) (ha : ∀ w, x = .sent w → admitsBlock s buf) :
    ∃ k, writeOnce buf sector s = .done x.code
      { play x.bytes.length (x.events (translateSector s.session.capClass sector) (blockAt s buf)) s with
        cs := false, work := k
        log := if x.code = 0 then s.log else (logAppend (x.record sector (blockAt s buf)) s).log } := by
  obtain ⟨o, k, h, hcode, hrecord, -⟩ :=
    blockWrite_ends hf hq hc (translateSector s.session.capClass sector) ha
  refine ⟨k, ?_⟩
  rw [writeOnce, h, andThen_done, hcode, hrecord sector]
  by_cases hzero : x.code = 0
  · rw [if_pos hzero, if_pos hzero]
    rfl
  · rw [if_neg hzero, if_neg hzero]
    exact congrArg (Ran.done _) (logAppend_of_congr (s := s) (by rfl) (by rfl) _)

/-- The retry loop: attempts rejected for their checksum, and the last one (R276, R277). -/
theorem writeLoop_listed {last : WriteEnd} (rejected : List WriteScript) : ∀ {n : Nat} {s : State},
    (∀ v ∈ rejected, v.fits s.params ∧ rejects v) → last.fits s.params → rejected.length < n →
    (last.code = -2 → rejected.length + 1 = n) → s.env.arrivals = [] →
    s.env.cardIn = (SectorWrite.mk rejected last).bytes ++ rest →
    (admitsBlock s buf ∨ rejected = [] ∧ ∃ y, last = .refused y) →
    ∃ k, writeLoop n buf sector s = .done last.code
      { play (SectorWrite.mk rejected last).bytes.length
          ((SectorWrite.mk rejected last).events (translateSector s.session.capClass sector) (blockAt s buf)) s with
        cs := false, work := k
        log := logAll ((SectorWrite.mk rejected last).records sector (blockAt s buf)) s } := by
  induction rejected with
  | nil =>
    intro n s _ hl hn hb hq hc ha
    obtain ⟨m, rfl⟩ : ∃ m, n = m + 1 := ⟨n - 1, by omega⟩
    have hsent : ∀ w, last = .sent w → admitsBlock s buf := fun w hw => ha.resolve_right fun ⟨_, y, hy⟩ => by
      rw [hw] at hy
      cases hy
    obtain ⟨k, h⟩ := writeOnce_ends hl hq hc sector hsent
    have hstop : ¬ (last.code = ErrKind.checksumFailed.code ∧ m ≠ 0) := fun ⟨h2, hm⟩ =>
      hm (Nat.succ.inj (hb h2)).symm
    refine ⟨{ k with budget := BitVec.ofNat 32 m }, ?_⟩
    rw [writeLoop, h, andThen_done, if_neg hstop]
    simp only [SectorWrite.bytes, SectorWrite.events, SectorWrite.records, List.flatMap_nil, List.map_nil,
      List.nil_append, logAll_ite]
  | cons v rejected ih =>
    intro n s hr hl hn hb hq hc ha
    obtain ⟨m, rfl⟩ : ∃ m, n = m + 1 := ⟨n - 1, by simp at hn; omega⟩
    obtain ⟨hv, hrest⟩ := List.forall_mem_cons.mp hr
    have hadmits : admitsBlock s buf := ha.resolve_right fun h => List.cons_ne_nil _ _ h.1
    have hlen : rejected.length < m := by simpa using hn
    obtain ⟨k, h⟩ := writeOnce_ends (x := .sent v) (s := s) (buf := buf)
      (rest := (SectorWrite.mk rejected last).bytes ++ rest) hv.1 hq
      (by simpa [SectorWrite.bytes, WriteEnd.bytes] using hc) sector fun _ _ => hadmits
    have hcode := WriteEnd.code_of_rejects hv.2
    have hnonzero : ¬ (WriteEnd.sent v).code = 0 := by rw [hcode]; decide
    have hretry : (WriteEnd.sent v).code = ErrKind.checksumFailed.code ∧ m ≠ 0 := ⟨hcode, by omega⟩
    obtain ⟨l, h'⟩ := ih (n := m)
      (s := { play (WriteEnd.sent v).bytes.length
          ((WriteEnd.sent v).events (translateSector s.session.capClass sector) (blockAt s buf)) s with
        cs := false, work := { k with budget := BitVec.ofNat 32 m }
        log := (logAppend ((WriteEnd.sent v).record sector (blockAt s buf)) s).log })
      hrest hl hlen (fun h2 => by have := hb h2; simp at this; omega) hq
      (by simp [hc, SectorWrite.bytes, WriteEnd.bytes]) (.inl hadmits)
    refine ⟨l, ?_⟩
    rw [writeLoop, h, andThen_done, if_pos hretry, if_neg hnonzero]
    refine h'.trans ?_
    have hlog : logAll ((SectorWrite.mk (v :: rejected) last).records sector (blockAt s buf)) s =
        logAll ((SectorWrite.mk rejected last).records sector (blockAt s buf))
          { s with log := (logAppend (sentRecord sector (blockAt s buf) v) s).log } := by
      exact logAll_append [sentRecord sector (blockAt s buf) v] _ s
    rw [hlog]
    simp only [play, SectorWrite.bytes, SectorWrite.events, WriteEnd.bytes, WriteEnd.events, WriteEnd.record,
      List.flatMap_cons, List.length_append, List.reverse_append, List.append_assoc, List.drop_drop, Nat.add_assoc]
    congr 2
    exact logAll_congr _ rfl rfl

/-- One sector write on any sequence of attempts (R276). -/
theorem writeSectorBody_listed {x : SectorWrite} (hf : x.fits s.params) (hq : s.env.arrivals = [])
    (hc : s.env.cardIn = x.bytes ++ rest) (sector : Word)
    (ha : admitsBlock s buf ∨ x.rejected = [] ∧ ∃ y, x.last = .refused y) :
    ∃ k, writeSectorBody buf sector s = .done x.last.code
      { play x.bytes.length (x.events (translateSector s.session.capClass sector) (blockAt s buf)) s with
        cs := false, work := k, log := logAll (x.records sector (blockAt s buf)) s } := by
  obtain ⟨hr, hl, hn, hb⟩ := hf
  obtain ⟨k, h⟩ := writeLoop_listed (s := { s with work.budget := BitVec.ofNat 32 s.params.writeBudget }) x.rejected
    (sector := sector) hr hl hn hb hq hc ha
  refine ⟨k, h.trans ?_⟩
  have hlog := logAll_congr (s := s) (u := { s with work.budget := BitVec.ofNat 32 s.params.writeBudget })
    (x.records sector (blockAt s buf)) rfl rfl
  exact congrArg (fun l => Ran.done x.last.code { play x.bytes.length
    (x.events (translateSector s.session.capClass sector) (blockAt s buf)) s with
      cs := false, work := k, log := l }) hlog

/-- WRITE_SECTOR on any sequence of attempts. -/
theorem writeSector_listed {x : SectorWrite} (hu : undisturbed s) (hs : s.session.state = .ready)
    (hw : (Instr.writeSector buf sector).wellFormed s.params.bufAddrW = true)
    (ha : admitsBlock s buf ∨ x.rejected = [] ∧ ∃ y, x.last = .refused y) (hf : x.fits s.params)
    (hc : s.env.cardIn = x.bytes ++ rest) :
    ∃ t, exec (.writeSector buf sector) s = .next t ∧ requestDone s t x.last.code ∧
      busMoved s t x.bytes.length rest (x.events (translateSector s.session.capClass sector) (blockAt s buf)) ∧
      t.mem = s.mem ∧ t.log = logAll (x.records sector (blockAt s buf)) s := by
  obtain ⟨k, h⟩ := writeSectorBody_listed (s := acquire (.writeSector buf sector) s) hf hu.2 hc sector ha
  obtain ⟨t, ht, hdone, hbus, hmem, hlog⟩ :=
    sectorRequest_played (i := .writeSector buf sector) (withBuffer_inRange hw) hu hs rfl h (drop_listed hc)
  exact ⟨t, ht, hdone, hbus, hmem, hlog.trans (logAll_congr (s := s) _ rfl rfl)⟩

/-! ### Ranges -/

/-- The next sector of a range (R193). -/
theorem nextSector_sectorAt (sector : Word) (n : Nat) : nextSector (sectorAt sector n) = sectorAt sector (n + 1) := by
  rw [nextSector, sectorAt, sectorAt, BitVec.add_assoc, BitVec.ofNat_add]
  rfl

/-- The next block of a range (R193). -/
theorem nextBuffer_add (buf n : Nat) : nextBuffer (buf + sectorSize * n) = buf + sectorSize * (n + 1) := by
  rw [nextBuffer, Nat.mul_add_one, Nat.add_assoc]

/-- A range whose first sectors, one for each of `xs`, end in 0: what is left is the range after them. `Done` says what
holds when some of them have been served. -/
theorem rangeLoop_prefix {X : Type} {one : Nat → Word → State → Ran Code} {Done : List X → State → Prop} {xs : List X}
    (hone : ∀ pre x u, pre ++ [x] <+: xs → Done pre u →
      ∃ v, one (buf + sectorSize * pre.length) (sectorAt sector pre.length) u = .done 0 v ∧ Done (pre ++ [x]) v)
    (m : Nat) : ∀ (todo pre : List X) (u : State), pre ++ todo = xs → Done pre u →
      ∃ v, rangeLoop one (todo.length + m) (buf + sectorSize * pre.length) (sectorAt sector pre.length) u =
        rangeLoop one m (buf + sectorSize * xs.length) (sectorAt sector xs.length) v ∧ Done xs v := by
  intro todo
  induction todo with
  | nil =>
    intro pre u hpre hu
    rw [List.append_nil] at hpre
    subst hpre
    exact ⟨u, by rw [List.length_nil, Nat.zero_add], hu⟩
  | cons x todo ih =>
    intro pre u hpre hu
    have hsplit : pre ++ [x] ++ todo = xs := by rw [List.append_assoc]; exact hpre
    obtain ⟨v, hv, hdone⟩ := hone pre x u ⟨todo, hsplit⟩ hu
    obtain ⟨w, hw, hall⟩ := ih (pre ++ [x]) v hsplit hdone
    refine ⟨w, ?_, hall⟩
    rw [List.length_append, List.length_singleton] at hw
    rw [List.length_cons, Nat.add_right_comm, rangeLoop, hv, andThen_done, if_pos rfl, nextBuffer_add,
      nextSector_sectorAt, hw]

/-- The same from the first sector on. -/
theorem rangeLoop_listed {X : Type} {one : Nat → Word → State → Ran Code} {Done : List X → State → Prop} {xs : List X}
    (hone : ∀ pre x u, pre ++ [x] <+: xs → Done pre u →
      ∃ v, one (buf + sectorSize * pre.length) (sectorAt sector pre.length) u = .done 0 v ∧ Done (pre ++ [x]) v)
    (hs : Done [] s) (m : Nat) :
    ∃ v, rangeLoop one (xs.length + m) buf sector s =
      rangeLoop one m (buf + sectorSize * xs.length) (sectorAt sector xs.length) v ∧ Done xs v := by
  have hstart : sectorAt sector 0 = sector := BitVec.add_zero sector
  have h := rangeLoop_prefix (buf := buf) (sector := sector) hone m xs [] s rfl hs
  rwa [List.length_nil, Nat.mul_zero, Nat.add_zero, hstart] at h

/-- A range whose next sector ends in another code than 0 ends in it. -/
theorem rangeLoop_stops {one : Nat → Word → State → Ran Code} {m : Nat} {c : Code} {u : State}
    (h : one buf sector s = .done c u) (hc : c ≠ 0) : rangeLoop one (m + 1) buf sector s = .done c u := by
  rw [rangeLoop, h, andThen_done, if_neg hc]

/-- What is left of the answers when those of `pre` were drawn. -/
theorem drop_flatMap {X : Type} {f : X → List Byte} {xs pre : List X} {x : X} (h : pre ++ [x] <+: xs)
    {l : List Byte} (hl : l = xs.flatMap f ++ rest) : ∃ more, l.drop (pre.flatMap f).length = f x ++ more := by
  obtain ⟨post, rfl⟩ := h
  exact ⟨post.flatMap f ++ rest, by simp [hl]⟩

/-- Bytes stored after bytes. -/
theorem memStore_append (d e : List Byte) : ∀ (m : List Host.Cell) (a : Nat),
    memStore m a (d ++ e) = memStore (memStore m a d) (a + d.length) e := by
  induction d with
  | nil => exact fun _ _ => rfl
  | cons v d ih =>
    intro m a
    rw [List.cons_append, memStore, memStore, ih, List.length_cons, Nat.add_assoc, Nat.add_comm 1]

/-- The sectors read so far: their blocks are in the buffer, and nothing outside the transport and memory has changed. -/
def readsDone (s : State) (buf : Nat) (sector : Word) (rs : List ReadAttempt) (u : State) : Prop :=
  (rs.flatMap ReadAttempt.data).length = sectorSize * rs.length ∧
    ∃ k, u = { play (rs.flatMap ReadAttempt.bytes).length (rangeReadEvents s.session.capClass sector rs) s with
      cs := s.cs && rs.isEmpty, mem := memStore s.mem buf (rs.flatMap ReadAttempt.data), work := k }

theorem readsDone_nil (s : State) (buf : Nat) (sector : Word) : readsDone s buf sector [] s :=
  ⟨rfl, s.work, by simp [rangeReadEvents, memStore]⟩

/-- The events of one more sector read. -/
theorem rangeReadEvents_concat (c : CapClass) (sector : Word) (rs : List ReadAttempt) (x : ReadAttempt) :
    rangeReadEvents c sector (rs ++ [x]) =
      rangeReadEvents c sector rs ++ x.events 17 (translateSector c (sectorAt sector rs.length)) := by
  simp [rangeReadEvents, List.mapIdx_concat]

/-- One more sector read, on any attempt. -/
theorem readSectorBody_next {rs : List ReadAttempt} {x : ReadAttempt} {u : State} (hu : readsDone s buf sector rs u)
    (hf : x.fits s.params) (hq : s.env.arrivals = [])
    (hc : s.env.cardIn.drop (rs.flatMap ReadAttempt.bytes).length = x.bytes ++ rest)
    (ha : x.data = [] ∨ admitsBlock s (buf + sectorSize * rs.length)) :
    ∃ k, readSectorBody (buf + sectorSize * rs.length) (sectorAt sector rs.length) u = .done x.code
      { play ((rs ++ [x]).flatMap ReadAttempt.bytes).length (rangeReadEvents s.session.capClass sector (rs ++ [x])) s with
        cs := false, mem := memStore s.mem buf ((rs ++ [x]).flatMap ReadAttempt.data), work := k
        log := if x.code = 0 then s.log
          else (logAppend ⟨17, x.code, sectorAt sector rs.length, 0, 0⟩ s).log } := by
  obtain ⟨hlen, k, rfl⟩ := hu
  obtain ⟨l, h⟩ := readSectorBody_attempt (s := { play (rs.flatMap ReadAttempt.bytes).length
      (rangeReadEvents s.session.capClass sector rs) s with
      cs := s.cs && rs.isEmpty, mem := memStore s.mem buf (rs.flatMap ReadAttempt.data), work := k }) hf hq hc
    (sectorAt sector rs.length) ha
  refine ⟨l, h.trans ?_⟩
  rw [logAppend_log_congr (s := s) (by rfl) (by rfl), rangeReadEvents_concat, List.flatMap_append, List.flatMap_append,
    memStore_append, hlen]
  simp [play, Nat.add_assoc]

theorem readsDone_next {rs : List ReadAttempt} {x : ReadAttempt} {u : State} (hu : readsDone s buf sector rs u)
    (hf : x.fits s.params) (hx : x.code = 0) (hq : s.env.arrivals = [])
    (hc : s.env.cardIn.drop (rs.flatMap ReadAttempt.bytes).length = x.bytes ++ rest)
    (ha : admitsBlock s (buf + sectorSize * rs.length)) :
    ∃ v, readSectorBody (buf + sectorSize * rs.length) (sectorAt sector rs.length) u = .done 0 v ∧
      readsDone s buf sector (rs ++ [x]) v := by
  obtain ⟨k, h⟩ := readSectorBody_next hu hf hq hc (.inr ha)
  rw [if_pos hx, hx] at h
  refine ⟨_, h, ?_, k, ?_⟩
  · rw [List.flatMap_append, List.length_append, hu.1, List.flatMap_singleton, ReadAttempt.data_length_of_code hf hx,
      List.length_append, List.length_singleton, Nat.mul_add_one]
  · simp [play]

/-- The block of each sector of a range lies in its buffer. -/
theorem admitsBlock_of_range {n i : Nat} (ha : ∀ j < sectorSize * n, admits s (buf + j) = true) (hi : i < n) :
    admitsBlock s (buf + sectorSize * i) := fun j hj => by
  rw [Nat.add_assoc]
  have hblock : sectorSize * (i + 1) ≤ sectorSize * n := Nat.mul_le_mul_left _ hi
  exact ha _ (by rw [Nat.mul_add_one] at hblock; omega)

/-- A range of sector reads that all succeed, before what is left of it. -/
theorem readRange_prefix {rs : List ReadAttempt} (m : Nat) (hf : ∀ r ∈ rs, r.fits s.params ∧ r.code = 0)
    (hq : s.env.arrivals = []) (hc : s.env.cardIn = rs.flatMap ReadAttempt.bytes ++ rest)
    (ha : ∀ j < sectorSize * rs.length, admits s (buf + j) = true) :
    ∃ u, rangeLoop readSectorBody (rs.length + m) buf sector s =
      rangeLoop readSectorBody m (buf + sectorSize * rs.length) (sectorAt sector rs.length) u ∧
      readsDone s buf sector rs u := by
  refine rangeLoop_listed (Done := readsDone s buf sector) (fun pre x u hpre hu => ?_) (readsDone_nil s buf sector) m
  obtain ⟨hfit, hcode⟩ := hf x (hpre.subset (List.mem_append_right pre (List.mem_singleton_self x)))
  obtain ⟨more, hmore⟩ := drop_flatMap hpre hc
  have hlt : pre.length < rs.length := by
    have hle := hpre.length_le
    rwa [List.length_append, List.length_singleton] at hle
  exact readsDone_next hu hfit hcode hq hmore (admitsBlock_of_range ha hlt)

/-- The sectors written so far: their records are in the log, and nothing outside the transport and the log has changed. -/
def writesDone (s : State) (buf : Nat) (sector : Word) (ws : List SectorWrite) (u : State) : Prop :=
  ∃ k, u = { play (ws.flatMap SectorWrite.bytes).length (rangeWriteEvents s buf sector ws) s with
    cs := s.cs && ws.isEmpty, work := k, log := logAll (rangeWriteRecords s buf sector ws) s }

theorem writesDone_nil (s : State) (buf : Nat) (sector : Word) : writesDone s buf sector [] s :=
  ⟨s.work, by simp [rangeWriteEvents, rangeWriteRecords, logAll]⟩

/-- The events of one more sector write. -/
theorem rangeWriteEvents_concat (s : State) (buf : Nat) (sector : Word) (ws : List SectorWrite) (x : SectorWrite) :
    rangeWriteEvents s buf sector (ws ++ [x]) = rangeWriteEvents s buf sector ws ++
      x.events (translateSector s.session.capClass (sectorAt sector ws.length))
        (blockAt s (buf + sectorSize * ws.length)) := by
  simp [rangeWriteEvents, List.mapIdx_concat]

/-- The records of one more sector write. -/
theorem rangeWriteRecords_concat (s : State) (buf : Nat) (sector : Word) (ws : List SectorWrite) (x : SectorWrite) :
    rangeWriteRecords s buf sector (ws ++ [x]) = rangeWriteRecords s buf sector ws ++
      x.records (sectorAt sector ws.length) (blockAt s (buf + sectorSize * ws.length)) := by
  simp [rangeWriteRecords, List.mapIdx_concat]

/-- One more sector write, on any sequence of attempts. -/
theorem writeSectorBody_next {ws : List SectorWrite} {x : SectorWrite} {u : State} (hu : writesDone s buf sector ws u)
    (hf : x.fits s.params) (hq : s.env.arrivals = [])
    (hc : s.env.cardIn.drop (ws.flatMap SectorWrite.bytes).length = x.bytes ++ rest)
    (ha : admitsBlock s (buf + sectorSize * ws.length)) :
    ∃ v, writeSectorBody (buf + sectorSize * ws.length) (sectorAt sector ws.length) u = .done x.last.code v ∧
      writesDone s buf sector (ws ++ [x]) v := by
  obtain ⟨k, hu⟩ := hu
  have hblock : blockAt u (buf + sectorSize * ws.length) = blockAt s (buf + sectorSize * ws.length) := by rw [hu]; rfl
  have hsession : u.session = s.session := by rw [hu]; rfl
  have hlog : logAll (x.records (sectorAt sector ws.length) (blockAt s (buf + sectorSize * ws.length))) u =
      logAll (rangeWriteRecords s buf sector (ws ++ [x])) s := by
    rw [rangeWriteRecords_concat, logAll_append]
    exact logAll_congr _ (by rw [hu]; rfl) (by rw [hu])
  obtain ⟨l, h⟩ := writeSectorBody_listed (s := u) (by rw [hu]; exact hf) (by rw [hu]; exact hq)
    (by rw [hu]; exact hc) (sectorAt sector ws.length) (.inl (by rw [hu]; exact ha))
  rw [hblock, hsession, hlog] at h
  refine ⟨_, h, l, ?_⟩
  rw [hu, rangeWriteEvents_concat, List.flatMap_append]
  simp [play, Nat.add_assoc]

/-- A range of sector writes that all succeed, before what is left of it. -/
theorem writeRange_prefix {ws : List SectorWrite} (m : Nat) (hf : ∀ w ∈ ws, w.fits s.params ∧ w.last.code = 0)
    (hq : s.env.arrivals = []) (hc : s.env.cardIn = ws.flatMap SectorWrite.bytes ++ rest)
    (ha : ∀ j < sectorSize * ws.length, admits s (buf + j) = true) :
    ∃ u, rangeLoop writeSectorBody (ws.length + m) buf sector s =
      rangeLoop writeSectorBody m (buf + sectorSize * ws.length) (sectorAt sector ws.length) u ∧
      writesDone s buf sector ws u := by
  refine rangeLoop_listed (Done := writesDone s buf sector) (fun pre x u hpre hu => ?_) (writesDone_nil s buf sector) m
  obtain ⟨hfit, hcode⟩ := hf x (hpre.subset (List.mem_append_right pre (List.mem_singleton_self x)))
  obtain ⟨more, hmore⟩ := drop_flatMap hpre hc
  have hlt : pre.length < ws.length := by
    have hle := hpre.length_le
    rwa [List.length_append, List.length_singleton] at hle
  obtain ⟨v, hv, hdone⟩ := writeSectorBody_next hu hfit hq hmore (admitsBlock_of_range ha hlt)
  exact ⟨v, hcode ▸ hv, hdone⟩

/-! ### A block read back -/

/-- The block of bytes stored in memory is those bytes. -/
theorem blockAt_of_stores {u : State} {out : Nat} {d : List Byte} (h : storesBlock s u out d)
    (hd : d.length = sectorSize) : blockAt u out = d := by
  refine List.ext_getElem (by simp [blockAt, hd]) fun j hj hj' => ?_
  have hread := h (out + j)
  rw [if_pos ⟨Nat.le_add_right _ _, Nat.add_lt_add_left hj' _⟩, Nat.add_sub_cancel_left] at hread
  simp [blockAt, hread, hj']

end Sys2Proof.Machine

open Sys2Proof Sys2Proof.Machine

/-- Settles O34: READ_SECTOR on an attempt that delivers a block. -/
theorem readSectorDeliversTheBlock : Obligations.ReadSectorDeliversTheBlock := by
  unfold Obligations.ReadSectorDeliversTheBlock
  intro s buf sector r rest hu hs hw ha hm hf hc
  obtain ⟨t, ht, hdone, hbus, hmem, hlog⟩ :=
    readSector_attempt (x := .block r) (rest := rest) hu hs hw (.inr ha) hf hc
  refine ⟨t, ht, hdone, hbus, storesBlock_of_mem hm hmem, hlog.trans ?_⟩
  rw [ReadAttempt.code]
  by_cases hcrc : r.crc = crc16 r.data
  · rw [if_pos hcrc, if_pos hcrc, if_pos rfl]
  · rw [if_neg hcrc, if_neg hcrc, if_neg (by decide)]

/-- Settles O35: READ_SECTOR on an attempt that CmdBegin refuses. -/
theorem readSectorReturnsTheCardStatus : Obligations.ReadSectorReturnsTheCardStatus := by
  unfold Obligations.ReadSectorReturnsTheCardStatus
  intro s buf sector x rest hu hs hw hf hx hc
  obtain ⟨t, ht, hdone, hbus, hmem, hlog⟩ :=
    readSector_attempt (x := .refused x) (rest := rest) hu hs hw (.inl rfl) ⟨hf, hx⟩ hc
  exact ⟨t, ht, hdone, hbus, hmem, hlog.trans (if_neg fun h => hx (Result.code_eq_zero h))⟩

/-- Settles O36: READ_SECTOR on an attempt without a data-start token. -/
theorem readSectorWithoutTokenIsGeneric : Obligations.ReadSectorWithoutTokenIsGeneric := by
  unfold Obligations.ReadSectorWithoutTokenIsGeneric
  intro s buf sector c l rest hu hs hw hf hst hl hc
  have hcount : (ReadAttempt.noToken c l).bytes.length = c.opening.length + l.length + 1 := by
    simp [ReadAttempt.bytes, Nat.add_assoc]
  obtain ⟨t, ht, hdone, hbus, hmem, hlog⟩ := readSector_attempt (x := .noToken c l) (rest := rest) hu hs hw (.inl rfl)
    ⟨hf, hst, hl⟩ (by simpa [ReadAttempt.bytes] using hc)
  rw [hcount] at hbus
  exact ⟨t, ht, hdone, hbus, hmem, hlog.trans (if_neg (by decide : (-8 : Code) ≠ 0))⟩

/-- Settles O37: the sector reads in turn, to the end of the range. -/
theorem readRangeDeliversEverySector : Obligations.ReadRangeDeliversEverySector := by
  unfold Obligations.ReadRangeDeliversEverySector
  intro s buf sector count rs rest hu hs hw ha hm hlen hf hcs hc
  rw [← hlen] at ha
  obtain ⟨u, h, -, k, hdone⟩ := readRange_prefix (s := acquire (.readRange buf sector count) s) (sector := sector) 0 hf
    hu.2 hc ha
  have hbody : rangeLoop readSectorBody count.toNat buf sector (acquire (.readRange buf sector count) s) = .done 0 u := by
    rw [← hlen]
    exact h
  rw [acquire_cs, hcs, Bool.false_and] at hdone
  obtain ⟨t, ht, hreq, hbus, hmem, hlog⟩ := sectorRequest_played (i := .readRange buf sector count)
    (withBuffer_inRange hw) hu hs hdone hbody (drop_listed hc)
  exact ⟨t, ht, hreq, hbus, storesBlock_of_mem hm hmem, hlog⟩

/-- Settles O38: the sector reads in turn, and the failing one ends the range. -/
theorem readRangeStopsAtTheFirstFailure : Obligations.ReadRangeStopsAtTheFirstFailure := by
  unfold Obligations.ReadRangeStopsAtTheFirstFailure
  intro s buf sector count rs x rest hu hs hw ha hm hlen hf hx hcode hc
  obtain ⟨m, hcount⟩ : ∃ m, count.toNat = rs.length + (m + 1) := ⟨count.toNat - rs.length - 1, by omega⟩
  have hc' : s.env.cardIn = rs.flatMap ReadAttempt.bytes ++ (x.bytes ++ rest) := by simpa using hc
  obtain ⟨u, h, hdone⟩ := readRange_prefix (s := acquire (.readRange buf sector count) s) (sector := sector) (m + 1) hf
    hu.2 hc' fun j hj => ha j (lt_of_lt_of_le hj (Nat.mul_le_mul_left _ hlen.le))
  obtain ⟨k, hlast⟩ := readSectorBody_next (x := x) hdone hx hu.2 (drop_listed hc')
    (.inr (admitsBlock_of_range ha hlen))
  have hbody := h.trans (rangeLoop_stops hlast hcode)
  rw [if_neg hcode, ← hcount] at hbody
  obtain ⟨t, ht, hreq, hbus, hmem, hlog⟩ := sectorRequest_played (i := .readRange buf sector count)
    (withBuffer_inRange hw) hu hs rfl hbody (drop_listed hc)
  exact ⟨t, ht, hreq, hbus, storesBlock_of_mem hm hmem, hlog.trans (logAppend_log_congr (by rfl) (by rfl) _)⟩

/-- Settles O39: the retry loop, from the whole budget on. -/
theorem writeStopsAtTheFirstOtherResult : Obligations.WriteStopsAtTheFirstOtherResult := by
  unfold Obligations.WriteStopsAtTheFirstOtherResult
  exact fun s buf sector x rest hu hs hw ha hf hc => writeSector_listed hu hs hw ha hf hc

/-- Settles O40: the retry loop whose first attempt CmdBegin refuses, which is no checksum rejection. -/
theorem writeSectorReturnsTheCardStatus : Obligations.WriteSectorReturnsTheCardStatus := by
  unfold Obligations.WriteSectorReturnsTheCardStatus
  intro s buf sector x rest hu hs hw hbudget hf hx hc
  have hfit : (SectorWrite.mk [] (.refused x)).fits s.params :=
    ⟨fun _ hv => absurd hv List.not_mem_nil, ⟨hf, hx⟩, hbudget, fun h => absurd h x.code_ne_checksumFailed⟩
  obtain ⟨t, ht, hdone, hbus, hmem, hlog⟩ :=
    writeSector_listed (rest := rest) hu hs hw (.inr ⟨rfl, x, rfl⟩) hfit hc
  have hnonzero : ¬ (WriteEnd.refused x).code = 0 := fun h => hx (Result.code_eq_zero h)
  rw [SectorWrite.records, if_neg hnonzero] at hlog
  exact ⟨t, ht, hdone, hbus, hmem, hlog⟩

/-- Settles O41: the retry loop whose last attempt, the one that uses the budget up, is rejected as the others. -/
theorem rejectedWriteUsesTheWholeBudget : Obligations.RejectedWriteUsesTheWholeBudget := by
  unfold Obligations.RejectedWriteUsesTheWholeBudget
  intro s buf sector ws rest hu hs hw hbudget ha hlen hf hc
  obtain ⟨rejected, w, rfl⟩ : ∃ rejected w, ws = rejected ++ [w] :=
    (List.eq_nil_or_concat' ws).resolve_left fun h => by
      rw [h, List.length_nil] at hlen
      omega
  obtain ⟨hw1, hw2⟩ := hf w (by simp)
  have hcode := WriteEnd.code_of_rejects hw2
  rw [List.length_append, List.length_singleton] at hlen
  have hfit : (SectorWrite.mk rejected (.sent w)).fits s.params :=
    ⟨fun v hv => hf v (List.mem_append_left _ hv), hw1, hlen ▸ Nat.lt_succ_self _, fun _ => hlen⟩
  have hnonzero : ¬ (WriteEnd.sent w).code = 0 := by rw [hcode]; decide
  obtain ⟨t, ht, hdone, hbus, hmem, hlog⟩ := writeSector_listed (rest := rest) hu hs hw (.inl ha) hfit
    (by simpa [SectorWrite.bytes, WriteEnd.bytes] using hc)
  rw [hcode] at hdone
  rw [SectorWrite.records, if_neg hnonzero] at hlog
  refine ⟨t, ht, hdone, ?_, hmem, ?_⟩
  · simpa [SectorWrite.bytes, SectorWrite.events, WriteEnd.bytes, WriteEnd.events] using hbus
  · simpa [WriteEnd.record] using hlog

/-- Settles O42: the sector writes in turn, to the end of the range. -/
theorem writeRangeSendsEverySector : Obligations.WriteRangeSendsEverySector := by
  unfold Obligations.WriteRangeSendsEverySector
  intro s buf sector count ws rest hu hs hw ha hlen hf hcs hc
  rw [← hlen] at ha
  obtain ⟨u, h, k, hdone⟩ := writeRange_prefix (s := acquire (.writeRange buf sector count) s) (sector := sector) 0 hf
    hu.2 hc ha
  have hbody : rangeLoop writeSectorBody count.toNat buf sector (acquire (.writeRange buf sector count) s) =
      .done 0 u := by
    rw [← hlen]
    exact h
  rw [acquire_cs, hcs, Bool.false_and] at hdone
  obtain ⟨t, ht, hreq, hbus, hmem, hlog⟩ := sectorRequest_played (i := .writeRange buf sector count)
    (withBuffer_inRange hw) hu hs hdone hbody (drop_listed hc)
  exact ⟨t, ht, hreq, hbus, hmem, hlog.trans (logAll_congr _ (by rfl) (by rfl))⟩

/-- Settles O43: the sector writes in turn, and the failing one ends the range. -/
theorem writeRangeStopsAtTheFirstFailure : Obligations.WriteRangeStopsAtTheFirstFailure := by
  unfold Obligations.WriteRangeStopsAtTheFirstFailure
  intro s buf sector count ws x rest hu hs hw ha hlen hf hx hcode hc
  obtain ⟨m, hcount⟩ : ∃ m, count.toNat = ws.length + (m + 1) := ⟨count.toNat - ws.length - 1, by omega⟩
  have hc' : s.env.cardIn = ws.flatMap SectorWrite.bytes ++ (x.bytes ++ rest) := by simpa using hc
  obtain ⟨u, h, hdone⟩ := writeRange_prefix (s := acquire (.writeRange buf sector count) s) (sector := sector) (m + 1)
    hf hu.2 hc' fun j hj => ha j (lt_of_lt_of_le hj (Nat.mul_le_mul_left _ hlen.le))
  obtain ⟨v, hlast, k, hall⟩ := writeSectorBody_next (x := x) hdone hx hu.2 (drop_listed hc')
    (admitsBlock_of_range ha hlen)
  have hbody := h.trans (rangeLoop_stops hlast hcode)
  rw [← hcount] at hbody
  have hoff : ((acquire (.writeRange buf sector count) s).cs && (ws ++ [x]).isEmpty) = false := by simp
  rw [hoff] at hall
  obtain ⟨t, ht, hreq, hbus, hmem, hlog⟩ := sectorRequest_played (i := .writeRange buf sector count)
    (withBuffer_inRange hw) hu hs hall hbody (drop_listed hc)
  exact ⟨t, ht, hreq, hbus, hmem, hlog.trans (logAll_congr _ (by rfl) (by rfl))⟩

/-- Settles O45: the write takes the block from memory and leaves memory and session as they were, so that the read
stores the same bytes at the same address. -/
theorem writtenBlockReadBackIsTheSame : Obligations.WrittenBlockReadBackIsTheSame := by
  unfold Obligations.WrittenBlockReadBackIsTheSame
  intro s buf out sector w r rest hu hs hw hr hbudget ha hb hm hfw hacc hfr hdata hcrc hc
  have hcode : (WriteEnd.sent w).code = 0 := if_pos hacc
  have hfit : (SectorWrite.mk [] (.sent w)).fits s.params :=
    ⟨fun _ hv => absurd hv List.not_mem_nil, hfw, hbudget, fun h => absurd (hcode.symm.trans h) (by decide)⟩
  obtain ⟨t, ht, hdone, hbus, hmem, -⟩ := writeSector_listed (rest := r.bytes ++ rest) hu hs hw (.inl ha) hfit
    (by rw [hc, List.append_assoc]; rfl)
  rw [hcode] at hdone
  obtain ⟨hcard, -, htrace, -⟩ := hbus
  obtain ⟨-, hparams, hsession, hmap, hsync, harrivals, -⟩ := id hdone
  have hadmits : admitsBlock t out := fun j hj => by
    rw [admits_congr hparams hmap]
    exact hb j hj
  obtain ⟨v, hv, hdone', ⟨-, -, htrace', -⟩, hmem', -⟩ := readSector_attempt (x := .block r) (rest := rest)
    (s := t) (buf := out) (sector := sector) ⟨by rw [hsync], harrivals.trans hu.2⟩ (by rw [hsession]; exact hs)
    (by rw [hparams]; exact hr) (.inr hadmits) (by rw [hparams]; exact hfr) hcard
  obtain ⟨-, -, -, hlen⟩ := hfr
  have hback : blockAt v out = r.data :=
    blockAt_of_stores (s := t) (storesBlock_of_mem (by rw [hmem]; exact hm) hmem') hlen
  have hzero : (ReadAttempt.block r).code = 0 := if_pos hcrc
  rw [hzero] at hdone'
  refine ⟨t, v, ht, hv, hdone, hdone', hback.trans hdata, ?_⟩
  rw [htrace', htrace, hsession]
  simp [SectorWrite.events, WriteEnd.events, ReadAttempt.events]
end

section
/-!
PROOFS. STARTUP (R231 to R246) on a script: to Ready, and to Faulted in Probing and in IdleWait.
-/

namespace Sys2Proof.Machine

open Sys2Proof

variable {s : State}

/-! ### Negotiation on a full script -/

/-- STARTUP whose negotiation plays `evs` and passes: Ready at the fast clock, one response 0, no log record (R245). -/
theorem startup_ready_played {n : Nat} {evs : List BusEvent} {k : Work} {q : Session} (hu : undisturbed s)
    (hs : s.session.state = .uninitialized)
    (hn : negotiation (acquire .startup s) =
      .done .pass { play n evs (acquire .startup s) with cs := false, work := k, session := q }) :
    ∃ t, exec .startup s = .next t ∧ startupDone s t 0 ∧
      t.session = ⟨.ready, q.faultCode, q.capClass, q.cardGen, .fast⟩ ∧
      busMoved s t n (s.env.cardIn.drop n) (evs ++ [.setClock .fast]) ∧ t.log = s.log := by
  refine ⟨_, startup_ready hu.1 hs hn hu.2, ?_, ?_, ?_, ?_⟩
  · simp [startupDone, resultReply]
  · simp
  · simp [busMoved]
  · simp

/-- The whole negotiation of a card that becomes ready (R232 to R244). -/
theorem negotiation_passes {q : ProbeScript} {is : List Iteration} {last : Iteration} {e : ConfigScript}
    {rest : List Byte} (hq : q.fits s.params) (hi : iterationsFit s.params q.gen (is ++ [last]))
    (hr : ∀ i ∈ is, i.result ≠ .status 0x00#8) (hl : last.result = .status 0x00#8)
    (hn : is.length < s.params.nIdleWait) (he : e.fits s.params) (ha : s.env.arrivals = [])
    (hc : s.env.cardIn = q.bytes ++ (is ++ [last]).flatMap Iteration.bytes ++ e.bytes ++ rest) :
    ∃ k, negotiation s = .done .pass
        { play (q.bytes ++ (is ++ [last]).flatMap Iteration.bytes ++ e.bytes).length
            (q.events ++ (is ++ [last]).flatMap (Iteration.events q.hcs) ++ (e.readOcr.payloadEvents 58 0 e.ocr ++
              e.blockLen.events 16 cmd16Argument ++ e.crcOn.events 59 cmd59Argument)) s with
          cs := false, work := k
          session := ⟨.configuring, s.session.faultCode, shownCapacity (genAfter q.gen is) e.ocr, genAfter q.gen is,
            .slow⟩ } := by
  obtain ⟨k, h, -⟩ := idleWait_reached hq hi hr hn (.inl hl) ha (rest := e.bytes ++ rest) (by simpa using hc)
  rw [if_pos hl, genAfter_ready hl] at h
  obtain ⟨m, h'⟩ := config_passes (e := e) (rest := rest)
    (s := { play (q.bytes ++ (is ++ [last]).flatMap Iteration.bytes).length
        (q.events ++ (is ++ [last]).flatMap (Iteration.events q.hcs)) s with
      cs := false, work := k, session := ⟨.idleWait, s.session.faultCode, .standard, genAfter q.gen is, .slow⟩ })
    he rfl ha rfl (by rw [play_cardIn, hc, List.append_assoc, List.drop_left])
  refine ⟨m, ?_⟩
  rw [negotiation_config h h']
  simp [play, Nat.add_assoc]

/-! ### A card that turns out to be an MMC -/

/-- Iterations none of which is illegal leave the card generation, so each of them needs to fit it alone. -/
theorem iterationsFit_legal {p : Params} {g : CardGen} {is : List Iteration} (hl : ∀ i ∈ is, i.result.isIllegal = false)
    (hf : ∀ i ∈ is, i.fits p g) {js : List Iteration} (hj : iterationsFit p g js) :
    iterationsFit p g (is ++ js) ∧ genAfter g is = g := by
  induction is with
  | nil => exact ⟨hj, rfl⟩
  | cons i is ih =>
    have hg : nextGen g i = g := by rw [nextGen, hl i (by simp), if_neg Bool.false_ne_true]
    obtain ⟨h, h'⟩ := ih (fun j hj => hl j (by simp [hj])) (fun j hj => hf j (by simp [hj]))
    refine ⟨⟨hf i (by simp), hg.symm ▸ h⟩, ?_⟩
    rw [genAfter, List.foldl_cons, hg]
    exact h'

/-- An MMC stays one. -/
theorem nextGen_mmc (i : Iteration) : nextGen .mmc i = .mmc := by
  rcases nextGen_or .mmc i with h | h <;> exact h

/-- Iterations of CMD1 are those of an MMC. -/
theorem iterationsFit_legacy {p : Params} {xs : List Exchange} (hf : ∀ x ∈ xs, x.fits p) :
    iterationsFit p .mmc (xs.map Iteration.legacy) := by
  induction xs with
  | nil => exact trivial
  | cons x xs ih =>
    refine ⟨⟨rfl, hf x (by simp)⟩, ?_⟩
    rw [nextGen_mmc]
    exact ih fun y hy => hf y (by simp [hy])

/-- An illegal bit among the iterations makes the card an MMC for the rest of them (R239). -/
theorem genAfter_illegal {g : CardGen} {turn : Iteration} (ht : turn.result.isIllegal = true) (is js : List Iteration) :
    genAfter g (is ++ turn :: js) = .mmc := by
  have hturn : nextGen (genAfter g is) turn = .mmc := by rw [nextGen, if_pos ht]
  have : genAfter g (is ++ turn :: js) = genAfter (nextGen (genAfter g is) turn) js := by
    simp [genAfter]
  rw [this, hturn]
  rcases genAfter_or js .mmc with h | h <;> exact h

/-- A result with the illegal bit set is not the status 0x00. -/
theorem ne_ready_of_isIllegal {r : Result} (h : r.isIllegal = true) : r ≠ .status 0x00#8 := by
  rintro rfl
  exact absurd h (by decide)

end Sys2Proof.Machine

open Sys2Proof Sys2Proof.Machine

/-- Settles O50: the attempts of Probing on their script, then the fault path. -/
theorem probingRetriesOrFaults : Obligations.ProbingRetriesOrFaults := by
  unfold Obligations.ProbingRetriesOrFaults
  intro s pu tries last rest hu hs hpu ht hl hb he hc
  obtain ⟨k, h, hidx, harg⟩ := probing_faults (s := acquire .startup s) hpu ht hl hb he hu.2 hc
  obtain ⟨t, hexec, hdone, hsession, hbus, hlog⟩ := startup_fault_played hu hs (negotiation_probing h)
  rw [drop_listed hc] at hbus
  rw [hidx, harg] at hlog
  have hcode : (if last.result = .err .generic then ErrKind.generic else .resetTimeout).code =
      if last.result = .err .generic then -8 else -3 := apply_ite ErrKind.code _ _ _
  rw [hcode] at hdone hsession
  exact ⟨t, hexec, hdone, hsession, hbus, hlog⟩

/-- Settles O49: the iterations of IdleWait on their script to the bound, then the fault path. -/
theorem idleWaitMakesExactlyItsIterations : Obligations.IdleWaitMakesExactlyItsIterations := by
  unfold Obligations.IdleWaitMakesExactlyItsIterations
  intro s q is last rest hu hs hq hi hr hn hc
  obtain ⟨k, h, hrec⟩ := idleWait_reached (s := acquire .startup s) hq hi (fun i hi => hr i (by simp [hi]))
    (Nat.lt_of_succ_le hn.le) (.inr hn) hu.2 hc
  rw [if_neg (hr last (by simp))] at h
  obtain ⟨t, hexec, hdone, hsession, hbus, hlog⟩ := startup_fault_played hu hs (negotiation_idleWait h)
  rw [drop_listed hc] at hbus
  rw [hrec] at hlog
  exact ⟨t, hexec, hdone, hsession, hbus, hlog⟩

/-- Settles O47: the negotiation on its whole script, then Ready. -/
theorem startupOfReadyCardReachesReady : Obligations.StartupOfReadyCardReachesReady := by
  unfold Obligations.StartupOfReadyCardReachesReady
  intro s q is last e rest hu hs hq hi hr hl hn he hc
  obtain ⟨k, h⟩ := negotiation_passes (s := acquire .startup s) hq hi hr hl hn he hu.2 hc
  obtain ⟨t, hexec, hdone, hsession, hbus, hlog⟩ := startup_ready_played hu hs h
  rw [drop_listed hc] at hbus
  refine ⟨t, hexec, hdone, hsession, ?_, hlog⟩
  simpa only [ConfigScript.events, List.append_assoc] using hbus

/-- Settles O48: O47 for the iterations before the illegal bit, the one that shows it, and those of CMD1 after it. -/
theorem illegalAppCommandFallsBackToMmc : Obligations.IllegalAppCommandFallsBackToMmc := by
  unfold Obligations.IllegalAppCommandFallsBackToMmc
  intro s q is turn waits last e rest hu hs hq hfit his hturn hwaits hn hlast hlast0 he hc
  have hmmc : nextGen q.gen turn = .mmc := if_pos hturn
  have hlegacy := iterationsFit_legacy (xs := waits ++ [.answered last]) (p := s.params) (by
    simp only [List.mem_append, List.mem_singleton]
    rintro x (hx | rfl)
    · exact (hwaits x hx).1
    · exact hlast)
  have hiter : iterationsFit s.params q.gen ((is ++ turn :: waits.map .legacy) ++ [.legacy (.answered last)]) := by
    have h := (iterationsFit_legal (p := s.params) (fun i hi => (his i hi).2) (fun i hi => hfit i (by simp [hi]))
      (js := turn :: (waits ++ [Exchange.answered last]).map .legacy)
      ⟨hfit turn (by simp), hmmc.symm ▸ hlegacy⟩).1
    simpa using h
  obtain ⟨t, hexec, hdone, hsession, hbus, hlog⟩ := startupOfReadyCardReachesReady s q (is ++ turn :: waits.map .legacy)
    (.legacy (.answered last)) e rest hu hs hq hiter
    (by
      simp only [List.mem_append, List.mem_cons, List.mem_map]
      rintro i (hi | rfl | ⟨x, hx, rfl⟩)
      · exact (his i hi).1
      · exact ne_ready_of_isIllegal hturn
      · exact (hwaits x hx).2)
    (by rw [Iteration.result, Exchange.result, hlast0]) (by simp; omega) he
    (by simp [hc, Iteration.bytes, List.flatMap_map])
  rw [genAfter_illegal hturn, shownCapacity_mmc] at hsession
  refine ⟨t, hexec, hdone, hsession, ?_, hlog⟩
  simpa [Iteration.bytes, Iteration.events, List.flatMap_map] using hbus
end

section
/-!
PROOFS. Every request completes (R301, R340): with nothing arriving, and with the bytes of its own buffer admitted, a
request's work is never halted, whatever the card answers; STARTUP ends in Ready or in Faulted (R231, R245, R246).
-/

namespace Sys2Proof.Machine

open Sys2Proof

variable {α : Type} {P : BitVec 6 → Word → Prop} {I H : State → Prop} {s t : State} {i : Instr}

/-! ### What a run keeps whose own buffer accesses keep it -/

theorem receiveBytes_keeps_of (h : DataKept I H) (n : Nat) : ∀ a c,
    (∀ j < n, ∀ v, keeps I H (bufWrite (a + j) v)) → keeps I H (receiveBytes n a c) := by
  induction n with
  | zero => exact fun _ c _ => keeps_done c
  | succ n ih =>
    intro a c hb
    refine keeps_andThen (xfer_keeps h _) fun v => keeps_andThen (hb 0 (Nat.succ_pos n) v) fun _ =>
      ih _ _ fun j hj w => ?_
    rw [Nat.add_assoc, Nat.add_comm 1 j]
    exact hb (j + 1) (Nat.succ_lt_succ hj) w

theorem sendPayload_keeps_of (h : DataKept I H) (n : Nat) : ∀ a c,
    (∀ j < n, keeps I H (bufRead (a + j))) → keeps I H (sendPayload n a c) := by
  induction n with
  | zero => exact fun _ c _ => keeps_done c
  | succ n ih =>
    intro a c hb
    refine keeps_andThen (hb 0 (Nat.succ_pos n)) fun v => keeps_andThen (xfer_keeps h _) fun _ => ih _ _ fun j hj => ?_
    rw [Nat.add_assoc, Nat.add_comm 1 j]
    exact hb (j + 1) (Nat.succ_lt_succ hj)

theorem readDataBlock_keeps_of (h : DataKept I H) {buf : Nat}
    (hb : ∀ j < sectorSize, ∀ v, keeps I H (bufWrite (buf + j) v)) : keeps I H (readDataBlock buf) := by
  have hblock : keeps I H (receiveBlock buf) :=
    keeps_andThen (receiveBytes_keeps_of h _ _ _ hb) fun _ => keeps_andThen (xfer_keeps h _) fun _ =>
      keeps_andThen (xfer_keeps h _) fun _ s hs => h.work s _ rfl hs
  intro s hs
  refine sat_andThen (tokenLoop_keeps h _ _ (h.work s _ rfl hs)) fun e s hs => ?_
  cases e with
  | some k => exact hs
  | none => exact sat_andThen (hblock s hs) fun _ _ ht => ht

theorem blockRead_keeps_of (h : EventKept P I H) {buf : Nat}
    (hb : ∀ j < sectorSize, ∀ v, keeps I H (bufWrite (buf + j) v)) {idx : BitVec 6} {addr : Word} (hp : P idx addr) :
    keeps I H (blockRead idx addr buf) := by
  refine keeps_andThen (cmdBegin_keeps h hp) fun r s hs => ?_
  refine sat_andThen (D := fun _ => I) ?_ fun _ s hs => sat_andThen (cmdEnd_keeps h s hs) fun _ _ ht => ht
  split_ifs
  · exact readDataBlock_keeps_of h.toDataKept hb s hs
  · exact hs

theorem writeDataBlock_keeps_of (h : DataKept I H) {buf : Nat} (hb : ∀ j < sectorSize, keeps I H (bufRead (buf + j))) :
    keeps I H (writeDataBlock buf) := by
  have hx := xfer_keeps h
  refine keeps_andThen (hx _) fun _ => keeps_andThen (hx _) fun _ =>
    keeps_andThen (sendPayload_keeps_of h _ _ _ hb) fun c s hs => ?_
  refine sat_andThen (hx _ _ (h.work s _ rfl hs)) fun _ s hs => sat_andThen (hx _ s hs) fun _ s hs =>
    sat_andThen (hx _ s hs) fun t s hs => ?_
  exact sat_andThen (busyLoop_keeps h _ _ (h.work _ _ rfl (h.work s _ rfl hs))) fun _ _ ht => ht

theorem blockWrite_keeps_of (h : EventKept P I H) {buf : Nat} (hb : ∀ j < sectorSize, keeps I H (bufRead (buf + j)))
    {addr : Word} (hp : P 24 addr) : keeps I H (blockWrite addr buf) := by
  refine keeps_andThen (cmdBegin_keeps h hp) fun r s hs => ?_
  refine sat_andThen (D := fun _ => I) ?_ fun _ s hs => sat_andThen (cmdEnd_keeps h s hs) fun _ _ ht => ht
  split_ifs
  · exact sat_andThen (writeDataBlock_keeps_of h.toDataKept hb s hs) fun _ _ ht => ht
  · exact hs

/-- A range keeps what the work on each of its own blocks keeps. -/
theorem rangeLoop_keeps_of {one : Nat → Word → State → Ran Code} (n : Nat) : ∀ buf sector,
    (∀ k < n, ∀ w, keeps I H (one (buf + sectorSize * k) w)) → keeps I H (rangeLoop one n buf sector) := by
  induction n with
  | zero => exact fun _ _ _ => keeps_done 0
  | succ n ih =>
    intro buf sector ho s hs
    refine sat_andThen (ho 0 (Nat.succ_pos n) sector s hs) fun c s hs => ?_
    split_ifs
    · refine ih _ _ (fun k hk w => ?_) s hs
      have hnext : nextBuffer buf + sectorSize * k = buf + sectorSize * (k + 1) := by
        rw [nextBuffer, Nat.mul_add_one]; omega
      rw [hnext]
      exact ho (k + 1) (Nat.succ_lt_succ hk) w
    · exact hs

/-! ### A request in service -/

/-- `t` may come to be while a request that began in `s` is served: configuration and map of memory, the lock and the
ports are those of `s`, no response was delivered, and nothing arrives. -/
def served (s t : State) : Prop :=
  t.params = s.params ∧ t.noAccess = s.noAccess ∧ t.sync = s.sync ∧ t.responses = s.responses ∧ t.env.arrivals = []

theorem served_refl (hq : s.env.arrivals = []) : served s s := ⟨rfl, rfl, rfl, rfl, hq⟩

/-- Nothing arrives while it is served. -/
theorem served_quiet (ht : served s t) : t.env.arrivals = [] := by
  obtain ⟨-, -, -, -, harr⟩ := ht
  exact harr

/-- The transport serves on and is never halted. -/
theorem served_events (s : State) : EventKept (fun _ _ => True) (served s) (fun _ => False) where
  tick t ht := by
    rw [tick_quiet (served_quiet ht)]
    exact ht
  draw t ht := by
    unfold drawByte
    split <;> exact ht
  event _ _ ht := ht
  select _ _ ht := ht
  latch _ _ _ _ ht := ht
  work _ _ _ ht := ht

theorem served_logAppend (r : LogRecord) (ht : served s t) : served s (logAppend r t) := by
  rw [served, logAppend_params, logAppend_noAccess, logAppend_sync, logAppend_responses, logAppend_env]
  exact ht

theorem served_admits (ht : served s t) (a : Nat) : admits t a = admits s a := by
  obtain ⟨hparams, hmap, -⟩ := ht
  exact admits_congr hparams hmap a

/-- An access to an admitted byte is not halted. -/
theorem served_bufWrite {a : Nat} (ha : admits s a = true) (v : Byte) :
    keeps (served s) (fun _ => False) (bufWrite a v) := fun t ht => by
  rw [bufWrite_quiet (served_quiet ht) ((served_admits ht a).trans ha)]
  exact ht

theorem served_bufRead {a : Nat} (ha : admits s a = true) : keeps (served s) (fun _ => False) (bufRead a) :=
  fun t ht => by
    rw [bufRead_quiet (served_quiet ht) ((served_admits ht a).trans ha)]
    exact ht

/-! ### The sector requests on admitted bytes -/

theorem served_readSectorBody {buf : Nat} (ha : admitsBlock s buf) (sector : Word) :
    keeps (served s) (fun _ => False) (readSectorBody buf sector) := by
  intro t ht
  refine sat_andThen (blockRead_keeps_of (served_events s) (fun j hj => served_bufWrite (ha j hj)) trivial t ht)
    fun r u hu => ?_
  simp only [sat_done]
  split_ifs
  · exact hu
  · exact served_logAppend _ hu

theorem served_writeOnce {buf : Nat} (ha : admitsBlock s buf) (sector : Word) :
    keeps (served s) (fun _ => False) (writeOnce buf sector) := by
  intro t ht
  refine sat_andThen (blockWrite_keeps_of (served_events s) (fun j hj => served_bufRead (ha j hj)) trivial t ht)
    fun w u hu => ?_
  simp only [sat_done]
  split_ifs
  · exact hu
  · exact served_logAppend _ hu

theorem served_writeLoop {buf : Nat} (ha : admitsBlock s buf) (sector : Word) (n : Nat) :
    keeps (served s) (fun _ => False) (writeLoop n buf sector) := by
  induction n with
  | zero => exact keeps_done _
  | succ n ih =>
    intro t ht
    refine sat_andThen (served_writeOnce ha sector t ht) fun c u hu => ?_
    dsimp only
    split_ifs
    · exact ih _ hu
    · exact hu

theorem served_writeSectorBody {buf : Nat} (ha : admitsBlock s buf) (sector : Word) :
    keeps (served s) (fun _ => False) (writeSectorBody buf sector) :=
  fun _ ht => served_writeLoop ha sector _ _ ht

theorem off_writeSectorBody (buf : Nat) (sector : Word) : keeps off (fun _ => True) (writeSectorBody buf sector) :=
  writeSectorBody_keeps off_kept.toLogKept (fun _ => trivial) buf sector

/-! ### STARTUP whatever the card answers -/

/-- With nothing arriving STARTUP ends in Ready without a log record, or in Faulted with one, and touches nothing else
outside the transport and the session registers. -/
theorem startupBody_beside (hq : s.env.arrivals = []) (h1 : s.session.state ≠ .ready)
    (h2 : s.session.state ≠ .faulted) :
    sat (startupBody s)
      (fun _ t => t.session.state = .ready ∧ sameBeside s t ∨
        t.session.state = .faulted ∧ ∃ r, sameBeside { s with log := (logAppend r s).log } t)
      (fun _ => False) := by
  unfold startupBody
  split
  · exact absurd ‹_› h1
  · exact absurd ‹_› h2
  · have hrefl : sameBeside s s := ⟨rfl, rfl, rfl, rfl, rfl, rfl, rfl, rfl, rfl⟩
    refine sat_andThen (negotiation_keeps (sameBeside_kept hq) (fun _ _ _ => trivial) s hrefl) fun v u hu => ?_
    cases v with
    | pass => exact sat_andThen (setClock_keeps (sameBeside_kept hq) .fast u hu) fun _ _ ht => .inl ⟨rfl, ht⟩
    | fault k r =>
      obtain ⟨hparams, hlog, hsync, hmem, hmap, harr, horder, hpicks, hresp⟩ := hu
      refine .inr ⟨by rw [takeFault_session], ⟨u.work.idx.setWidth 8, r.code, u.work.arg, 0, 0⟩, ?_⟩
      simp only [sameBeside, takeFault_params, takeFault_log, takeFault_sync, takeFault_mem, takeFault_noAccess,
        takeFault_env, takeFault_responses]
      exact ⟨hparams, logAppend_log_congr hparams hlog _, hsync, hmem, hmap, harr, horder, hpicks, hresp⟩

/-- A negotiation was held, so that STARTUP ends with the card deselected, however it began (R232). -/
theorem off_startupBody_negotiated (h1 : s.session.state ≠ .ready) (h2 : s.session.state ≠ .faulted) :
    sat (startupBody s) (fun _ => off) fun _ => True := by
  unfold startupBody
  split
  · exact absurd ‹_› h1
  · exact absurd ‹_› h2
  · refine sat_andThen (off_negotiation s) fun v u hu => ?_
    cases v with
    | pass => exact sat_andThen (setClock_keeps off_kept.toPhaseKept .fast u hu) fun _ _ ht => ht
    | fault k r => exact (takeFault_cs k r u).trans hu

theorem served_of_sameBeside {l : Log} (hq : s.env.arrivals = []) (ht : sameBeside { s with log := l } t) :
    served s t := by
  obtain ⟨hparams, -, hsync, -, hmap, harr, -, -, hresp⟩ := ht
  exact ⟨hparams, hmap, hsync, hresp, harr.trans hq⟩

theorem served_startupBody (hq : s.env.arrivals = []) :
    sat (startupBody s) (fun _ => served s) (fun _ => False) := by
  by_cases hterm : s.session.state = .ready ∨ s.session.state = .faulted
  · rw [startupBody_terminal hterm]
    exact served_refl hq
  · obtain ⟨h1, h2⟩ := not_or.mp hterm
    refine sat_mono (startupBody_beside hq h1 h2) (fun _ t ht => ?_) fun _ => id
    rcases ht with ⟨-, ht⟩ | ⟨-, r, ht⟩
    · exact served_of_sameBeside hq ht
    · exact served_of_sameBeside hq ht

/-- STARTUP completed, after work that touched the transport, the session registers and the log at most. -/
theorem startupDone_of_beside {l : Log} (h : sameBeside { acquire .startup s with log := l } t) (c : Code) :
    startupDone s (respond t.sync.caller (resultReply c) (release { t with work.result := c })) c ∧ t.log = l := by
  obtain ⟨hparams, hlog, hsync, hmem, hmap, harr, horder, hpicks, hresp⟩ := h
  have hports : t.sync = ⟨some s.sync.caller, some .startup, s.sync.requests, s.sync.caller⟩ := hsync
  refine ⟨⟨?_, hparams, hmem, hmap, ?_, harr, horder, hpicks⟩, hlog⟩
  · rw [respond_responses, release_responses, hports]
    exact congrArg _ hresp
  · rw [respond_sync, release_sync, hports]

/-! ### The end of a request -/

/-- A run that is not halted and meets both of two ends is done in a state that meets them. -/
theorem done_of_both {r : Ran α} {D E : α → State → Prop} (h : sat r D fun _ => False) (k : sat r E fun _ => True) :
    ∃ a t, r = .done a t ∧ D a t ∧ E a t := by
  obtain ⟨a, t, hr, hD⟩ := done_of_sat h
  rw [hr] at k
  exact ⟨a, t, hr, hD, k⟩

/-- A request whose work is never halted completes with its one response, the lock free and the card deselected. -/
theorem serveRequest_completes {body : State → Ran Reply} (hu : undisturbed s)
    (hb : sat (body (acquire i s)) (fun _ => served (acquire i s)) fun _ => False)
    (hoff : sat (body (acquire i s)) (fun _ => off) fun _ => True) :
    ∃ t r, serveRequest i body s = .next t ∧ t.responses = ⟨s.sync.caller, r⟩ :: s.responses ∧
      t.sync = ⟨none, none, s.sync.requests, s.sync.caller⟩ ∧ t.cs = false := by
  obtain ⟨r, u, hrun, ⟨-, -, hsync, hresp, harr⟩, hcs⟩ := done_of_both hb hoff
  refine ⟨_, r, serveRequest_done hu.1 hrun harr, ?_, ?_, hcs⟩
  · simp [hsync, hresp]
  · simp [hsync]

/-- The same for a sector request, in Ready or not. -/
theorem whenReady_completes {body : State → Ran Code} (hu : undisturbed s) (hcs : s.cs = false)
    (hb : keeps (served (acquire i s)) (fun _ => False) body) (hoff : keeps off (fun _ => True) body) :
    ∃ t r, serveRequest i (whenReady body) s = .next t ∧ t.responses = ⟨s.sync.caller, r⟩ :: s.responses ∧
      t.sync = ⟨none, none, s.sync.requests, s.sync.caller⟩ ∧ t.cs = false :=
  serveRequest_completes hu (whenReady_keeps hb _ (served_refl hu.2)) (whenReady_keeps hoff _ hcs)

end Sys2Proof.Machine

open Sys2Proof Sys2Proof.Machine

/-- Settles O54: no request's work is halted while its own bytes are admitted and nothing arrives. -/
theorem everyRequestCompletesOnce : Obligations.EveryRequestCompletesOnce := by
  unfold Obligations.EveryRequestCompletesOnce
  intro i s hi hw hu ha hcs
  have hadm : ∀ k < (bufferOf i).2, admitsBlock (acquire i s) ((bufferOf i).1 + sectorSize * k) := fun k hk =>
    admitsBlock_of_range (s := acquire i s) ha hk
  have hlogOff := off_kept.toLogKept
  cases i with
  | readSector buf sector =>
    obtain ⟨t, r, ht, hdone⟩ := whenReady_completes (i := .readSector buf sector) hu hcs
      (served_readSectorBody (hadm 0 Nat.one_pos) sector)
      (readSectorBody_keeps hlogOff (fun _ => trivial) _ sector)
    exact ⟨t, r, (withBuffer_inRange hw).trans ht, hdone⟩
  | writeSector buf sector =>
    obtain ⟨t, r, ht, hdone⟩ := whenReady_completes (i := .writeSector buf sector) hu hcs
      (served_writeSectorBody (hadm 0 Nat.one_pos) sector) (off_writeSectorBody _ sector)
    exact ⟨t, r, (withBuffer_inRange hw).trans ht, hdone⟩
  | readRange buf sector count =>
    obtain ⟨t, r, ht, hdone⟩ := whenReady_completes (i := .readRange buf sector count) hu hcs
      (rangeLoop_keeps_of count.toNat buf sector fun k hk w => served_readSectorBody (hadm k hk) w)
      (rangeLoop_keeps (fun b w => readSectorBody_keeps hlogOff (fun _ => trivial) b w) count.toNat buf sector)
    exact ⟨t, r, (withBuffer_inRange hw).trans ht, hdone⟩
  | writeRange buf sector count =>
    obtain ⟨t, r, ht, hdone⟩ := whenReady_completes (i := .writeRange buf sector count) hu hcs
      (rangeLoop_keeps_of count.toNat buf sector fun k hk w => served_writeSectorBody (hadm k hk) w)
      (rangeLoop_keeps off_writeSectorBody count.toNat buf sector)
    exact ⟨t, r, (withBuffer_inRange hw).trans ht, hdone⟩
  | startup => exact serveRequest_completes hu (served_startupBody hu.2) (off_startupBody _ hcs)
  | initSession =>
    have hphase : PhaseKept (fun _ _ => True) (served (acquire .initSession s)) (fun _ => False) :=
      { toBusKept := (served_events _).toBusKept, session := fun _ _ ht => ht }
    exact serveRequest_completes hu (initBody_keeps hphase _ (served_refl hu.2))
      (initBody_keeps off_kept.toPhaseKept _ hcs)
  | dumpDiagnostics => exact serveRequest_completes (body := dumpBody) hu (served_refl hu.2) hcs
  | clearDiagnostics =>
    exact serveRequest_completes (body := fun s => .done (resultReply 0) (logClear s)) hu (served_refl hu.2) hcs
  | _ => exact absurd hi Bool.false_ne_true

/-- Settles O52: STARTUP's work is done whatever the card answers, in one of its two ends. -/
theorem startupEndsReadyOrFaulted : Obligations.StartupEndsReadyOrFaulted := by
  unfold Obligations.StartupEndsReadyOrFaulted
  intro s hu hs
  have h1 : (acquire .startup s).session.state ≠ .ready := fun h => SessionState.noConfusion (hs.symm.trans h)
  have h2 : (acquire .startup s).session.state ≠ .faulted := fun h => SessionState.noConfusion (hs.symm.trans h)
  obtain ⟨a, u, hrun, hbeside, hsession, hcs⟩ := done_of_both (startupBody_beside (s := acquire .startup s) hu.2 h1 h2)
    (sat_mono (sat_and (startupBody_session h1 h2) (off_startupBody_negotiated h1 h2)) (fun _ _ => id)
      fun _ _ => trivial)
  rcases hsession with ⟨rfl, hready, hfast, -⟩ | ⟨rfl, hfaulted, hslow, hcode⟩
  · rcases hbeside with ⟨-, hbeside⟩ | ⟨hfaulted, -⟩
    · obtain ⟨hdone, hlog⟩ := startupDone_of_beside (l := s.log) hbeside 0
      have hquiet := served_quiet (served_of_sameBeside (s := acquire .startup s) hu.2 hbeside)
      exact ⟨_, 0, serveRequest_done hu.1 hrun hquiet, hdone, hcs, .inl ⟨hready, hfast, rfl, hlog⟩⟩
    · exact SessionState.noConfusion (hready.symm.trans hfaulted)
  · rcases hbeside with ⟨hready, -⟩ | ⟨-, r, hbeside⟩
    · exact SessionState.noConfusion (hready.symm.trans hfaulted)
    · obtain ⟨hdone, hlog⟩ := startupDone_of_beside hbeside u.session.faultCode
      have hquiet := served_quiet (served_of_sameBeside (s := acquire .startup s) hu.2 hbeside)
      exact ⟨_, _, serveRequest_done hu.1 hrun hquiet, hdone, hcs,
        .inr ⟨hfaulted, hslow, rfl, hcode, r, hlog.trans (logAppend_log_congr (by rfl) (by rfl) r)⟩⟩
end

section
/-!
PROOFS. A buffer byte that is not admitted (R60, U9): where the data phase of a block meets it, the
transaction, the sector request or the frame it belongs to is stuck there, and the next step faults.
-/

namespace Sys2Proof.Machine

open Sys2Proof

variable {s t : State} {i : Instr} {rest : List Byte} {buf j : Nat} {sector : Word}

/-! ### The data phases up to the byte that is not admitted -/

theorem bufWrite_stuck (hq : s.env.arrivals = []) {a : Nat} (ha : admits s a = false) (v : Byte) :
    bufWrite a v s = .halt s := by
  simp [bufWrite, tick_quiet hq, ha]

theorem bufRead_stuck (hq : s.env.arrivals = []) {a : Nat} (ha : admits s a = false) : bufRead a s = .halt s := by
  simp [bufRead, tick_quiet hq, ha]

/-- Payload bytes received and stored up to the first that finds no room (R203, R60). -/
theorem receiveBytes_stuck (d : List Byte) {b : Byte} (m : Nat) :
    ∀ {a : Nat} {c : Half} {s : State}, s.env.arrivals = [] → s.env.cardIn = d ++ b :: rest →
      (∀ k < d.length, admits s (a + k) = true) → admits s (a + d.length) = false →
      receiveBytes (d.length + (m + 1)) a c s =
        .halt { play (d.length + 1) (idleEvents (d ++ [b])) s with mem := memStore s.mem a d } := by
  induction d with
  | nil =>
    intro a c s hq hc _ hs
    rw [List.length_nil, Nat.zero_add, receiveBytes, xfer_listed hq hc, andThen_done,
      bufWrite_stuck (s := play 1 [.xfer idleByte b] s) (a := a) hq hs]
    rfl
  | cons v d ih =>
    intro a c s hq hc ha hs
    rw [List.length_cons, Nat.add_right_comm, receiveBytes, xfer_listed hq hc, andThen_done,
      bufWrite_quiet (s := play 1 [.xfer idleByte v] s) hq (by exact ha 0 (by simp)), andThen_done]
    have hshift : ∀ k, a + 1 + k = a + (k + 1) := fun k => by omega
    refine (ih (s := { play 1 [.xfer idleByte v] s with mem := memWrite s.mem a v }) hq (by simp [hc])
      (fun k hk => ?_) ?_).trans ?_
    · rw [hshift]
      exact ha (k + 1) (by simpa using hk)
    · rw [hshift]
      exact hs
    · simp [play, idleEvents, memStore]
      omega

/-- Payload bytes read and sent up to the first that cannot be read (R207, R60). -/
theorem sendPayload_stuck (ign : List Byte) (m : Nat) :
    ∀ {a : Nat} {c : Half} {s : State}, s.env.arrivals = [] → s.env.cardIn = ign ++ rest →
      (∀ k < ign.length, admits s (a + k) = true) → admits s (a + ign.length) = false →
      sendPayload (ign.length + (m + 1)) a c s = .halt (play ign.length
        (List.zipWith BusEvent.xfer ((List.range ign.length).map fun k => memRead s.mem (a + k)) ign) s) := by
  induction ign with
  | nil =>
    intro a c s hq _ _ hs
    rw [List.length_nil, Nat.zero_add, sendPayload, bufRead_stuck (a := a) hq hs]
    rfl
  | cons v ign ih =>
    intro a c s hq hc ha hs
    have hshift : ∀ k, a + 1 + k = a + (k + 1) := fun k => by omega
    have hread : ((List.range (ign.length + 1)).map fun k => memRead s.mem (a + k)) =
        memRead s.mem a :: (List.range ign.length).map fun k => memRead s.mem (a + 1 + k) := by
      rw [List.range_succ_eq_map]
      simp [List.map_map, Function.comp_def, hshift]
    rw [List.length_cons, Nat.add_right_comm, sendPayload, bufRead_quiet hq (by exact ha 0 (by simp)), andThen_done,
      xfer_listed hq hc, andThen_done, hread]
    refine (ih (s := play 1 [.xfer (memRead s.mem a) v] s) hq (by simp [hc]) (fun k hk => ?_) ?_).trans ?_
    · rw [hshift]
      exact ha (k + 1) (by simpa using hk)
    · rw [hshift]
      exact hs
    · simp [play_play, Nat.add_comm]

/-! ### The block transactions -/

/-- A block read as far as its data-start token. -/
theorem blockRead_opened {r : ReadScript} (hf : r.fits s.params) (hq : s.env.arrivals = [])
    (hc : s.env.cardIn = r.bytes ++ rest) (idx : BitVec 6) (addr : Word) :
    ∃ u k, cmdBegin idx addr s = .done (.status 0x00#8) u ∧ waitDataToken u = .done none
      { play (r.cmd.opening.length + (r.tokenWait + 1)) (r.cmd.openEvents idx addr ++
          idleEvents (List.replicate r.tokenWait idleByte ++ [dataStartToken])) s with cs := true, work := k } := by
  obtain ⟨hcmd, hstatus, htoken, -⟩ := hf
  obtain ⟨p, h⟩ := cmdBegin_listed hcmd hq (rest := r.phaseBytes ++ [r.cmd.trail] ++ rest)
    (by simpa [ReadScript.bytes] using hc) idx addr
  rw [hstatus] at h
  obtain ⟨u, hu⟩ : ∃ u : State, u = { play r.cmd.opening.length (r.cmd.openEvents idx addr) s with
    cs := true, work := openWork idx addr 0x00#8 p s.work } := ⟨_, rfl⟩
  obtain ⟨q, h'⟩ := tokenLoop_listed r.tokenWait (n := u.params.nTokenPoll)
    (s := { u with work.poll := BitVec.ofNat 32 u.params.nTokenPoll })
    (rest := r.data ++ crcBytes r.crc ++ r.cmd.trail :: rest) (by rw [hu]; exact hq)
    (by simp [hu, hc, ReadScript.bytes, ReadScript.phaseBytes]) (by rw [hu]; exact htoken)
  refine ⟨u, { u.work with poll := q, token := dataStartToken }, h.trans (by rw [hu]), h'.trans ?_⟩
  rw [hu]
  simp [play, Nat.add_assoc]

/-- A block read whose byte `j` finds no room in the buffer. -/
theorem blockRead_stuck {r : ReadScript} (hf : r.fits s.params) (hq : s.env.arrivals = [])
    (hc : s.env.cardIn = r.bytes ++ rest) (idx : BitVec 6) (addr : Word) (hj : j < sectorSize)
    (ha : ∀ k < j, admits s (buf + k) = true) (hs : admits s (buf + j) = false) :
    ∃ n k, blockRead idx addr buf s = .halt
      { play n (r.cmd.openEvents idx addr ++
          idleEvents (List.replicate r.tokenWait idleByte ++ [dataStartToken] ++ r.data.take (j + 1))) s with
        cs := true, mem := memStore s.mem buf (r.data.take j), work := k } := by
  obtain ⟨u, k, hbegin, htoken⟩ := blockRead_opened hf hq hc idx addr
  obtain ⟨-, -, -, hsize⟩ := hf
  have hlen : j < r.data.length := hsize.symm ▸ hj
  have htake : (r.data.take j).length = j := List.length_take_of_le hlen.le
  obtain ⟨m, hm⟩ : ∃ m, sectorSize = j + (m + 1) := ⟨sectorSize - j - 1, by omega⟩
  obtain ⟨v, hv⟩ : ∃ v : State, v = { play (r.cmd.opening.length + (r.tokenWait + 1)) (r.cmd.openEvents idx addr ++
    idleEvents (List.replicate r.tokenWait idleByte ++ [dataStartToken])) s with cs := true, work := k } := ⟨_, rfl⟩
  have hdata : v.env.cardIn = r.data.take j ++ r.data[j] :: (r.data.drop (j + 1) ++ crcBytes r.crc ++
      [r.cmd.trail] ++ rest) := by
    have hsplit : r.data.take j ++ r.data[j] :: r.data.drop (j + 1) = r.data := by
      rw [← List.drop_eq_getElem_cons hlen, List.take_append_drop]
    have hrest : v.env.cardIn = r.data ++ crcBytes r.crc ++ [r.cmd.trail] ++ rest := by
      rw [hv]
      simp [hc, ReadScript.bytes, ReadScript.phaseBytes, ← List.drop_drop, List.drop_append]
    rw [hrest]
    nth_rw 1 [← hsplit]
    simp only [List.append_assoc, List.cons_append]
  have hrun := receiveBytes_stuck (r.data.take j) m (a := buf) (c := 0) (s := v) (by rw [hv]; exact hq) hdata
    (by rw [htake, hv]; exact ha) (by rw [htake, hv]; exact hs)
  rw [htake, ← hm] at hrun
  rw [← hv] at htoken
  refine ⟨r.cmd.opening.length + (r.tokenWait + 1) + (j + 1), k, ?_⟩
  rw [blockRead, hbegin, andThen_done, if_pos rfl, readDataBlock, htoken, andThen_done]
  dsimp only
  rw [receiveBlock, hrun, hv, ← List.take_append_getElem hlen]
  simp [play, idleEvents, Nat.add_assoc]

/-- The first bytes of a block. -/
theorem blockAt_take (s : State) (buf : Nat) (hj : j ≤ sectorSize) :
    (blockAt s buf).take j = (List.range j).map fun k => memRead s.mem (buf + k) := by
  rw [blockAt, ← List.map_take, List.take_range, Nat.min_eq_left hj]

/-- A block write whose byte `j` cannot be read from the buffer. -/
theorem blockWrite_stuck {w : WriteScript} (hf : w.fits s.params) (hq : s.env.arrivals = [])
    (hc : s.env.cardIn = w.bytes ++ rest) (addr : Word) (hj : j < sectorSize)
    (ha : ∀ k < j, admits s (buf + k) = true) (hs : admits s (buf + j) = false) :
    ∃ n k, blockWrite addr buf s = .halt
      { play n (w.cmd.openEvents 24 addr ++
          List.zipWith BusEvent.xfer ([idleByte, dataStartToken] ++ (blockAt s buf).take j) w.ignored) s with
        cs := true, work := k } := by
  obtain ⟨hcmd, hstatus, hign, -⟩ := hf
  obtain ⟨p, h⟩ := cmdBegin_listed hcmd hq
    (rest := w.ignored ++ [w.token] ++ w.busyBytes ++ [w.cmd.trail] ++ rest)
    (by simpa [WriteScript.bytes] using hc) 24 addr
  rw [hstatus] at h
  obtain ⟨g, b, l, hlen, hl⟩ : ∃ g b l, j ≤ l.length ∧ w.ignored = g :: b :: l := by
    obtain ⟨g, b, l, x, y, hlen, hl⟩ := ignored_split hign
    exact ⟨g, b, l ++ [x, y], by rw [List.length_append, hlen]; omega, hl⟩
  have htake : (l.take j).length = j := List.length_take_of_le hlen
  obtain ⟨m, hm⟩ : ∃ m, sectorSize = j + (m + 1) := ⟨sectorSize - j - 1, by omega⟩
  obtain ⟨u, hu⟩ : ∃ u : State, u = { play w.cmd.opening.length (w.cmd.openEvents 24 addr) s with
    cs := true, work := openWork 24 addr 0x00#8 p s.work } := ⟨_, rfl⟩
  have hcu : u.env.cardIn =
      g :: b :: (l.take j ++ (l.drop j ++ [w.token] ++ w.busyBytes ++ [w.cmd.trail] ++ rest)) := by
    have hsplit : w.cmd.opening ++ w.ignored ++ [w.token] ++ w.busyBytes ++ [w.cmd.trail] ++ rest =
        w.cmd.opening ++ g :: b :: (l.take j ++ (l.drop j ++ [w.token] ++ w.busyBytes ++ [w.cmd.trail] ++ rest)) := by
      rw [hl]
      nth_rw 1 [← List.take_append_drop j l]
      simp only [List.append_assoc, List.cons_append]
    rw [hu, play_cardIn, hc, WriteScript.bytes, hsplit, List.drop_left]
  obtain ⟨v, hv⟩ : ∃ v : State, v = play 1 [.xfer dataStartToken b] (play 1 [.xfer idleByte g] u) := ⟨_, rfl⟩
  have hgap := xfer_listed (s := u) (by rw [hu]; exact hq) hcu idleByte
  have hstart := xfer_listed (s := play 1 [.xfer idleByte g] u) (b := b) (by rw [hu]; exact hq)
    (by rw [play_cardIn, hcu]; rfl) dataStartToken
  have hrun := sendPayload_stuck (l.take j) m (a := buf) (c := 0) (s := v) (by rw [hv, hu]; exact hq)
    (by rw [hv, play_cardIn, play_cardIn, hcu]; rfl) (by rw [htake, hv, hu]; exact ha) (by rw [htake, hv, hu]; exact hs)
  rw [htake, ← hm, ← blockAt_take v buf hj.le] at hrun
  have hblock : blockAt v buf = blockAt s buf := by rw [hv, hu]; rfl
  have hevents : List.zipWith BusEvent.xfer ((blockAt s buf).take j) (l.take j) =
      List.zipWith BusEvent.xfer ((blockAt s buf).take j) l := by
    have hle : (List.zipWith BusEvent.xfer ((blockAt s buf).take j) l).length ≤ j := by
      rw [List.length_zipWith, List.length_take]
      omega
    rw [← List.take_of_length_le hle, List.take_zipWith, List.take_take, Nat.min_self]
  refine ⟨w.cmd.opening.length + (2 + j), openWork 24 addr 0x00#8 p s.work, ?_⟩
  rw [blockWrite, h, andThen_done, if_pos rfl, ← hu, writeDataBlock, hgap, andThen_done, hstart, andThen_done, ← hv,
    hrun, hblock, hevents, hv, hu, hl]
  simp [play, Nat.add_assoc]

/-! ### What ends where its work is stuck -/

theorem serveRequest_stuck {body : State → Ran Reply} (hl : s.sync.lock = none) (hb : body (acquire i s) = .halt t) :
    serveRequest i body s = .next t := by
  simp [serveRequest, underLock, hl, hb]

theorem serveFrame_stuck {body : State → Ran Result} (hl : s.sync.lock = none) (hb : body (acquire i s) = .halt t) :
    serveFrame i body s = .next t := by
  simp [serveFrame, underLock, hl, hb]

theorem whenReady_stuck {body : State → Ran Code} (hs : s.session.state = .ready) (hb : body s = .halt t) :
    whenReady body s = .halt t := by
  rw [whenReady, if_pos hs, hb]
  rfl

/-- A range is stuck where its next sector is. -/
theorem rangeLoop_stuck {one : Nat → Word → State → Ran Code} (h : one buf sector s = .halt t) (m : Nat) :
    rangeLoop one (m + 1) buf sector s = .halt t := by
  rw [rangeLoop, h]
  rfl

/-- With a request in service, nothing presented and nothing to arrive, the step is the fault (R60, U9). -/
theorem step_stuck {a : Nat} (hp : t.params.ok = true) (hl : t.sync.lock = some a) (hr : t.sync.requests = [])
    (hq : t.env.arrivals = []) : step t = .fault .bufferAccessStuck := by
  have hcount : choiceCount t = 0 := by simp [choiceCount, servable, hl, hr, hq]
  rw [step, if_pos hp, nextChoice, if_pos hcount, hl]
  rfl

/-- A run that is stuck leaves the instruction in service. -/
theorem stuckIn_played (hu : undisturbed s) (n : Nat) (evs : List BusEvent) (m : List Host.Cell) (k : Work) (l : Log) :
    stuckIn s { play n evs (acquire i s) with cs := true, mem := m, work := k, log := l } i :=
  ⟨rfl, rfl, rfl, rfl, fun hp hr => step_stuck (a := s.sync.caller) hp rfl hr hu.2⟩

/-! ### Sector reads -/

/-- After sectors that were read, the next one finds no room for its byte `j`. -/
theorem readSectorBody_stuck {rs : List ReadAttempt} {r : ReadScript} {u : State} (hu : readsDone s buf sector rs u)
    (hf : r.fits s.params) (hq : s.env.arrivals = [])
    (hc : s.env.cardIn = rs.flatMap ReadAttempt.bytes ++ r.bytes ++ rest) (hj : j < sectorSize)
    (ha : ∀ k < sectorSize * rs.length + j, admits s (buf + k) = true)
    (hs : admits s (buf + (sectorSize * rs.length + j)) = false) :
    ∃ n k, readSectorBody (buf + sectorSize * rs.length) (sectorAt sector rs.length) u = .halt
      { play n (rangeReadEvents s.session.capClass sector rs ++
          r.cmd.openEvents 17 (translateSector s.session.capClass (sectorAt sector rs.length)) ++
          idleEvents (List.replicate r.tokenWait idleByte ++ [dataStartToken] ++ r.data.take (j + 1))) s with
        cs := true, mem := memStore s.mem buf (rs.flatMap ReadAttempt.data ++ r.data.take j), work := k } := by
  obtain ⟨hlen, l, rfl⟩ := hu
  obtain ⟨n, k, h⟩ := blockRead_stuck (s := { play (rs.flatMap ReadAttempt.bytes).length
      (rangeReadEvents s.session.capClass sector rs) s with
      cs := s.cs && rs.isEmpty, mem := memStore s.mem buf (rs.flatMap ReadAttempt.data), work := l })
    (buf := buf + sectorSize * rs.length) (rest := rest) hf hq
    (by
      show List.drop _ s.env.cardIn = _
      rw [hc, List.append_assoc, List.drop_left])
    17 (translateSector s.session.capClass (sectorAt sector rs.length)) hj
    (fun k hk => (congrArg (admits s) (Nat.add_assoc _ _ _)).trans (ha _ (Nat.add_lt_add_left hk _)))
    ((congrArg (admits s) (Nat.add_assoc _ _ _)).trans hs)
  refine ⟨(rs.flatMap ReadAttempt.bytes).length + n, k, ?_⟩
  rw [memStore_append, hlen]
  refine (congrArg (Ran.andThen · _) h).trans ?_
  simp [play, Nat.add_assoc]

/-- READ_SECTOR and READ_RANGE up to the byte that finds no room. -/
theorem readRequest_stuck {rs : List ReadAttempt} {r : ReadScript} {count : Word} (hu : undisturbed s)
    (hw : i.wellFormed s.params.bufAddrW = true) (hready : s.session.state = .ready)
    (hi : i = .readSector buf sector ∧ rs = [] ∨ i = .readRange buf sector count ∧ rs.length < count.toNat)
    (hj : j < sectorSize) (ha : ∀ k < sectorSize * rs.length + j, admits s (buf + k) = true)
    (hs : admits s (buf + (sectorSize * rs.length + j)) = false) (hrs : ∀ x ∈ rs, x.fits s.params ∧ x.code = 0)
    (hf : r.fits s.params) (hc : s.env.cardIn = rs.flatMap ReadAttempt.bytes ++ r.bytes ++ rest) :
    ∃ n k, exec i s = .next
      { play n (rangeReadEvents s.session.capClass sector rs ++
          r.cmd.openEvents 17 (translateSector s.session.capClass (sectorAt sector rs.length)) ++
          idleEvents (List.replicate r.tokenWait idleByte ++ [dataStartToken] ++ r.data.take (j + 1)))
          (acquire i s) with
        cs := true, mem := memStore s.mem buf (rs.flatMap ReadAttempt.data ++ r.data.take j), work := k } := by
  rcases hi with ⟨rfl, rfl⟩ | ⟨rfl, hcount⟩
  · obtain ⟨n, k, h⟩ := readSectorBody_stuck (readsDone_nil (acquire (.readSector buf sector) s) buf sector) hf hu.2 hc
      hj ha hs
    have hstart : sectorAt sector 0 = sector := BitVec.add_zero sector
    rw [List.length_nil, Nat.mul_zero, Nat.add_zero, hstart] at h
    rw [List.length_nil, hstart]
    exact ⟨n, k, (withBuffer_inRange hw).trans (serveRequest_stuck hu.1 (whenReady_stuck hready h))⟩
  · obtain ⟨m, hm⟩ : ∃ m, count.toNat = rs.length + (m + 1) := ⟨count.toNat - rs.length - 1, by omega⟩
    obtain ⟨u, hprefix, hdone⟩ := readRange_prefix (s := acquire (.readRange buf sector count) s) (buf := buf)
      (sector := sector) (rest := r.bytes ++ rest) (m + 1) hrs hu.2 (by rw [← List.append_assoc]; exact hc)
      fun k hk => ha k (by omega)
    obtain ⟨n, k, h⟩ := readSectorBody_stuck hdone hf hu.2 hc hj ha hs
    have hbody := hprefix.trans (rangeLoop_stuck h m)
    rw [← hm] at hbody
    exact ⟨n, k, (withBuffer_inRange hw).trans (serveRequest_stuck hu.1 (whenReady_stuck hready hbody))⟩

/-! ### Sector writes -/

/-- After sectors that were written, byte `j` of the next one cannot be read. -/
theorem writeSectorBody_stuck {ws : List SectorWrite} {w : WriteScript} {u : State} (hu : writesDone s buf sector ws u)
    (hf : w.fits s.params) (hq : s.env.arrivals = []) (hbudget : 1 ≤ s.params.writeBudget)
    (hc : s.env.cardIn = ws.flatMap SectorWrite.bytes ++ w.bytes ++ rest) (hj : j < sectorSize)
    (ha : ∀ k < sectorSize * ws.length + j, admits s (buf + k) = true)
    (hs : admits s (buf + (sectorSize * ws.length + j)) = false) :
    ∃ n k, writeSectorBody (buf + sectorSize * ws.length) (sectorAt sector ws.length) u = .halt
      { play n (rangeWriteEvents s buf sector ws ++
          w.cmd.openEvents 24 (translateSector s.session.capClass (sectorAt sector ws.length)) ++
          List.zipWith BusEvent.xfer ([idleByte, dataStartToken] ++
            (blockAt s (buf + sectorSize * ws.length)).take j) w.ignored) s with
        cs := true, work := k, log := logAll (rangeWriteRecords s buf sector ws) s } := by
  obtain ⟨l, rfl⟩ := hu
  obtain ⟨b, hb⟩ : ∃ b, s.params.writeBudget = b + 1 := ⟨s.params.writeBudget - 1, by omega⟩
  obtain ⟨v, hv⟩ : ∃ v : State, v =
    { play (ws.flatMap SectorWrite.bytes).length (rangeWriteEvents s buf sector ws) s with
      cs := s.cs && ws.isEmpty, work := { l with budget := BitVec.ofNat 32 s.params.writeBudget }
      log := logAll (rangeWriteRecords s buf sector ws) s } := ⟨_, rfl⟩
  obtain ⟨n, k, h⟩ := blockWrite_stuck (s := v) (buf := buf + sectorSize * ws.length) (rest := rest)
    (by rw [hv]; exact hf) (by rw [hv]; exact hq)
    (by
      rw [hv]
      show List.drop _ s.env.cardIn = _
      rw [hc, List.append_assoc, List.drop_left])
    (translateSector s.session.capClass (sectorAt sector ws.length)) hj
    (fun k hk => by
      rw [hv, Nat.add_assoc]
      exact ha _ (Nat.add_lt_add_left hk _))
    (by
      rw [hv, Nat.add_assoc]
      exact hs)
  have hblock : blockAt v (buf + sectorSize * ws.length) = blockAt s (buf + sectorSize * ws.length) := by rw [hv]; rfl
  have hcap : v.session.capClass = s.session.capClass := by rw [hv]; rfl
  refine ⟨(ws.flatMap SectorWrite.bytes).length + n, k, ?_⟩
  have hbody : writeSectorBody (buf + sectorSize * ws.length) (sectorAt sector ws.length)
      { play (ws.flatMap SectorWrite.bytes).length (rangeWriteEvents s buf sector ws) s with
        cs := s.cs && ws.isEmpty, work := l, log := logAll (rangeWriteRecords s buf sector ws) s } =
      writeLoop (b + 1) (buf + sectorSize * ws.length) (sectorAt sector ws.length) v := by
    rw [hv, ← hb]
    rfl
  rw [hbody, writeLoop, writeOnce, hcap, h, hblock, hv]
  simp [Ran.andThen, play, Nat.add_assoc]

/-- WRITE_SECTOR and WRITE_RANGE up to the byte that cannot be read. -/
theorem writeRequest_stuck {ws : List SectorWrite} {w : WriteScript} {count : Word} (hu : undisturbed s)
    (hw : i.wellFormed s.params.bufAddrW = true) (hready : s.session.state = .ready)
    (hbudget : 1 ≤ s.params.writeBudget)
    (hi : i = .writeSector buf sector ∧ ws = [] ∨ i = .writeRange buf sector count ∧ ws.length < count.toNat)
    (hj : j < sectorSize) (ha : ∀ k < sectorSize * ws.length + j, admits s (buf + k) = true)
    (hs : admits s (buf + (sectorSize * ws.length + j)) = false) (hws : ∀ x ∈ ws, x.fits s.params ∧ x.last.code = 0)
    (hf : w.fits s.params) (hc : s.env.cardIn = ws.flatMap SectorWrite.bytes ++ w.bytes ++ rest) :
    ∃ n k, exec i s = .next
      { play n (rangeWriteEvents s buf sector ws ++
          w.cmd.openEvents 24 (translateSector s.session.capClass (sectorAt sector ws.length)) ++
          List.zipWith BusEvent.xfer ([idleByte, dataStartToken] ++
            (blockAt s (buf + sectorSize * ws.length)).take j) w.ignored) (acquire i s) with
        cs := true, work := k, log := logAll (rangeWriteRecords s buf sector ws) s } := by
  rcases hi with ⟨rfl, rfl⟩ | ⟨rfl, hcount⟩
  · obtain ⟨n, k, h⟩ := writeSectorBody_stuck (writesDone_nil (acquire (.writeSector buf sector) s) buf sector) hf hu.2
      hbudget hc hj ha hs
    have hstart : sectorAt sector 0 = sector := BitVec.add_zero sector
    rw [List.length_nil, Nat.mul_zero, Nat.add_zero, hstart] at h
    rw [List.length_nil, Nat.mul_zero, Nat.add_zero, hstart]
    exact ⟨n, k, (withBuffer_inRange hw).trans (serveRequest_stuck hu.1 (whenReady_stuck hready h))⟩
  · obtain ⟨m, hm⟩ : ∃ m, count.toNat = ws.length + (m + 1) := ⟨count.toNat - ws.length - 1, by omega⟩
    obtain ⟨u, hprefix, hdone⟩ := writeRange_prefix (s := acquire (.writeRange buf sector count) s) (buf := buf)
      (sector := sector) (rest := w.bytes ++ rest) (m + 1) hws hu.2 (by rw [← List.append_assoc]; exact hc)
      fun k hk => ha k (by omega)
    obtain ⟨n, k, h⟩ := writeSectorBody_stuck hdone hf hu.2 hbudget hc hj ha hs
    have hbody := hprefix.trans (rangeLoop_stuck h m)
    have hlog : logAll (rangeWriteRecords (acquire (.writeRange buf sector count) s) buf sector ws)
        (acquire (.writeRange buf sector count) s) = logAll (rangeWriteRecords s buf sector ws) s :=
      logAll_congr _ (by rfl) (by rfl)
    rw [← hm, hlog] at hbody
    exact ⟨n, k, (withBuffer_inRange hw).trans (serveRequest_stuck hu.1 (whenReady_stuck hready hbody))⟩

end Sys2Proof.Machine

open Sys2Proof Sys2Proof.Machine

/-- Settles O33: the requests and frames up to the byte that is not admitted, and the step that faults after them. -/
theorem unadmittedBufferLeavesTheRequestStuck : Obligations.UnadmittedBufferLeavesTheRequestStuck := by
  unfold Obligations.UnadmittedBufferLeavesTheRequestStuck
  intro s i buf j sector count rest hu hw hm hj
  refine ⟨?_, ?_, ?_, ?_⟩
  · intro rs r hready hi ha hs hrs hf hc
    obtain ⟨n, k, h⟩ := readRequest_stuck hu hw hready hi hj ha hs hrs hf hc
    exact ⟨_, h, stuckIn_played hu n _ _ k _, rfl, rfl, storesBlock_of_mem hm rfl⟩
  · intro ws w hready hbudget hi ha hs hws hf hc
    obtain ⟨n, k, h⟩ := writeRequest_stuck hu hw hready hbudget hi hj ha hs hws hf hc
    exact ⟨_, h, stuckIn_played hu n _ _ k _, rfl, rfl, rfl⟩
  · intro idx r hi ha hs hf hc
    obtain ⟨n, k, h⟩ := blockRead_stuck (s := acquire i s) hf hu.2 hc idx sector hj ha hs
    exact ⟨_, (blockReadFrame_exec hi hw).trans (serveFrame_stuck hu.1 h), stuckIn_played hu n _ _ k _, rfl, rfl,
      storesBlock_of_mem hm rfl⟩
  · rintro w rfl ha hs hf hc
    obtain ⟨n, k, h⟩ := blockWrite_stuck (s := acquire (.cmd24 sector buf) s) hf hu.2 hc sector hj ha hs
    have hbody := congrArg (Ran.andThen · fun o u => .done o.result u) h
    exact ⟨_, (withBuffer_inRange hw).trans (serveFrame_stuck hu.1 hbody), stuckIn_played hu n _ _ k _, rfl, rfl, rfl⟩
end

section
/-!
PROOFS. The log never gates the protocol (R307, R35): two runs that differ in the log and its configuration take the
same course, each with its own log.
-/

namespace Sys2Proof.Machine

open Sys2Proof

variable {α β : Type} {on : Bool} {cap : Nat} {s t : State} {i : Instr}

/-! ### Another log -/

/-- The state with another log and another configuration of the log. -/
def relog (on : Bool) (cap : Nat) (l : Log) (s : State) : State :=
  { s with params := { s.params with logEnabled := on, logCap := cap }, log := l }

/-- The end of a run with another log. -/
def relogEnd (on : Bool) (cap : Nat) (l : Log) : Ran α → Ran α
  | .done a s => .done a (relog on cap l s)
  | .halt s => .halt (relog on cap l s)

/-- With another log, and another configuration of it, `f` takes the same course: it ends in the same way, in a state
that differs in the log alone. -/
def blind (on : Bool) (cap : Nat) (f : State → Ran α) : Prop :=
  ∀ l s, ∃ l', f (relog on cap l s) = relogEnd on cap l' (f s)

theorem blind_andThen {f : State → Ran α} {g : α → State → Ran β} (hf : blind on cap f) (hg : ∀ a, blind on cap (g a)) :
    blind on cap fun s => (f s).andThen g := by
  intro l s
  obtain ⟨m, h⟩ := hf l s
  dsimp only
  rw [h]
  cases f s with
  | done a u => exact hg a m u
  | halt u => exact ⟨m, rfl⟩

theorem blind_done (a : α) : blind on cap (Ran.done a) := fun l _ => ⟨l, rfl⟩

theorem blind_ite {p : Prop} [Decidable p] {f g : State → Ran α} (hf : blind on cap f) (hg : blind on cap g) :
    blind on cap fun s => if p then f s else g s := by
  split_ifs
  · exact hf
  · exact hg

/-! ### The operations of the state -/

theorem relog_present (p : Presented) (l : Log) (s : State) :
    present p (relog on cap l s) = relog on cap l (present p s) := by
  have hout : outstanding p.agent (relog on cap l s) = outstanding p.agent s := rfl
  unfold present
  rw [hout]
  split_ifs <;> rfl

theorem relog_receive (p : Presented) (l : Log) (s : State) :
    receive p (relog on cap l s) = relog on cap l (receive p s) := by
  have hreply : unlockedReply p.item (relog on cap l s) = unlockedReply p.item s := rfl
  have hout : outstanding p.agent (relog on cap l s) = outstanding p.agent s := rfl
  unfold receive
  rw [hreply, hout]
  cases unlockedReply p.item s with
  | none => exact relog_present p l s
  | some r =>
    dsimp only
    split_ifs <;> rfl

theorem relog_callerWrite (a : Nat) (v : Byte) (l : Log) (s : State) :
    callerWrite a v (relog on cap l s) = relog on cap l (callerWrite a v s) := by
  have hwidth : (relog on cap l s).params.bufAddrW = s.params.bufAddrW := rfl
  unfold callerWrite
  rw [hwidth]
  split_ifs <;> rfl

/-- Each log takes a record in its own way. -/
theorem relog_logAppend (r : LogRecord) (l : Log) (s : State) :
    ∃ l', logAppend r (relog on cap l s) = relog on cap l' (logAppend r s) := by
  have hlog : ∀ u, logAppend r u = { u with log := (logAppend r u).log } := fun u => by
    unfold logAppend
    split_ifs <;> rfl
  have hrelog := congrArg (relog on cap (logAppend r (relog on cap l s)).log) (hlog s)
  exact ⟨_, (hlog (relog on cap l s)).trans hrelog.symm⟩

/-- What lands before an event is the same; a reset empties either log. -/
theorem blind_landDue (as : List (Nat × Arrival)) : blind on cap (landDue as) := by
  induction as with
  | nil => exact fun l _ => ⟨l, rfl⟩
  | cons x as ih =>
    intro l s
    obtain ⟨n, a⟩ := x
    cases n with
    | succ n => exact ⟨l, rfl⟩
    | zero =>
      cases a with
      | request p =>
        rw [landDue, landDue, relog_receive]
        exact ih l _
      | bufWrite b v =>
        rw [landDue, landDue, relog_callerWrite]
        exact ih l _
      | reset => exact ⟨⟨[], 0⟩, rfl⟩

theorem blind_tick : blind on cap tick := fun l s => blind_landDue s.env.arrivals l s

theorem relog_drawByte (l : Log) (s : State) :
    drawByte (relog on cap l s) = ((drawByte s).1, relog on cap l (drawByte s).2) := by
  have henv : (relog on cap l s).env = s.env := rfl
  unfold drawByte
  rw [henv]
  cases s.env.cardIn <;> rfl

theorem blind_xfer (o : Byte) : blind on cap (xfer o) :=
  blind_andThen blind_tick fun _ l s => by
    rw [relog_drawByte]
    exact ⟨l, rfl⟩

theorem blind_assertCS : blind on cap assertCS := blind_andThen blind_tick fun _ l _ => ⟨l, rfl⟩

theorem blind_deassertCS : blind on cap deassertCS := blind_andThen blind_tick fun _ l _ => ⟨l, rfl⟩

theorem blind_setClock (m : ClkMode) : blind on cap (setClock m) := blind_andThen blind_tick fun _ l _ => ⟨l, rfl⟩

/-- Whether an address is admitted does not depend on the log. -/
theorem relog_admits (l : Log) (s : State) (a : Nat) : admits (relog on cap l s) a = admits s a := rfl

theorem blind_bufRead (a : Nat) : blind on cap (bufRead a) :=
  blind_andThen blind_tick fun _ l s => by
    rw [relog_admits]
    split_ifs <;> exact ⟨l, rfl⟩

theorem blind_bufWrite (a : Nat) (v : Byte) : blind on cap (bufWrite a v) :=
  blind_andThen blind_tick fun _ l s => by
    rw [relog_admits]
    split_ifs <;> exact ⟨l, rfl⟩

/-! ### The command transaction -/

theorem blind_waitIdleLoop (n : Nat) : blind on cap (waitIdleLoop n) := by
  induction n with
  | zero => exact blind_done _
  | succ n ih =>
    exact blind_andThen (blind_xfer _) fun b => blind_ite (blind_done _) fun l s =>
      ih l { s with work.poll := BitVec.ofNat 32 n }

theorem blind_waitIdle : blind on cap waitIdle := fun l s =>
  blind_waitIdleLoop s.params.nReadyPoll l { s with work.poll := BitVec.ofNat 32 s.params.nReadyPoll }

theorem blind_sendBytes (d : List Byte) : blind on cap (sendBytes d) := by
  induction d with
  | nil => exact blind_done _
  | cons b d ih =>
    refine blind_andThen (blind_xfer b) fun v l s => ?_
    dsimp only
    split_ifs
    · exact ih l s
    · exact ih l { s with work.echoBad := true }

theorem blind_sendFrame (idx : BitVec 6) (arg : Word) : blind on cap (sendFrame idx arg) := fun l s =>
  blind_andThen (blind_sendBytes (commandBytes idx arg)) (fun _ l _ => ⟨l, rfl⟩) l (loadFrame idx arg s)

theorem blind_pollLoop (n : Nat) : blind on cap (pollLoop n) := by
  induction n with
  | zero => exact blind_done _
  | succ n ih =>
    exact blind_andThen (blind_xfer _) fun b => blind_ite (fun l s => ih l { s with work.poll := BitVec.ofNat 32 n })
      fun l _ => ⟨l, rfl⟩

theorem blind_pollResponse : blind on cap pollResponse := fun l s =>
  blind_pollLoop s.params.nRespPoll l { s with work.poll := BitVec.ofNat 32 s.params.nRespPoll }

theorem blind_cmdBegin (idx : BitVec 6) (arg : Word) : blind on cap (cmdBegin idx arg) := fun l s =>
  blind_andThen blind_assertCS (fun _ => blind_andThen blind_waitIdle fun e => by
    cases e with
    | some k => exact blind_done _
    | none =>
      refine blind_andThen (blind_sendFrame idx arg) fun e => ?_
      cases e with
      | some k => exact blind_done _
      | none => exact blind_pollResponse) l { s with work.idx := idx, work.arg := arg }

theorem blind_cmdEnd : blind on cap cmdEnd :=
  blind_andThen blind_deassertCS fun _ => blind_andThen (blind_xfer _) fun _ => blind_done ()

theorem blind_readPayload : blind on cap readPayload :=
  blind_andThen (blind_xfer _) fun _ => blind_andThen (blind_xfer _) fun _ => blind_andThen (blind_xfer _) fun _ =>
    blind_andThen (blind_xfer _) fun _ l _ => ⟨l, rfl⟩

theorem blind_command (idx : BitVec 6) (arg : Word) : blind on cap (command idx arg) :=
  blind_andThen (blind_cmdBegin idx arg) fun r =>
    blind_andThen (blind_ite blind_readPayload (blind_done ())) fun _ =>
      blind_andThen blind_cmdEnd fun _ => blind_done r

theorem blind_appCommand (idx : BitVec 6) (arg : Word) : blind on cap (appCommand idx arg) :=
  blind_andThen (blind_command 55 0) fun p => blind_ite (blind_command idx arg) (blind_done p)

/-! ### The data phases -/

theorem blind_tokenLoop (n : Nat) : blind on cap (tokenLoop n) := by
  induction n with
  | zero => exact blind_done _
  | succ n ih =>
    refine blind_andThen (blind_xfer _) fun t l s => ?_
    dsimp only
    cases decodeToken t with
    | data => exact ⟨l, rfl⟩
    | failed => exact ⟨l, rfl⟩
    | again => exact ih l { s with work.token := t, work.poll := BitVec.ofNat 32 n }

theorem blind_waitDataToken : blind on cap waitDataToken := fun l s =>
  blind_tokenLoop s.params.nTokenPoll l { s with work.poll := BitVec.ofNat 32 s.params.nTokenPoll }

theorem blind_receiveBytes (n : Nat) : ∀ a c, blind on cap (receiveBytes n a c) := by
  induction n with
  | zero => exact fun _ c => blind_done c
  | succ n ih =>
    exact fun a c => blind_andThen (blind_xfer _) fun v => blind_andThen (blind_bufWrite a v) fun _ => ih _ _

theorem blind_receiveBlock (buf : Nat) : blind on cap (receiveBlock buf) :=
  blind_andThen (blind_receiveBytes _ _ _) fun _ => blind_andThen (blind_xfer _) fun _ =>
    blind_andThen (blind_xfer _) fun _ l _ => ⟨l, rfl⟩

theorem blind_readDataBlock (buf : Nat) : blind on cap (readDataBlock buf) :=
  blind_andThen blind_waitDataToken fun e => by
    cases e with
    | some k => exact blind_done _
    | none => exact blind_andThen (blind_receiveBlock buf) fun _ => blind_done _

theorem blind_blockRead (idx : BitVec 6) (addr : Word) (buf : Nat) : blind on cap (blockRead idx addr buf) :=
  blind_andThen (blind_cmdBegin idx addr) fun r =>
    blind_andThen (blind_ite (blind_readDataBlock buf) (blind_done r)) fun r =>
      blind_andThen blind_cmdEnd fun _ => blind_done r

theorem blind_sendPayload (n : Nat) : ∀ a c, blind on cap (sendPayload n a c) := by
  induction n with
  | zero => exact fun _ c => blind_done c
  | succ n ih =>
    exact fun a c => blind_andThen (blind_bufRead a) fun v => blind_andThen (blind_xfer v) fun _ => ih _ _

theorem blind_busyLoop (n : Nat) : blind on cap (busyLoop n) := by
  induction n with
  | zero => exact blind_done _
  | succ n ih =>
    exact blind_andThen (blind_xfer _) fun b => blind_ite (blind_done _) fun l s =>
      ih l { s with work.poll := BitVec.ofNat 32 n }

theorem blind_waitNotBusy : blind on cap waitNotBusy := fun l s =>
  blind_busyLoop s.params.nBusyPoll l { s with work.poll := BitVec.ofNat 32 s.params.nBusyPoll }

theorem blind_writeDataBlock (buf : Nat) : blind on cap (writeDataBlock buf) :=
  blind_andThen (blind_xfer _) fun _ => blind_andThen (blind_xfer _) fun _ =>
    blind_andThen (blind_sendPayload _ _ _) fun c l s =>
      blind_andThen (blind_xfer _) (fun _ => blind_andThen (blind_xfer _) fun _ =>
        blind_andThen (blind_xfer _) fun t l s =>
          blind_andThen blind_waitNotBusy (fun _ => blind_done _) l { s with work.token := t })
        l { s with work.crc16 := c }

theorem blind_blockWrite (addr : Word) (buf : Nat) : blind on cap (blockWrite addr buf) :=
  blind_andThen (blind_cmdBegin 24 addr) fun _ =>
    blind_andThen (blind_ite (blind_andThen (blind_writeDataBlock buf) fun _ l _ => ⟨l, rfl⟩) (blind_done _)) fun w =>
      blind_andThen blind_cmdEnd fun _ => blind_done w

/-! ### The sector requests -/

theorem blind_whenReady {body : State → Ran Code} (hb : blind on cap body) : blind on cap (whenReady body) := by
  intro l s
  have hstate : (relog on cap l s).session.state = s.session.state := rfl
  unfold whenReady
  rw [hstate]
  split_ifs
  · exact blind_andThen hb (fun _ => blind_done _) l s
  · exact ⟨l, rfl⟩

/-- A record made of a failure alone. -/
theorem blind_logAppend_ite {p : Prop} [Decidable p] (c : Code) (r : LogRecord) :
    blind on cap fun s => Ran.done c (if p then s else logAppend r s) := by
  intro l s
  dsimp only
  split_ifs
  · exact ⟨l, rfl⟩
  · obtain ⟨l', h⟩ := relog_logAppend (on := on) (cap := cap) r l s
    exact ⟨l', congrArg (Ran.done c) h⟩

theorem blind_readSectorBody (buf : Nat) (sector : Word) : blind on cap (readSectorBody buf sector) := fun l s =>
  blind_andThen (blind_blockRead 17 (translateSector s.session.capClass sector) buf)
    (fun r => blind_logAppend_ite r.code _) l s

theorem blind_writeOnce (buf : Nat) (sector : Word) : blind on cap (writeOnce buf sector) := fun l s =>
  blind_andThen (blind_blockWrite (translateSector s.session.capClass sector) buf)
    (fun w => blind_logAppend_ite w.result.code _) l s

theorem blind_writeLoop (buf : Nat) (sector : Word) (n : Nat) : blind on cap (writeLoop n buf sector) := by
  induction n with
  | zero => exact blind_done _
  | succ n ih =>
    exact blind_andThen (blind_writeOnce buf sector) fun c =>
      blind_ite (fun l s => ih l { s with work.budget := BitVec.ofNat 32 n }) fun l _ => ⟨l, rfl⟩

theorem blind_writeSectorBody (buf : Nat) (sector : Word) : blind on cap (writeSectorBody buf sector) := fun l s =>
  blind_writeLoop buf sector s.params.writeBudget l { s with work.budget := BitVec.ofNat 32 s.params.writeBudget }

theorem blind_rangeLoop {one : Nat → Word → State → Ran Code} (ho : ∀ b w, blind on cap (one b w)) (n : Nat) :
    ∀ buf sector, blind on cap (rangeLoop one n buf sector) := by
  induction n with
  | zero => exact fun _ _ => blind_done 0
  | succ n ih =>
    exact fun buf sector => blind_andThen (ho buf sector) fun c => blind_ite (ih _ _) (blind_done c)

/-! ### STARTUP and INITIALIZE -/

theorem blind_clockIdle (n : Nat) : blind on cap (clockIdle n) := by
  induction n with
  | zero => exact blind_done ()
  | succ n ih => exact blind_andThen (blind_xfer _) fun _ => ih

theorem blind_probeLoop (n : Nat) : blind on cap (probeLoop n) := by
  induction n with
  | zero => exact blind_done _
  | succ n ih =>
    refine blind_andThen (blind_command 0 0) fun r => blind_ite (blind_done _) ?_
    have hretry : ∀ r : Result, blind on cap fun s =>
        if n = 0 then Ran.done (.fault .resetTimeout r) { s with work.attempts := 0 }
        else probeLoop n { s with work.attempts := BitVec.ofNat 32 n } := fun r =>
      blind_ite (fun l _ => ⟨l, rfl⟩) fun l s => ih l { s with work.attempts := BitVec.ofNat 32 n }
    cases r with
    | status b => exact hretry _
    | err k => cases k with
      | transmissionInterrupted => exact hretry _
      | _ => exact blind_done _

theorem blind_probing : blind on cap probing := fun l s =>
  blind_andThen (blind_setClock .slow) (fun _ => blind_andThen blind_deassertCS fun _ l s =>
    blind_andThen (blind_clockIdle s.params.nPowerup) (fun _ l s =>
      blind_probeLoop s.params.nResetAttempts l
        { s with work.attempts := BitVec.ofNat 32 s.params.nResetAttempts }) l s)
    l { s with session.state := .probing, session.capClass := .standard }

theorem blind_voltageCheck : blind on cap voltageCheck := fun l s =>
  blind_andThen (blind_command 8 cmd8Argument) (fun r l s => by
    cases r with
    | err k => exact ⟨l, rfl⟩
    | status b =>
      have hpayload : (relog on cap l s).work.payload = s.work.payload := rfl
      dsimp only
      rw [hpayload]
      split_ifs <;> exact ⟨l, rfl⟩) l { s with session.state := .voltageCheck }

theorem blind_negotiate : blind on cap negotiate := by
  intro l s
  have hgen : (relog on cap l s).session.cardGen = s.session.cardGen := rfl
  have happ : ∀ g, blind on cap fun s => (appCommand 41 (acmd41Argument (hcsOf g)) s).andThen fun r s =>
      .done r (if r.isIllegal then { s with session.cardGen := .mmc } else s) := fun g =>
    blind_andThen (blind_appCommand _ _) fun r l s => by
      dsimp only
      split_ifs <;> exact ⟨l, rfl⟩
  unfold negotiate
  rw [hgen]
  cases s.session.cardGen with
  | mmc => exact blind_command 1 0 l s
  | sdv1 => exact happ .sdv1 l s
  | sdv2 => exact happ .sdv2 l s

theorem blind_idleWaitLoop (n : Nat) : blind on cap (idleWaitLoop n) := by
  induction n with
  | zero => exact blind_done _
  | succ n ih =>
    exact blind_andThen blind_negotiate fun r => blind_ite (fun l _ => ⟨l, rfl⟩)
      (blind_ite (fun l _ => ⟨l, rfl⟩) fun l s => ih l { s with work.iter := s.work.iter + 1 })

theorem blind_idleWait : blind on cap idleWait := fun l s =>
  blind_idleWaitLoop s.params.nIdleWait l { s with session.state := .idleWait, work.iter := 0 }

theorem blind_capacityCheck : blind on cap capacityCheck := fun l s =>
  blind_andThen (blind_command 58 0) (fun r l s => by
    cases r with
    | err k => exact ⟨l, rfl⟩
    | status b =>
      have hpayload : (relog on cap l s).work.payload = s.work.payload := rfl
      have hgen : (relog on cap l s).session.cardGen = s.session.cardGen := rfl
      dsimp only
      rw [hpayload, hgen]
      split_ifs <;> exact ⟨l, rfl⟩) l { s with session.state := .capacityCheck }

theorem blind_thenPhase {f g : State → Ran Verdict} (hf : blind on cap f) (hg : blind on cap g) :
    blind on cap fun s => thenPhase (f s) g :=
  blind_andThen hf fun v => by
    cases v with
    | pass => exact hg
    | fault k e => exact blind_done _

theorem blind_configuring : blind on cap configuring := fun l s =>
  blind_thenPhase (blind_andThen (blind_command 16 cmd16Argument) fun r => blind_done (configResult r))
    (blind_andThen (blind_command 59 cmd59Argument) fun r => blind_done (configResult r))
    l { s with session.state := .configuring }

theorem blind_negotiation : blind on cap negotiation :=
  blind_thenPhase (blind_thenPhase (blind_thenPhase (blind_thenPhase blind_probing blind_voltageCheck) blind_idleWait)
    blind_capacityCheck) blind_configuring

theorem blind_concludeStartup (v : Verdict) : blind on cap (concludeStartup v) := by
  cases v with
  | pass => exact blind_andThen (blind_setClock .fast) fun _ l _ => ⟨l, rfl⟩
  | fault k r =>
    intro l s
    obtain ⟨l', h⟩ := relog_logAppend (on := on) (cap := cap) ⟨s.work.idx.setWidth 8, r.code, s.work.arg, 0, 0⟩ l
      { s with session.state := .faulted, session.faultCode := k.code }
    exact ⟨l', congrArg (Ran.done (resultReply k.code)) h⟩

theorem blind_startupBody : blind on cap startupBody := by
  intro l s
  have hstate : (relog on cap l s).session.state = s.session.state := rfl
  unfold startupBody
  rw [hstate]
  split
  · exact ⟨l, rfl⟩
  · exact ⟨l, rfl⟩
  · exact blind_andThen blind_negotiation blind_concludeStartup l s

theorem blind_initBody : blind on cap initBody := fun l s =>
  blind_andThen (blind_setClock .slow) (fun _ => blind_andThen blind_deassertCS fun _ => blind_done _) l
    (clearSession s)

/-! ### Whole instructions -/

/-- With another log the instruction's next state is the same but for the log. -/
def blindExec (on : Bool) (cap : Nat) (run : State → Host.Outcome State Fault Refusal) : Prop :=
  ∀ l s t, run s = .next t → ∃ l', run (relog on cap l s) = .next (relog on cap l' t)

theorem blindExec_underLock {work : State → Ran Unit} (hw : blind on cap work) :
    blindExec on cap (underLock i work) := by
  intro l s t h
  have hlock : (relog on cap l s).sync.lock = s.sync.lock := rfl
  unfold underLock at h ⊢
  rw [hlock]
  cases hl : s.sync.lock with
  | some a =>
    rw [hl] at h
    exact ⟨l, congrArg Host.Outcome.next (congrArg (relog on cap l) (Host.Outcome.next.inj h))⟩
  | none =>
    rw [hl] at h
    obtain ⟨l', hrun⟩ := hw l (acquire i s)
    have hfinal : (work (acquire i s)).final = t := Host.Outcome.next.inj h
    refine ⟨l', congrArg Host.Outcome.next ((congrArg Ran.final hrun).trans ?_)⟩
    rw [← hfinal]
    cases work (acquire i s) <;> rfl

theorem blindExec_serveRequest {body : State → Ran Reply} (hb : blind on cap body) :
    blindExec on cap (serveRequest i body) :=
  blindExec_underLock (blind_andThen hb fun _ => blind_andThen blind_tick fun _ l _ => ⟨l, rfl⟩)

theorem blindExec_serveFrame {body : State → Ran Result} (hb : blind on cap body) :
    blindExec on cap (serveFrame i body) :=
  blindExec_underLock (blind_andThen hb fun _ => blind_andThen blind_tick fun _ l _ => ⟨l, rfl⟩)

theorem blindExec_withBuffer {run : State → Host.Outcome State Fault Refusal} (hr : blindExec on cap run)
    (buf n : Nat) :
    blindExec on cap (withBuffer buf n run) := by
  intro l s t h
  have hwidth : (relog on cap l s).params.bufAddrW = s.params.bufAddrW := rfl
  unfold withBuffer at h ⊢
  rw [hwidth]
  split_ifs at h ⊢
  exact hr l s t h

/-- A reply without the lock, read off the session registers. -/
theorem blindExec_respond {reply : State → Reply} (hr : ∀ l s, reply (relog on cap l s) = reply s) :
    blindExec on cap fun s => .next (respond s.sync.caller (reply s) s) := by
  intro l s t h
  refine ⟨l, ?_⟩
  dsimp only
  rw [hr]
  exact congrArg Host.Outcome.next (congrArg (relog on cap l) (Host.Outcome.next.inj h))

theorem blindExec_exec (hi : i ≠ .dumpDiagnostics) : blindExec on cap (exec i) := by
  cases i with
  | cmd0 | cmd1 | cmd8 | cmd16 | cmd55 | cmd58 | cmd59 => exact blindExec_serveFrame (blind_command _ _)
  | acmd41Hcs1 | acmd41Hcs0 => exact blindExec_serveFrame (blind_appCommand _ _)
  | cmd17 addr buf | cmd18 addr buf =>
    exact blindExec_withBuffer (blindExec_serveFrame (blind_blockRead _ addr buf)) buf 1
  | cmd24 addr buf =>
    exact blindExec_withBuffer (blindExec_serveFrame (blind_andThen (blind_blockWrite addr buf) fun _ => blind_done _))
      buf 1
  | initSession => exact blindExec_serveRequest blind_initBody
  | startup => exact blindExec_serveRequest blind_startupBody
  | isReady => exact blindExec_respond (reply := readyReply) fun _ _ => rfl
  | readSector buf sector =>
    exact blindExec_withBuffer (blindExec_serveRequest (blind_whenReady (blind_readSectorBody buf sector))) buf 1
  | readRange buf sector count =>
    exact blindExec_withBuffer (blindExec_serveRequest (blind_whenReady
      (blind_rangeLoop blind_readSectorBody count.toNat buf sector))) buf count.toNat
  | writeSector buf sector =>
    exact blindExec_withBuffer (blindExec_serveRequest (blind_whenReady (blind_writeSectorBody buf sector))) buf 1
  | writeRange buf sector count =>
    exact blindExec_withBuffer (blindExec_serveRequest (blind_whenReady
      (blind_rangeLoop blind_writeSectorBody count.toNat buf sector))) buf count.toNat
  | dumpDiagnostics => exact absurd rfl hi
  | clearDiagnostics =>
    exact blindExec_serveRequest (body := fun s => .done (resultReply 0) (logClear s)) fun _ _ => ⟨⟨[], 0⟩, rfl⟩
  | reserved9 | reservedA | reservedB | reservedC | reservedD | reservedE | reservedF =>
    exact blindExec_respond (reply := fun _ => reservedReply) fun _ _ => rfl

end Sys2Proof.Machine

open Sys2Proof Sys2Proof.Machine

/-- Settles O57: every operation takes the same course with another log. -/
theorem theLogNeverGatesTheProtocol : Obligations.TheLogNeverGatesTheProtocol := by
  unfold Obligations.TheLogNeverGatesTheProtocol
  exact fun i s t on cap l hi h => blindExec_exec (on := on) (cap := cap) hi l s t h
end
